-- ==== Sys2Proof/Word.lean ====
section
/-! DEFINITION. The words of the block, by width (00_scope.md R8, 10_state.md R20, 30_encoding.md R70). -/

namespace Sys2Proof

/-- A byte of `W`, `K` or a byte operand (00_scope.md R8). -/
abbrev Byte := BitVec 8

/-- A 16-bit register value: `CRC`, `SUM` and the view `CRCSW` (10_state.md R20, R21). -/
abbrev Half := BitVec 16

/-- A 24-bit index, length or capacity: the command fields `off` and `len`, the register `WLEN`
(00_scope.md R7, 30_encoding.md R70). -/
abbrev Index := BitVec 24

/-- A 12-bit raw field of the temperature and humidity pack (45_unpacker.md R180). -/
abbrev Raw12 := BitVec 12

/-- A 32-bit register value: `FV` (10_state.md R28). -/
abbrev Word32 := BitVec 32

/-- A command word (30_encoding.md R70): bit 63 is the most significant. -/
abbrev CmdWord := BitVec 64

end Sys2Proof
end

