-- ==== Sys2Proof/Syntax.lean ====
section
/-! DEFINITION. The commands of the block: one constructor for each row of spec/opcode_table.json
(30_encoding.md R74). Operands are the fields of R70 to R73, as they stand. -/

namespace Sys2Proof

/-- The byte-order select `e` (30_encoding.md R73): `e = 0` is big-endian, `e = 1` is little-endian. -/
inductive ByteOrder where
  | big
  | little
  deriving DecidableEq, Repr

/-- The 33 operations (30_encoding.md R74), in the table's order. -/
inductive Instr where
  /-- `NOP` (R90) -/
  | nop
  /-- `RST` (R91) -/
  | rst
  /-- `ST.CLR` (R92) -/
  | stClr
  /-- `BUF.CLR` (R93) -/
  | bufClr
  /-- `BUF.PUSH imm8` (R94) -/
  | bufPush (imm : Byte)
  /-- `KEY.CLR` (R95) -/
  | keyClr
  /-- `KEY.PUSH imm8` (R96) -/
  | keyPush (imm : Byte)
  /-- `SUM.CLR` (R101) -/
  | sumClr
  /-- `SUM.BYTE imm8` (R102) -/
  | sumByte (imm : Byte)
  /-- `SUM.RNG off, len` (R103) -/
  | sumRng (off len : Index)
  /-- `SUM.CHK off, len` (R104) -/
  | sumChk (off len : Index)
  /-- `SUM.APP off` (R105) -/
  | sumApp (off : Index)
  /-- `CRC.INIT` (R112) -/
  | crcInit
  /-- `CRC.BYTE imm8` (R113) -/
  | crcByte (imm : Byte)
  /-- `CRC.RNG off, len` (R114) -/
  | crcRng (off len : Index)
  /-- `CRC.CHK off, len` (R115) -/
  | crcChk (off len : Index)
  /-- `CRC.APP off` (R116) -/
  | crcApp (off : Index)
  /-- `AES.ENCB off` (R143) -/
  | aesEncb (off : Index)
  /-- `AES.DECB off` (R144) -/
  | aesDecb (off : Index)
  /-- `AES.ENC off, len` (R145) -/
  | aesEnc (off len : Index)
  /-- `AES.DEC off, len` (R146) -/
  | aesDec (off len : Index)
  /-- `AES.PAD off` (R139) -/
  | aesPad (off : Index)
  /-- `AES.UNPAD off` (R140) -/
  | aesUnpad (off : Index)
  /-- `MRK.TST off` (R141) -/
  | mrkTst (off : Index)
  /-- `AES.DECC off, len` (R142) -/
  | aesDecc (off len : Index)
  /-- `UNE.CLR` (R166) -/
  | uneClr
  /-- `UNE.MAP off` (R167) -/
  | uneMap (off : Index)
  /-- `UNE.SUB off, len` (R168) -/
  | uneSub (off len : Index)
  /-- `UNE.RUN` (R169) -/
  | uneRun
  /-- `UNP.TH.e off` (R182) -/
  | unpTh (e : ByteOrder) (off : Index)
  /-- `PCK.TH.e T, H` (R183) -/
  | pckTh (e : ByteOrder) (t h : Raw12)
  /-- `FLD.U.e off, n` (R186) -/
  | fldU (e : ByteOrder) (off n : Index)
  /-- `FLD.S.e off, n` (R187) -/
  | fldS (e : ByteOrder) (off n : Index)
  deriving DecidableEq, Repr

end Sys2Proof
end

