-- ==== Sys2Proof/WellFormed.lean ====
section
/-! DEFINITION. The well-formed instructions: the terms of `Instr` that some legal command word encodes
(30_encoding.md R75). Every operand but the field width fills its field exactly, so the one check
is on the width `n` of format MR. -/

namespace Sys2Proof

/-- "`n` (formats MR) is `cmd[47:24]` and must be 1, 2, 3 or 4" (30_encoding.md R72). -/
def legalWidth (n : Index) : Bool :=
  n = 1#24 || n = 2#24 || n = 3#24 || n = 4#24

/-- The check of one instruction. -/
def Instr.check : Instr → Bool
  | .nop | .rst | .stClr | .bufClr | .bufPush _ | .keyClr | .keyPush _ => true
  | .sumClr | .sumByte _ | .sumRng _ _ | .sumChk _ _ | .sumApp _ => true
  | .crcInit | .crcByte _ | .crcRng _ _ | .crcChk _ _ | .crcApp _ => true
  | .aesEncb _ | .aesDecb _ | .aesEnc _ _ | .aesDec _ _ => true
  | .aesPad _ | .aesUnpad _ | .mrkTst _ | .aesDecc _ _ => true
  | .uneClr | .uneMap _ | .uneSub _ _ | .uneRun => true
  | .unpTh _ _ | .pckTh _ _ _ => true
  | .fldU _ _ n | .fldS _ _ n => legalWidth n

/-- An instruction is well formed when its check passes. -/
abbrev Instr.WellFormed (i : Instr) : Prop := i.check = true

end Sys2Proof
end

