-- ==== Sys2Proof/Decode.lean ====
section
/-! DEFINITION. The decoder, total on all 64-bit words, and the encoder (30_encoding.md R70 to R75). -/

namespace Sys2Proof

/-! ### The fields of the command word (30_encoding.md R70) -/

/-- `op = cmd[63:56]`. -/
def opField (w : CmdWord) : Byte := w.extractLsb' 56 8

/-- `m = cmd[55:48]`. -/
def mField (w : CmdWord) : Byte := w.extractLsb' 48 8

/-- `len = cmd[47:24]`. -/
def lenField (w : CmdWord) : Index := w.extractLsb' 24 24

/-- `off = cmd[23:0]`. -/
def offField (w : CmdWord) : Index := w.extractLsb' 0 24

/-- The word with the four fields given, `op` in the most significant byte. -/
def packFields (op m : Byte) (len off : Index) : CmdWord := op ++ m ++ len ++ off

/-! ### Operands inside the fields (30_encoding.md R71, R72, R73) -/

/-- The byte-order select of the field `m`: `m[7:1]` must be zero and `m[0]` is `e`. -/
def orderOfM (m : Byte) : Option ByteOrder :=
  if m = 0#8 then some .big else if m = 1#8 then some .little else none

/-- The field `m` that carries a byte-order select. -/
def mOfOrder : ByteOrder → Byte
  | .big => 0#8
  | .little => 1#8

/-- The field `off` of format I, whose bits 23:8 are zero and whose bits 7:0 are `imm8`. -/
def offOfImm (imm : Byte) : Index := imm.setWidth 24

/-- `imm8 = cmd[7:0]`, taken from the field `off`. -/
def immOfOff (off : Index) : Byte := off.extractLsb' 0 8

/-- The field `len` of format MP: `len[23:12] = T`, `len[11:0] = H`. -/
def lenOfPair (t h : Raw12) : Index := t ++ h

/-- `T = cmd[47:36]`, taken from the field `len`. -/
def tOfLen (len : Index) : Raw12 := len.extractLsb' 12 12

/-- `H = cmd[35:24]`, taken from the field `len`. -/
def hOfLen (len : Index) : Raw12 := len.extractLsb' 0 12

/-! ### Decoding -/

/-- Why a word is illegal (30_encoding.md R75). -/
inductive DecodeError where
  /-- `op` is none of the 33 opcodes of R74. -/
  | unassignedOpcode
  /-- A field the format marks 0 is not zero (R71). -/
  | unusedFieldNotZero
  /-- The width of format MR is not 1, 2, 3 or 4 (R72). -/
  | widthNotLegal
  deriving DecidableEq, Repr

/-- The seven formats of 30_encoding.md R71, each with the operation it builds. -/
inductive Format where
  | z (i : Instr)
  | imm (mk : Byte → Instr)
  | o (mk : Index → Instr)
  | r (mk : Index → Index → Instr)
  | mo (mk : ByteOrder → Index → Instr)
  | mr (mk : ByteOrder → Index → Index → Instr)
  | mp (mk : ByteOrder → Raw12 → Raw12 → Instr)

/-- The opcode map of 30_encoding.md R74. -/
def formatOf (op : Byte) : Option Format :=
  match op with
  | 0x00#8 => some (.z .nop)
  | 0x01#8 => some (.z .rst)
  | 0x02#8 => some (.z .stClr)
  | 0x03#8 => some (.z .bufClr)
  | 0x04#8 => some (.imm .bufPush)
  | 0x06#8 => some (.z .keyClr)
  | 0x07#8 => some (.imm .keyPush)
  | 0x10#8 => some (.z .sumClr)
  | 0x11#8 => some (.imm .sumByte)
  | 0x12#8 => some (.r .sumRng)
  | 0x13#8 => some (.r .sumChk)
  | 0x14#8 => some (.o .sumApp)
  | 0x20#8 => some (.z .crcInit)
  | 0x21#8 => some (.imm .crcByte)
  | 0x22#8 => some (.r .crcRng)
  | 0x23#8 => some (.r .crcChk)
  | 0x24#8 => some (.o .crcApp)
  | 0x30#8 => some (.o .aesEncb)
  | 0x31#8 => some (.o .aesDecb)
  | 0x32#8 => some (.r .aesEnc)
  | 0x33#8 => some (.r .aesDec)
  | 0x34#8 => some (.o .aesPad)
  | 0x35#8 => some (.o .aesUnpad)
  | 0x36#8 => some (.o .mrkTst)
  | 0x37#8 => some (.r .aesDecc)
  | 0x40#8 => some (.z .uneClr)
  | 0x41#8 => some (.o .uneMap)
  | 0x42#8 => some (.r .uneSub)
  | 0x43#8 => some (.z .uneRun)
  | 0x50#8 => some (.mo .unpTh)
  | 0x51#8 => some (.mp .pckTh)
  | 0x52#8 => some (.mr .fldU)
  | 0x53#8 => some (.mr .fldS)
  | _ => none

/-- An operation when its unused fields are zero (30_encoding.md R71, R75). -/
def ifUnusedZero (ok : Bool) (i : Instr) : Except DecodeError Instr :=
  if ok then .ok i else .error .unusedFieldNotZero

/-- Fill a format with the operands of the three fields below `op` (30_encoding.md R71, R72). -/
def fillFormat (f : Format) (m : Byte) (len off : Index) : Except DecodeError Instr :=
  match f with
  | .z i => ifUnusedZero (m = 0#8 && len = 0#24 && off = 0#24) i
  | .imm mk => ifUnusedZero (m = 0#8 && len = 0#24 && off = offOfImm (immOfOff off)) (mk (immOfOff off))
  | .o mk => ifUnusedZero (m = 0#8 && len = 0#24) (mk off)
  | .r mk => ifUnusedZero (m = 0#8) (mk off len)
  | .mo mk =>
    match orderOfM m with
    | none => .error .unusedFieldNotZero
    | some e => ifUnusedZero (len = 0#24) (mk e off)
  | .mr mk =>
    match orderOfM m with
    | none => .error .unusedFieldNotZero
    | some e => if legalWidth len then .ok (mk e off len) else .error .widthNotLegal
  | .mp mk =>
    match orderOfM m with
    | none => .error .unusedFieldNotZero
    | some e => ifUnusedZero (off = 0#24) (mk e (tOfLen len) (hOfLen len))

/-- The decoder: "compare `op`, then check that the unused fields are zero and, for format MR, that
`len` is 1 to 4" (30_encoding.md R74). Total: every word is a legal command or illegal (R75). -/
def decode (w : CmdWord) : Except DecodeError Instr :=
  match formatOf (opField w) with
  | none => .error .unassignedOpcode
  | some f => fillFormat f (mField w) (lenField w) (offField w)

/-! ### Encoding -/

/-- The opcode of an operation (30_encoding.md R74). -/
def opcodeOf : Instr → Byte
  | .nop => 0x00#8
  | .rst => 0x01#8
  | .stClr => 0x02#8
  | .bufClr => 0x03#8
  | .bufPush _ => 0x04#8
  | .keyClr => 0x06#8
  | .keyPush _ => 0x07#8
  | .sumClr => 0x10#8
  | .sumByte _ => 0x11#8
  | .sumRng _ _ => 0x12#8
  | .sumChk _ _ => 0x13#8
  | .sumApp _ => 0x14#8
  | .crcInit => 0x20#8
  | .crcByte _ => 0x21#8
  | .crcRng _ _ => 0x22#8
  | .crcChk _ _ => 0x23#8
  | .crcApp _ => 0x24#8
  | .aesEncb _ => 0x30#8
  | .aesDecb _ => 0x31#8
  | .aesEnc _ _ => 0x32#8
  | .aesDec _ _ => 0x33#8
  | .aesPad _ => 0x34#8
  | .aesUnpad _ => 0x35#8
  | .mrkTst _ => 0x36#8
  | .aesDecc _ _ => 0x37#8
  | .uneClr => 0x40#8
  | .uneMap _ => 0x41#8
  | .uneSub _ _ => 0x42#8
  | .uneRun => 0x43#8
  | .unpTh _ _ => 0x50#8
  | .pckTh _ _ _ => 0x51#8
  | .fldU _ _ _ => 0x52#8
  | .fldS _ _ _ => 0x53#8

/-- The field `m` of an operation's word (30_encoding.md R71). -/
def mFieldOf : Instr → Byte
  | .nop | .rst | .stClr | .bufClr | .bufPush _ | .keyClr | .keyPush _ => 0#8
  | .sumClr | .sumByte _ | .sumRng _ _ | .sumChk _ _ | .sumApp _ => 0#8
  | .crcInit | .crcByte _ | .crcRng _ _ | .crcChk _ _ | .crcApp _ => 0#8
  | .aesEncb _ | .aesDecb _ | .aesEnc _ _ | .aesDec _ _ => 0#8
  | .aesPad _ | .aesUnpad _ | .mrkTst _ | .aesDecc _ _ => 0#8
  | .uneClr | .uneMap _ | .uneSub _ _ | .uneRun => 0#8
  | .unpTh e _ | .pckTh e _ _ | .fldU e _ _ | .fldS e _ _ => mOfOrder e

/-- The field `len` of an operation's word (30_encoding.md R71). -/
def lenFieldOf : Instr → Index
  | .nop | .rst | .stClr | .bufClr | .bufPush _ | .keyClr | .keyPush _ => 0#24
  | .sumClr | .sumByte _ | .sumApp _ | .crcInit | .crcByte _ | .crcApp _ => 0#24
  | .aesEncb _ | .aesDecb _ | .aesPad _ | .aesUnpad _ | .mrkTst _ => 0#24
  | .uneClr | .uneMap _ | .uneRun | .unpTh _ _ => 0#24
  | .sumRng _ len | .sumChk _ len | .crcRng _ len | .crcChk _ len => len
  | .aesEnc _ len | .aesDec _ len | .aesDecc _ len | .uneSub _ len => len
  | .pckTh _ t h => lenOfPair t h
  | .fldU _ _ n | .fldS _ _ n => n

/-- The field `off` of an operation's word (30_encoding.md R71). -/
def offFieldOf : Instr → Index
  | .bufPush imm | .keyPush imm | .sumByte imm | .crcByte imm => offOfImm imm
  | .sumRng off _ | .sumChk off _ | .sumApp off => off
  | .crcRng off _ | .crcChk off _ | .crcApp off => off
  | .aesEncb off | .aesDecb off | .aesEnc off _ | .aesDec off _ => off
  | .aesPad off | .aesUnpad off | .mrkTst off | .aesDecc off _ => off
  | .uneMap off | .uneSub off _ => off
  | .unpTh _ off | .fldU _ off _ | .fldS _ off _ => off
  | .nop | .rst | .stClr | .bufClr | .keyClr | .sumClr | .crcInit => 0#24
  | .uneClr | .uneRun | .pckTh _ _ _ => 0#24

/-- The command word of an instruction (30_encoding.md R70, R71, R74). -/
def encode (i : Instr) : CmdWord :=
  packFields (opcodeOf i) (mFieldOf i) (lenFieldOf i) (offFieldOf i)

/-- What the decoder reads from an instruction given as the number `w` of `nbits` bits, numbered as
spec/opcode_table.json numbers them. A command is one 64-bit word, so the number is the word. -/
def decodeTableWord (nbits w : Nat) : Option Instr :=
  match decode (BitVec.ofNat 64 (w % 2 ^ nbits)) with
  | .ok i => some i
  | .error _ => none

end Sys2Proof
end

