-- ==== Sys2Proof/Config.lean ====
section
/-! DEFINITION. The constants and parameters of the block (00_scope.md R6, R7). -/

namespace Sys2Proof.Config

/-- `CRC_POLY` (00_scope.md R6): the feedback constant of the reflected CRC-16. -/
def crcPoly : Half := 0xA001#16

/-- `CRC_INIT` (00_scope.md R6): the CRC register at the start of a computation. -/
def crcInit : Half := 0xFFFF#16

/-- `BLOCK` (00_scope.md R6): the cipher block size in bytes. -/
abbrev block : Nat := 16

/-- `ESCAPE_MARK` (00_scope.md R6, 44_unescaper.md R160). -/
def escapeMark : List Byte := [0x27#8, 0x03#8, 0x00#8]

/-- `SPLIT_MARK` (00_scope.md R6, 44_unescaper.md R160). -/
def splitMark : List Byte := [0x26#8, 0x03#8, 0x00#8]

/-- `CANON[0]` (00_scope.md R6). -/
def canon0 : Byte := 0x1A#8

/-- `CANON[1]` (00_scope.md R6). -/
def canon1 : Byte := 0x1B#8

/-- `CANON[2]` (00_scope.md R6). -/
def canon2 : Byte := 0x08#8

/-- `SENTINEL` (00_scope.md R6): the substitution value that leaves its code unmapped. -/
def sentinel : Byte := 0x43#8

/-- `PLAIN_MARK` (00_scope.md R6): the fixed plaintext marker. -/
def plainMark : List Byte := [0x43#8, 0x47#8]

/-- `T_OFFSET_X10` (00_scope.md R6): the temperature offset in tenths of a degree. -/
def tOffsetX10 : Int := 500

/-- `KCAP` (00_scope.md R7): the capacity of the key buffer in bytes. -/
abbrev kcap : Nat := 32

/-- The command byte of an encoded frame when the host sets none: "default `cmd = 50` if unset"
(46_host_sequences.md R203, R201). -/
def defaultCommand : Byte := 0x32#8

/-- The largest payload of the outer frame (46_host_sequences.md R201: "0 to 65535"). -/
abbrev maxPayload : Nat := 65535

/-- The value the field `wcap` (the open parameter `WCAP`, 00_scope.md R7) has in `State.reset`:
the smallest capacity that "holds every frame the source can describe" (R7).
DESIGN CHOICE, unsafe (log entry 1): no statement rests on this value. -/
def wcapAtReset : Index := 65558#24

end Sys2Proof.Config
end

