-- ==== Sys2Proof/Machine/State.lean ====
section
/-! DEFINITION. The state of one block instance as plain data, the reasons a step can stop, the error codes,
and the state after reset (10_state.md R20, R32; 60_exceptions.md R221). -/

namespace Sys2Proof.Machine

/-- A byte memory as cells (index, byte), in one canonical form: indices strictly rising, no cell equal
to what an unlisted index reads as (`Memory.unlisted` and `Memory.wf` in Machine/Ops.lean). -/
abbrev Memory := List Host.Cell

/-- One entry of the substitution map (10_state.md R26): `valid` is `MV[i]` (true is 1) and `key` is `MK[i]`. -/
structure SubstEntry where
  valid : Bool
  key : Byte
  deriving DecidableEq, Repr

/-- The register file `MV[0..2]`, `MK[0..2]` (10_state.md R26), entry `i` belonging to `CANON[i]`. -/
structure SubstMap where
  e0 : SubstEntry
  e1 : SubstEntry
  e2 : SubstEntry
  deriving DecidableEq, Repr

/-- The map after reset and after `UNE.CLR` (10_state.md R32): every `MV[i]` and `MK[i]` is 0. -/
def SubstMap.cleared : SubstMap :=
  { e0 := { valid := false, key := 0#8 }, e1 := { valid := false, key := 0#8 }, e2 := { valid := false, key := 0#8 } }

/-- The eight errors of 60_exceptions.md R221, in code order. -/
inductive ErrCode where
  /-- code 1: a computed check differs from the stored one -/
  | checksumMismatch
  /-- code 2: an out-of-range pad length -/
  | paddingInvalid
  /-- code 3: a range runs past the valid bytes -/
  | bufferUnderrun
  /-- code 4: two valid substitution keys with the same value -/
  | malformedInput
  /-- code 5: reserved for the host, never raised by the block -/
  | unsupportedTag
  /-- code 6: a key or range length the cipher does not accept -/
  | cipherLengthInvalid
  /-- code 7: an append past the capacity -/
  | bufferOverflow
  /-- code 8: the command word is not legal -/
  | illegalCommand
  deriving DecidableEq, Repr

/-- The complete state (10_state.md R20), field by field as the rule's table names it, and two fields of
the model's own at the end: the parameter `WCAP` and the commands the host has issued. -/
structure State where
  /-- `CRC` (R21) -/
  crc : Half
  /-- `SUM` (R22) -/
  sum : Half
  /-- `TR` (R27) -/
  tr : Raw12
  /-- `HR` (R27) -/
  hr : Raw12
  /-- `FV` (R28) -/
  fv : Word32
  /-- `MV[0..2]` and `MK[0..2]` (R26) -/
  smap : SubstMap
  /-- `PLAIN` (R24), true is 1 -/
  plain : Bool
  /-- `ERR` (R25) -/
  err : Byte
  /-- `EOP` (R25) -/
  eop : Byte
  /-- `WLEN` (R29) -/
  wlen : Index
  /-- `KLEN` (R29) -/
  klen : BitVec 6
  /-- `W` (20_memory.md R50) -/
  w : Memory
  /-- `K` (20_memory.md R51) -/
  k : Memory
  /-- MODEL'S OWN (log entry 1): the open parameter `WCAP` of 00_scope.md R7. The 24-bit width is its
  upper bound 2^24 - 1. No operation writes it. -/
  wcap : Index
  /-- MODEL'S OWN (log entry 2): the command words the host has issued and the block has not yet
  taken, next first (10_state.md R23: "takes a list of command words as the program and steps
  through it in list order"). -/
  cmds : List CmdWord
  deriving DecidableEq, Repr

/-- Why a step stops the machine. The spec has no such stop ("The block has no hang and no stuck state",
00_scope.md R17); these two stand for an access at an index the memory does not have, and can be
met only in a state whose length register exceeds the capacity, which no run reaches (log entry 6). -/
inductive Fault where
  /-- Raised by the accesses of Machine/Ops.lean to `n` bytes of `W` at `index` that run past `WCAP`
  (20_memory.md R50). Safe: no run from reset meets it. -/
  | outsideWorkingBuffer (index n : Nat)
  /-- Raised by `KEY.PUSH` at an index of `K` past 31 (20_memory.md R51). Safe: no run from reset
  meets it. -/
  | outsideKeyBuffer (index : Nat)
  deriving DecidableEq, Repr

/-- Why an instruction has no meaning. -/
inductive Refusal where
  /-- Answered by `exec` for an instruction that is not modelled yet; no arm answers it. Safe. -/
  | notModelled (mnemonic : String)
  deriving DecidableEq, Repr

/-- The machine right after power-on reset (10_state.md R32, 70_reset_and_hazards.md R240). `W` and `K`
list nothing (their contents are unspecified and unobservable); `wcap` is the model's choice (log
entry 1); no command has been issued (log entry 2). -/
def State.reset : State where
  crc := Config.crcInit
  sum := 0#16
  tr := 0#12
  hr := 0#12
  fv := 0#32
  smap := SubstMap.cleared
  plain := false
  err := 0#8
  eop := 0#8
  wlen := 0#24
  klen := 0#6
  w := []
  k := []
  wcap := Config.wcapAtReset
  cmds := []

/-- What an operation answers. -/
abbrev Out := Host.Outcome State Fault Refusal

end Sys2Proof.Machine
end

