-- ==== Sys2Proof/Machine/Ops.lean ====
section
/-! DEFINITION. The named operations over registers and memories: register writes (00_scope.md R10), the
byte memories (R11), the checks `need` and `room` (R14), taking an error (R12, R223) and leaving the
error state (R229). -/

namespace Sys2Proof.Machine

/-! ### Register writes (00_scope.md R10) -/

/-- `x[CRC] <- v` -/
def State.setCrc (s : State) (v : Half) : State := { s with crc := v }

/-- `x[SUM] <- v` -/
def State.setSum (s : State) (v : Half) : State := { s with sum := v }

/-- `x[TR] <- t;  x[HR] <- h` (10_state.md R27: "written together") -/
def State.setTH (s : State) (t h : Raw12) : State := { s with tr := t, hr := h }

/-- `x[FV] <- v` -/
def State.setFv (s : State) (v : Word32) : State := { s with fv := v }

/-- `x[MV][i] <- …;  x[MK][i] <- …` for i = 0, 1, 2 -/
def State.setMap (s : State) (m : SubstMap) : State := { s with smap := m }

/-- `x[PLAIN] <- p` -/
def State.setPlain (s : State) (p : Bool) : State := { s with plain := p }

/-- `x[ERR] <- e;  x[EOP] <- op` -/
def State.setStatus (s : State) (e op : Byte) : State := { s with err := e, eop := op }

/-- `x[WLEN] <- v` -/
def State.setWlen (s : State) (v : Index) : State := { s with wlen := v }

/-- `x[KLEN] <- v` -/
def State.setKlen (s : State) (v : BitVec 6) : State := { s with klen := v }

/-- The bytes of `W` become `m`. -/
def State.setW (s : State) (m : Memory) : State := { s with w := m }

/-- The bytes of `K` become `m`. -/
def State.setK (s : State) (m : Memory) : State := { s with k := m }

/-- The commands still to be taken become `c` (the model's own field). -/
def State.setCmds (s : State) (c : List CmdWord) : State := { s with cmds := c }

/-! ### Byte memories (00_scope.md R11) -/

/-- What an unlisted index reads as, for `W` and `K`: 0x00. DESIGN CHOICE, unsafe (log entry 4): the
spec leaves the contents after reset unspecified and unobservable (70_reset_and_hazards.md R240). -/
def Memory.unlisted : Byte := 0#8

/-- The byte at index `a`. -/
def Memory.read : Memory → Nat → Byte
  | [], _ => Memory.unlisted
  | (b, v) :: m, a => if a = b then v else Memory.read m a

/-- A cell in front of the cells above it, unless it holds what an unlisted index reads as. -/
def Memory.consCell (a : Nat) (v : Byte) (m : Memory) : Memory :=
  if v = Memory.unlisted then m else (a, v) :: m

/-- The memory with byte `v` at index `a`, in canonical form. -/
def Memory.write : Memory → Nat → Byte → Memory
  | [], a, v => Memory.consCell a v []
  | (b, u) :: m, a, v =>
    if a < b then Memory.consCell a v ((b, u) :: m)
    else if a = b then Memory.consCell a v m
    else (b, u) :: Memory.write m a v

/-- `MemRead(a, n)`: the `n` bytes from index `a` (00_scope.md R11). -/
def Memory.readRange (m : Memory) (a : Nat) : Nat → List Byte
  | 0 => []
  | n + 1 => m.read a :: Memory.readRange m (a + 1) n

/-- `MemWrite(a, len(s), s)`: the bytes of `s` from index `a` (00_scope.md R11). -/
def Memory.writeRange (m : Memory) (a : Nat) : List Byte → Memory
  | [] => m
  | v :: s => Memory.writeRange (m.write a v) (a + 1) s

/-- The indices of a memory's cells are at least `lo`, strictly rise, and no cell holds what an
unlisted index reads as. -/
def Memory.wfFrom : Nat → Memory → Bool
  | _, [] => true
  | lo, (a, v) :: m => decide (lo ≤ a) && v != Memory.unlisted && Memory.wfFrom (a + 1) m

/-- The canonical form of a memory. -/
def Memory.wf (m : Memory) : Bool := Memory.wfFrom 0 m

/-- Every cell of a memory lies below `cap`. -/
def Memory.below (cap : Nat) (m : Memory) : Bool := m.all fun c => decide (c.1 < cap)

/-- The valid bytes of `W`, `W[0..WLEN)` (10_state.md R29). -/
def State.wBytes (s : State) : List Byte := s.w.readRange 0 s.wlen.toNat

/-- The valid bytes of `K`, `K[0..KLEN)` (10_state.md R29). -/
def State.kBytes (s : State) : List Byte := s.k.readRange 0 s.klen.toNat

/-! ### Taking an error and leaving the error state -/

/-- The code of an error (60_exceptions.md R221). -/
def ErrCode.code : ErrCode → Byte
  | .checksumMismatch => 1#8
  | .paddingInvalid => 2#8
  | .bufferUnderrun => 3#8
  | .malformedInput => 4#8
  | .unsupportedTag => 5#8
  | .cipherLengthInvalid => 6#8
  | .bufferOverflow => 7#8
  | .illegalCommand => 8#8

/-- `raise E(op)`: "`x[ERR] <- code(E)`; `x[EOP] <- cmd[63:56]`; no other register or buffer byte
changes" (60_exceptions.md R223, 00_scope.md R12). `s` is the state before the operation. -/
@[inline] def raise (e : ErrCode) (op : Byte) (s : State) : Out := .next (s.setStatus e.code op)

/-- The registers of `ST.CLR` (60_exceptions.md R229): "writes `ERR` and `EOP` to 0 and nothing else". -/
def State.clearStatus (s : State) : State := s.setStatus 0#8 0#8

/-- The registers of `RST` (40_general_ops.md R91): every register to its reset value. The bytes of `W`
and `K` keep what they held, unobservable (70_reset_and_hazards.md R241); the parameter `WCAP` is
no register and the host's commands are not the block's (log entry 3). -/
def State.resetRegs (s : State) : State :=
  { State.reset with w := s.w, k := s.k, wcap := s.wcap, cmds := s.cmds }

/-! ### Checks and accesses

Each takes the rest of the operation as its last argument, so that a meaning reads as its
pseudocode: the checks in their order, then the writes. -/

/-- `need(a, n)`: "`if a + n > x[WLEN] then raise BufferUnderrun(op)`", on exact integers
(00_scope.md R14). -/
@[inline] def need (op : Byte) (a n : Nat) (s : State) (rest : Out) : Out :=
  if s.wlen.toNat < a + n then raise .bufferUnderrun op s else rest

/-- `room(n)`: "`if x[WLEN] + n > WCAP then raise BufferOverflow(op)`", on exact integers
(00_scope.md R14). -/
@[inline] def room (op : Byte) (n : Nat) (s : State) (rest : Out) : Out :=
  if s.wcap.toNat < s.wlen.toNat + n then raise .bufferOverflow op s else rest

/-- The access to `n` bytes of `W` at `a`: those indices exist only up to `WCAP` (20_memory.md R50).
After a `need(a, n)` that passes, the fault is met only when `WLEN` exceeds `WCAP` (log entry 6). -/
@[inline] def accessW (a n : Nat) (s : State) (rest : Out) : Out :=
  if s.wcap.toNat < a + n then .fault (.outsideWorkingBuffer a n) else rest

/-- `MemRead(a, n)` of `W`, given to the rest of the operation. -/
@[inline] def readW (a n : Nat) (s : State) (rest : List Byte → Out) : Out :=
  accessW a n s (rest (s.w.readRange a n))

/-- `MemWrite(a, len(bytes), bytes)` of `W`, as a state. -/
def State.putW (s : State) (a : Nat) (bytes : List Byte) : State :=
  s.setW (s.w.writeRange a bytes)

/-- `MemWrite(x[WLEN], n, bytes);  x[WLEN] <- x[WLEN] + n`: the append every generator ends with,
after its `room(n)`. -/
def State.appendW (s : State) (bytes : List Byte) : State :=
  (s.putW s.wlen.toNat bytes).setWlen (s.wlen + BitVec.ofNat 24 bytes.length)

/-- `MemWrite(0, len(bytes), bytes);  x[WLEN] <- len(bytes)`: the whole buffer replaced
(44_unescaper.md R169). -/
def State.replaceW (s : State) (bytes : List Byte) : State :=
  (s.putW 0 bytes).setWlen (BitVec.ofNat 24 bytes.length)

end Sys2Proof.Machine
end

