-- ==== Sys2Proof/Machine/AesCipher.lean ====
section
/-! DEFINITION. The AES algorithm, as 43_aes_cipher.md gives it: field arithmetic (R148), block and key layout
(R132), S-boxes (R134, R135), key expansion (R133), round transformations (R136), `Cipher` (R137)
and `InvCipher` (R138). The spec supplies it from general knowledge (93_implementation_defined.md
G1, log entry 13). -/

namespace Sys2Proof.Machine

/-! ### Field arithmetic (R148) -/

/-- `xtime(a)` (R148). -/
def xtime (a : Byte) : Byte := if a.getLsbD 7 then (a <<< 1) ^^^ 0x1B#8 else a <<< 1

/-- `xtime^i(a)`. -/
def xtimes : Nat → Byte → Byte
  | 0, a => a
  | n + 1, a => xtimes n (xtime a)

/-- The exclusive-or of `xtime^i(a)` over the bits `i < n` set in `b`. -/
def gfSum (a b : Byte) : Nat → Byte
  | 0 => 0#8
  | n + 1 => if b.getLsbD n then gfSum a b n ^^^ xtimes n a else gfSum a b n

/-- The product `a • b` (R148). -/
def gfMul (a b : Byte) : Byte := gfSum a b 8

/-! ### The tables (R134, R135) -/

/-- Rows 0x00 to 0x3F of the S-box table of R134. -/
def sboxRows0 : List Byte :=
  [0x63#8, 0x7C#8, 0x77#8, 0x7B#8, 0xF2#8, 0x6B#8, 0x6F#8, 0xC5#8,
   0x30#8, 0x01#8, 0x67#8, 0x2B#8, 0xFE#8, 0xD7#8, 0xAB#8, 0x76#8,
   0xCA#8, 0x82#8, 0xC9#8, 0x7D#8, 0xFA#8, 0x59#8, 0x47#8, 0xF0#8,
   0xAD#8, 0xD4#8, 0xA2#8, 0xAF#8, 0x9C#8, 0xA4#8, 0x72#8, 0xC0#8,
   0xB7#8, 0xFD#8, 0x93#8, 0x26#8, 0x36#8, 0x3F#8, 0xF7#8, 0xCC#8,
   0x34#8, 0xA5#8, 0xE5#8, 0xF1#8, 0x71#8, 0xD8#8, 0x31#8, 0x15#8,
   0x04#8, 0xC7#8, 0x23#8, 0xC3#8, 0x18#8, 0x96#8, 0x05#8, 0x9A#8,
   0x07#8, 0x12#8, 0x80#8, 0xE2#8, 0xEB#8, 0x27#8, 0xB2#8, 0x75#8]

/-- Rows 0x40 to 0x7F of the S-box table of R134. -/
def sboxRows1 : List Byte :=
  [0x09#8, 0x83#8, 0x2C#8, 0x1A#8, 0x1B#8, 0x6E#8, 0x5A#8, 0xA0#8,
   0x52#8, 0x3B#8, 0xD6#8, 0xB3#8, 0x29#8, 0xE3#8, 0x2F#8, 0x84#8,
   0x53#8, 0xD1#8, 0x00#8, 0xED#8, 0x20#8, 0xFC#8, 0xB1#8, 0x5B#8,
   0x6A#8, 0xCB#8, 0xBE#8, 0x39#8, 0x4A#8, 0x4C#8, 0x58#8, 0xCF#8,
   0xD0#8, 0xEF#8, 0xAA#8, 0xFB#8, 0x43#8, 0x4D#8, 0x33#8, 0x85#8,
   0x45#8, 0xF9#8, 0x02#8, 0x7F#8, 0x50#8, 0x3C#8, 0x9F#8, 0xA8#8,
   0x51#8, 0xA3#8, 0x40#8, 0x8F#8, 0x92#8, 0x9D#8, 0x38#8, 0xF5#8,
   0xBC#8, 0xB6#8, 0xDA#8, 0x21#8, 0x10#8, 0xFF#8, 0xF3#8, 0xD2#8]

/-- Rows 0x80 to 0xBF of the S-box table of R134. -/
def sboxRows2 : List Byte :=
  [0xCD#8, 0x0C#8, 0x13#8, 0xEC#8, 0x5F#8, 0x97#8, 0x44#8, 0x17#8,
   0xC4#8, 0xA7#8, 0x7E#8, 0x3D#8, 0x64#8, 0x5D#8, 0x19#8, 0x73#8,
   0x60#8, 0x81#8, 0x4F#8, 0xDC#8, 0x22#8, 0x2A#8, 0x90#8, 0x88#8,
   0x46#8, 0xEE#8, 0xB8#8, 0x14#8, 0xDE#8, 0x5E#8, 0x0B#8, 0xDB#8,
   0xE0#8, 0x32#8, 0x3A#8, 0x0A#8, 0x49#8, 0x06#8, 0x24#8, 0x5C#8,
   0xC2#8, 0xD3#8, 0xAC#8, 0x62#8, 0x91#8, 0x95#8, 0xE4#8, 0x79#8,
   0xE7#8, 0xC8#8, 0x37#8, 0x6D#8, 0x8D#8, 0xD5#8, 0x4E#8, 0xA9#8,
   0x6C#8, 0x56#8, 0xF4#8, 0xEA#8, 0x65#8, 0x7A#8, 0xAE#8, 0x08#8]

/-- Rows 0xC0 to 0xFF of the S-box table of R134. -/
def sboxRows3 : List Byte :=
  [0xBA#8, 0x78#8, 0x25#8, 0x2E#8, 0x1C#8, 0xA6#8, 0xB4#8, 0xC6#8,
   0xE8#8, 0xDD#8, 0x74#8, 0x1F#8, 0x4B#8, 0xBD#8, 0x8B#8, 0x8A#8,
   0x70#8, 0x3E#8, 0xB5#8, 0x66#8, 0x48#8, 0x03#8, 0xF6#8, 0x0E#8,
   0x61#8, 0x35#8, 0x57#8, 0xB9#8, 0x86#8, 0xC1#8, 0x1D#8, 0x9E#8,
   0xE1#8, 0xF8#8, 0x98#8, 0x11#8, 0x69#8, 0xD9#8, 0x8E#8, 0x94#8,
   0x9B#8, 0x1E#8, 0x87#8, 0xE9#8, 0xCE#8, 0x55#8, 0x28#8, 0xDF#8,
   0x8C#8, 0xA1#8, 0x89#8, 0x0D#8, 0xBF#8, 0xE6#8, 0x42#8, 0x68#8,
   0x41#8, 0x99#8, 0x2D#8, 0x0F#8, 0xB0#8, 0x54#8, 0xBB#8, 0x16#8]

/-- The S-box table of R134, indexed by the byte. -/
def sboxTable : List Byte := sboxRows0 ++ sboxRows1 ++ sboxRows2 ++ sboxRows3

/-- Rows 0x00 to 0x3F of the inverse S-box table of R135. -/
def isboxRows0 : List Byte :=
  [0x52#8, 0x09#8, 0x6A#8, 0xD5#8, 0x30#8, 0x36#8, 0xA5#8, 0x38#8,
   0xBF#8, 0x40#8, 0xA3#8, 0x9E#8, 0x81#8, 0xF3#8, 0xD7#8, 0xFB#8,
   0x7C#8, 0xE3#8, 0x39#8, 0x82#8, 0x9B#8, 0x2F#8, 0xFF#8, 0x87#8,
   0x34#8, 0x8E#8, 0x43#8, 0x44#8, 0xC4#8, 0xDE#8, 0xE9#8, 0xCB#8,
   0x54#8, 0x7B#8, 0x94#8, 0x32#8, 0xA6#8, 0xC2#8, 0x23#8, 0x3D#8,
   0xEE#8, 0x4C#8, 0x95#8, 0x0B#8, 0x42#8, 0xFA#8, 0xC3#8, 0x4E#8,
   0x08#8, 0x2E#8, 0xA1#8, 0x66#8, 0x28#8, 0xD9#8, 0x24#8, 0xB2#8,
   0x76#8, 0x5B#8, 0xA2#8, 0x49#8, 0x6D#8, 0x8B#8, 0xD1#8, 0x25#8]

/-- Rows 0x40 to 0x7F of the inverse S-box table of R135. -/
def isboxRows1 : List Byte :=
  [0x72#8, 0xF8#8, 0xF6#8, 0x64#8, 0x86#8, 0x68#8, 0x98#8, 0x16#8,
   0xD4#8, 0xA4#8, 0x5C#8, 0xCC#8, 0x5D#8, 0x65#8, 0xB6#8, 0x92#8,
   0x6C#8, 0x70#8, 0x48#8, 0x50#8, 0xFD#8, 0xED#8, 0xB9#8, 0xDA#8,
   0x5E#8, 0x15#8, 0x46#8, 0x57#8, 0xA7#8, 0x8D#8, 0x9D#8, 0x84#8,
   0x90#8, 0xD8#8, 0xAB#8, 0x00#8, 0x8C#8, 0xBC#8, 0xD3#8, 0x0A#8,
   0xF7#8, 0xE4#8, 0x58#8, 0x05#8, 0xB8#8, 0xB3#8, 0x45#8, 0x06#8,
   0xD0#8, 0x2C#8, 0x1E#8, 0x8F#8, 0xCA#8, 0x3F#8, 0x0F#8, 0x02#8,
   0xC1#8, 0xAF#8, 0xBD#8, 0x03#8, 0x01#8, 0x13#8, 0x8A#8, 0x6B#8]

/-- Rows 0x80 to 0xBF of the inverse S-box table of R135. -/
def isboxRows2 : List Byte :=
  [0x3A#8, 0x91#8, 0x11#8, 0x41#8, 0x4F#8, 0x67#8, 0xDC#8, 0xEA#8,
   0x97#8, 0xF2#8, 0xCF#8, 0xCE#8, 0xF0#8, 0xB4#8, 0xE6#8, 0x73#8,
   0x96#8, 0xAC#8, 0x74#8, 0x22#8, 0xE7#8, 0xAD#8, 0x35#8, 0x85#8,
   0xE2#8, 0xF9#8, 0x37#8, 0xE8#8, 0x1C#8, 0x75#8, 0xDF#8, 0x6E#8,
   0x47#8, 0xF1#8, 0x1A#8, 0x71#8, 0x1D#8, 0x29#8, 0xC5#8, 0x89#8,
   0x6F#8, 0xB7#8, 0x62#8, 0x0E#8, 0xAA#8, 0x18#8, 0xBE#8, 0x1B#8,
   0xFC#8, 0x56#8, 0x3E#8, 0x4B#8, 0xC6#8, 0xD2#8, 0x79#8, 0x20#8,
   0x9A#8, 0xDB#8, 0xC0#8, 0xFE#8, 0x78#8, 0xCD#8, 0x5A#8, 0xF4#8]

/-- Rows 0xC0 to 0xFF of the inverse S-box table of R135. -/
def isboxRows3 : List Byte :=
  [0x1F#8, 0xDD#8, 0xA8#8, 0x33#8, 0x88#8, 0x07#8, 0xC7#8, 0x31#8,
   0xB1#8, 0x12#8, 0x10#8, 0x59#8, 0x27#8, 0x80#8, 0xEC#8, 0x5F#8,
   0x60#8, 0x51#8, 0x7F#8, 0xA9#8, 0x19#8, 0xB5#8, 0x4A#8, 0x0D#8,
   0x2D#8, 0xE5#8, 0x7A#8, 0x9F#8, 0x93#8, 0xC9#8, 0x9C#8, 0xEF#8,
   0xA0#8, 0xE0#8, 0x3B#8, 0x4D#8, 0xAE#8, 0x2A#8, 0xF5#8, 0xB0#8,
   0xC8#8, 0xEB#8, 0xBB#8, 0x3C#8, 0x83#8, 0x53#8, 0x99#8, 0x61#8,
   0x17#8, 0x2B#8, 0x04#8, 0x7E#8, 0xBA#8, 0x77#8, 0xD6#8, 0x26#8,
   0xE1#8, 0x69#8, 0x14#8, 0x63#8, 0x55#8, 0x21#8, 0x0C#8, 0x7D#8]

/-- The inverse S-box table of R135, indexed by the byte. -/
def isboxTable : List Byte := isboxRows0 ++ isboxRows1 ++ isboxRows2 ++ isboxRows3

/-- `SBOX[a]` (R134). -/
def sbox (a : Byte) : Byte := sboxTable.getD a.toNat 0#8

/-- `ISBOX[a]` (R135). -/
def isbox (a : Byte) : Byte := isboxTable.getD a.toNat 0#8

/-- `RC[j]` for `j` from 1 (R135): `RC[1]` = 0x01 and `RC[j] = xtime(RC[j-1])`. -/
def roundConst : Nat → Byte
  | 0 => 0x01#8
  | 1 => 0x01#8
  | j + 2 => xtime (roundConst (j + 1))

/-! ### Words and states (R132) -/

/-- A word `[a0, a1, a2, a3]`, or a column of the state: 4 bytes (R132). -/
structure AesWord where
  a0 : Byte
  a1 : Byte
  a2 : Byte
  a3 : Byte
  deriving DecidableEq, Repr

/-- The 4 x 4 byte state, column by column: column `c` is the word `[s[0][c], s[1][c], s[2][c], s[3][c]]`
(R132). -/
structure AesState where
  c0 : AesWord
  c1 : AesWord
  c2 : AesWord
  c3 : AesWord
  deriving DecidableEq, Repr

/-- Word `i` of a byte sequence: bytes `4i` to `4i+3` (R132). -/
def wordAt (bytes : List Byte) (i : Nat) : AesWord where
  a0 := bytes.getD (4 * i) 0#8
  a1 := bytes.getD (4 * i + 1) 0#8
  a2 := bytes.getD (4 * i + 2) 0#8
  a3 := bytes.getD (4 * i + 3) 0#8

/-- The bytes of a word. -/
def wordBytes (w : AesWord) : List Byte := [w.a0, w.a1, w.a2, w.a3]

/-- `s[r][c] = in[r + 4c]` (R132). -/
def stateOfBytes (bytes : List Byte) : AesState where
  c0 := wordAt bytes 0
  c1 := wordAt bytes 1
  c2 := wordAt bytes 2
  c3 := wordAt bytes 3

/-- `out[r + 4c] = s[r][c]` (R132). -/
def bytesOfState (s : AesState) : List Byte :=
  wordBytes s.c0 ++ wordBytes s.c1 ++ wordBytes s.c2 ++ wordBytes s.c3

/-- A byte function on every byte of a word. -/
def mapWord (f : Byte → Byte) (w : AesWord) : AesWord where
  a0 := f w.a0
  a1 := f w.a1
  a2 := f w.a2
  a3 := f w.a3

/-- A word function on every column of a state. -/
def mapColumns (f : AesWord → AesWord) (s : AesState) : AesState where
  c0 := f s.c0
  c1 := f s.c1
  c2 := f s.c2
  c3 := f s.c3

/-- `^` on words, bytewise (R133). -/
def xorWord (u v : AesWord) : AesWord where
  a0 := u.a0 ^^^ v.a0
  a1 := u.a1 ^^^ v.a1
  a2 := u.a2 ^^^ v.a2
  a3 := u.a3 ^^^ v.a3

/-! ### Key expansion (R133) -/

/-- `RotWord` (R133). -/
def rotWord (w : AesWord) : AesWord where
  a0 := w.a1
  a1 := w.a2
  a2 := w.a3
  a3 := w.a0

/-- `SubWord` (R133). -/
def subWord (w : AesWord) : AesWord := mapWord sbox w

/-- `Rcon[j]` (R135): `[RC[j], 0x00, 0x00, 0x00]`. -/
def rcon (j : Nat) : AesWord where
  a0 := roundConst j
  a1 := 0#8
  a2 := 0#8
  a3 := 0#8

/-- `Nk = KLEN / 4` (R132). -/
def keyWords (key : List Byte) : Nat := key.length / 4

/-- `Nr` (R132): 10 for a 16-byte key, 14 for a 32-byte key. -/
def roundCount (key : List Byte) : Nat := keyWords key + 6

/-- The first `n` words of a key, in index order (R133). -/
def keyPrefix (key : List Byte) (i : Nat) : Nat → List AesWord
  | 0 => []
  | n + 1 => wordAt key i :: keyPrefix key (i + 1) n

/-- The `t` of the expansion step at index `i`, from `w[i-1]` (R133). -/
def scheduleTemp (nk i : Nat) (prev : AesWord) : AesWord :=
  if i % nk = 0 then xorWord (subWord (rotWord prev)) (rcon (i / nk))
  else if nk = 8 ∧ i % nk = 4 then subWord prev
  else prev

/-- A word to stand where a list holds none. -/
def zeroWord : AesWord where
  a0 := 0#8
  a1 := 0#8
  a2 := 0#8
  a3 := 0#8

/-- `n` further words of the schedule from index `i`, in front of the words `w[i-1], …, w[0]`. -/
def expandFrom (nk : Nat) : Nat → Nat → List AesWord → List AesWord
  | 0, _, ws => ws
  | n + 1, i, ws =>
    let t := scheduleTemp nk i (ws.getD 0 zeroWord)
    expandFrom nk n (i + 1) (xorWord (ws.getD (nk - 1) zeroWord) t :: ws)

/-- The key expansion (R133): the words `w[0] … w[4Nr+3]` in index order. -/
def expandKey (key : List Byte) : List AesWord :=
  let nk := keyWords key
  (expandFrom nk (4 * (roundCount key + 1) - nk) nk (keyPrefix key 0 nk).reverse).reverse

/-- Round key `r`: the words `w[4r] … w[4r+3]` (R133). -/
def roundKey (ws : List AesWord) (r : Nat) : AesState where
  c0 := ws.getD (4 * r) zeroWord
  c1 := ws.getD (4 * r + 1) zeroWord
  c2 := ws.getD (4 * r + 2) zeroWord
  c3 := ws.getD (4 * r + 3) zeroWord

/-! ### Round transformations (R136) -/

/-- `SubBytes`. -/
def subBytes (s : AesState) : AesState := mapColumns (mapWord sbox) s

/-- `InvSubBytes`. -/
def invSubBytes (s : AesState) : AesState := mapColumns (mapWord isbox) s

/-- `ShiftRows`: `s'[r][c] = s[r][(c + r) mod 4]`. -/
def shiftRows (s : AesState) : AesState where
  c0 := AesWord.mk s.c0.a0 s.c1.a1 s.c2.a2 s.c3.a3
  c1 := AesWord.mk s.c1.a0 s.c2.a1 s.c3.a2 s.c0.a3
  c2 := AesWord.mk s.c2.a0 s.c3.a1 s.c0.a2 s.c1.a3
  c3 := AesWord.mk s.c3.a0 s.c0.a1 s.c1.a2 s.c2.a3

/-- `InvShiftRows`: `s'[r][c] = s[r][(c - r) mod 4]`. -/
def invShiftRows (s : AesState) : AesState where
  c0 := AesWord.mk s.c0.a0 s.c3.a1 s.c2.a2 s.c1.a3
  c1 := AesWord.mk s.c1.a0 s.c0.a1 s.c3.a2 s.c2.a3
  c2 := AesWord.mk s.c2.a0 s.c1.a1 s.c0.a2 s.c3.a3
  c3 := AesWord.mk s.c3.a0 s.c2.a1 s.c1.a2 s.c0.a3

/-- `MixColumns` on one column; the factor of each product is written second. -/
def mixColumn (w : AesWord) : AesWord where
  a0 := gfMul w.a0 2#8 ^^^ gfMul w.a1 3#8 ^^^ w.a2 ^^^ w.a3
  a1 := w.a0 ^^^ gfMul w.a1 2#8 ^^^ gfMul w.a2 3#8 ^^^ w.a3
  a2 := w.a0 ^^^ w.a1 ^^^ gfMul w.a2 2#8 ^^^ gfMul w.a3 3#8
  a3 := gfMul w.a0 3#8 ^^^ w.a1 ^^^ w.a2 ^^^ gfMul w.a3 2#8

/-- `InvMixColumns` on one column. -/
def invMixColumn (w : AesWord) : AesWord where
  a0 := gfMul w.a0 14#8 ^^^ gfMul w.a1 11#8 ^^^ gfMul w.a2 13#8 ^^^ gfMul w.a3 9#8
  a1 := gfMul w.a0 9#8 ^^^ gfMul w.a1 14#8 ^^^ gfMul w.a2 11#8 ^^^ gfMul w.a3 13#8
  a2 := gfMul w.a0 13#8 ^^^ gfMul w.a1 9#8 ^^^ gfMul w.a2 14#8 ^^^ gfMul w.a3 11#8
  a3 := gfMul w.a0 11#8 ^^^ gfMul w.a1 13#8 ^^^ gfMul w.a2 9#8 ^^^ gfMul w.a3 14#8

/-- `MixColumns`. -/
def mixColumns (s : AesState) : AesState := mapColumns mixColumn s

/-- `InvMixColumns`. -/
def invMixColumns (s : AesState) : AesState := mapColumns invMixColumn s

/-- `AddRoundKey`: column `c` is exclusive-ored with word `c` of the round key. -/
def addRoundKey (rk s : AesState) : AesState where
  c0 := xorWord s.c0 rk.c0
  c1 := xorWord s.c1 rk.c1
  c2 := xorWord s.c2 rk.c2
  c3 := xorWord s.c3 rk.c3

/-! ### Cipher (R137) and InvCipher (R138) -/

/-- Round `r` of `Cipher`, `1 ≤ r ≤ Nr - 1` (R137). -/
def encRound (ws : List AesWord) (r : Nat) (s : AesState) : AesState :=
  addRoundKey (roundKey ws r) (mixColumns (shiftRows (subBytes s)))

/-- Rounds 1 to `n` of `Cipher`, in that order (R137). -/
def encRounds (ws : List AesWord) : Nat → AesState → AesState
  | 0, s => s
  | n + 1, s => encRound ws (n + 1) (encRounds ws n s)

/-- `Cipher` on states, with `nr` rounds and the schedule `ws` (R137). -/
def cipherState (ws : List AesWord) (nr : Nat) (s : AesState) : AesState :=
  addRoundKey (roundKey ws nr)
    (shiftRows (subBytes (encRounds ws (nr - 1) (addRoundKey (roundKey ws 0) s))))

/-- Round `r` of `InvCipher`, `Nr - 1 ≥ r ≥ 1` (R138). -/
def decRound (ws : List AesWord) (r : Nat) (s : AesState) : AesState :=
  invMixColumns (addRoundKey (roundKey ws r) (invSubBytes (invShiftRows s)))

/-- Rounds `n` down to 1 of `InvCipher`, in that order (R138). -/
def decRounds (ws : List AesWord) : Nat → AesState → AesState
  | 0, s => s
  | n + 1, s => decRounds ws n (decRound ws (n + 1) s)

/-- `InvCipher` on states, with `nr` rounds and the schedule `ws` (R138). -/
def invCipherState (ws : List AesWord) (nr : Nat) (s : AesState) : AesState :=
  addRoundKey (roundKey ws 0)
    (invSubBytes (invShiftRows (decRounds ws (nr - 1) (addRoundKey (roundKey ws nr) s))))

/-- `Cipher(key, in)` (R137). -/
def cipher (key block : List Byte) : List Byte :=
  bytesOfState (cipherState (expandKey key) (roundCount key) (stateOfBytes block))

/-- `InvCipher(key, in)` (R138). -/
def invCipher (key block : List Byte) : List Byte :=
  bytesOfState (invCipherState (expandKey key) (roundCount key) (stateOfBytes block))

end Sys2Proof.Machine
end

