-- ==== Sys2Proof/Machine/Flags.lean ====
section
/-! DEFINITION. The one flag of the block, `PLAIN` (10_state.md R24). No arithmetic operation has a carry, zero,
sign or overflow flag. -/

namespace Sys2Proof.Machine

/-- The plaintext-marker test (43_aes_cipher.md R141): 1 when the first byte is 0x43 and the second 0x47,
else 0. "Both bytes must match, in this order." -/
def plainFlag (bytes : List Byte) : Bool := decide (bytes = Config.plainMark)

end Sys2Proof.Machine
end

