-- ==== Sys2Proof/Machine/Cipher.lean ====
section
/-! DEFINITION. The operations of the cipher unit (43_aes_cipher.md R130, R131, R139 to R146). -/

namespace Sys2Proof.Machine

/-- `keyok()` (R131): "if `x[KLEN] ≠ 16` and `x[KLEN] ≠ 32` then raise `CipherLengthInvalid(op)`". -/
@[inline] def keyOk (op : Byte) (s : State) (rest : Out) : Out :=
  if s.klen.toNat ≠ 16 ∧ s.klen.toNat ≠ 32 then raise .cipherLengthInvalid op s else rest

/-- "if `len mod 16 ≠ 0` then raise `CipherLengthInvalid`" (R145). -/
@[inline] def wholeBlocks (op : Byte) (len : Nat) (s : State) (rest : Out) : Out :=
  if len % Config.block ≠ 0 then raise .cipherLengthInvalid op s else rest

/-- The loop over `n` 16-byte blocks from index `a` (R145): each is read, replaced and written back, in
increasing index order, independently of the others (R130). -/
def mapBlocks (f : List Byte → List Byte) (a : Nat) : Nat → Memory → Memory
  | 0, m => m
  | n + 1, m =>
    mapBlocks f (a + Config.block) n (m.writeRange a (f (m.readRange a Config.block)))

/-- The state with the blocks of `W[a..a+len)` replaced by `f`. -/
def State.mapBlocksW (s : State) (f : List Byte → List Byte) (a len : Nat) : State :=
  s.setW (mapBlocks f a (len / Config.block) s.w)

/-- The pad of `n` data bytes: `k = 16 - (n mod 16)` (R139). -/
def padLength (n : Nat) : Nat := Config.block - n % Config.block

/-- The `k` pad bytes: `k - 1` zero bytes, then `k` (R139). -/
def padBytes (k : Nat) : List Byte := List.replicate (k - 1) 0#8 ++ [BitVec.ofNat 8 k]

/-- `AES.ENCB off` (R143). -/
def execAesEncb (off : Index) (s : State) : Out :=
  keyOk 0x30#8 s <|
  need 0x30#8 off.toNat Config.block s <|
  readW off.toNat Config.block s fun block =>
  .next (s.putW off.toNat (cipher s.kBytes block))

/-- `AES.DECB off` (R144). -/
def execAesDecb (off : Index) (s : State) : Out :=
  keyOk 0x31#8 s <|
  need 0x31#8 off.toNat Config.block s <|
  readW off.toNat Config.block s fun block =>
  .next (s.putW off.toNat (invCipher s.kBytes block))

/-- `AES.ENC off, len` (R145). -/
def execAesEnc (off len : Index) (s : State) : Out :=
  keyOk 0x32#8 s <|
  wholeBlocks 0x32#8 len.toNat s <|
  need 0x32#8 off.toNat len.toNat s <|
  accessW off.toNat len.toNat s <|
  .next (s.mapBlocksW (cipher s.kBytes) off.toNat len.toNat)

/-- `AES.DEC off, len` (R146). -/
def execAesDec (off len : Index) (s : State) : Out :=
  keyOk 0x33#8 s <|
  wholeBlocks 0x33#8 len.toNat s <|
  need 0x33#8 off.toNat len.toNat s <|
  accessW off.toNat len.toNat s <|
  .next (s.mapBlocksW (invCipher s.kBytes) off.toNat len.toNat)

/-- `AES.PAD off` (R139). -/
def execAesPad (off : Index) (s : State) : Out :=
  need 0x34#8 off.toNat 0 s <|
  let k := padLength (s.wlen.toNat - off.toNat)
  room 0x34#8 k s <|
  .next (s.appendW (padBytes k))

/-- `AES.UNPAD off` (R140). -/
def execAesUnpad (off : Index) (s : State) : Out :=
  need 0x35#8 off.toNat 0 s <|
  let n := s.wlen.toNat - off.toNat
  if n = 0 then raise .paddingInvalid 0x35#8 s else
  readW (s.wlen.toNat - 1) 1 s fun last =>
  let k := (last.getD 0 0#8).toNat
  if n ≤ k then raise .paddingInvalid 0x35#8 s
  else .next (s.setWlen (BitVec.ofNat 24 (s.wlen.toNat - k)))

/-- `MRK.TST off` (R141). -/
def execMrkTst (off : Index) (s : State) : Out :=
  need 0x36#8 off.toNat 2 s <|
  readW off.toNat 2 s fun bytes =>
  .next (s.setPlain (plainFlag bytes))

/-- `AES.DECC off, len` (R142): the key and the length are checked only when the marker is absent. -/
def execAesDecc (off len : Index) (s : State) : Out :=
  if len.toNat < 2 then raise .bufferUnderrun 0x37#8 s else
  need 0x37#8 off.toNat len.toNat s <|
  readW off.toNat 2 s fun bytes =>
  if plainFlag bytes then .next (s.setPlain true) else
  keyOk 0x37#8 s <|
  wholeBlocks 0x37#8 len.toNat s <|
  accessW off.toNat len.toNat s <|
  .next ((s.mapBlocksW (invCipher s.kBytes) off.toNat len.toNat).setPlain false)

end Sys2Proof.Machine
end

