-- ==== Sys2Proof/Machine/Operands.lean ====
section
/-! DEFINITION. Multi-byte operands and results: assembling values from bytes and bytes from values in the byte
orders of 20_memory.md R55 and 30_encoding.md R73. -/

namespace Sys2Proof.Machine

/-- The value of a byte sequence whose first byte is the most significant. -/
def bigEndianNat (bytes : List Byte) : Nat :=
  bytes.foldl (fun acc b => acc * 256 + b.toNat) 0

/-- The value of a byte sequence in the byte order `e` (30_encoding.md R73): `e = 0`, the byte at the
lowest index is the most significant; `e = 1`, the least significant. -/
def assemble (e : ByteOrder) (bytes : List Byte) : Nat :=
  match e with
  | .big => bigEndianNat bytes
  | .little => bigEndianNat bytes.reverse

/-- The two check bytes of a 16-bit value, "low byte first" (41_sum_check.md R105, 42_crc16.md R116). -/
def checkBytes (v : Half) : List Byte := [v.extractLsb' 0 8, v.extractLsb' 8 8]

/-- The stored check value of two bytes, "little-endian: low byte at the lower index"
(41_sum_check.md R104). -/
def checkValue (bytes : List Byte) : Half := BitVec.ofNat 16 (assemble .little bytes)

/-- `zext_32(v)` of the field assembled from `bytes` (45_unpacker.md R186). -/
def fieldUnsigned (e : ByteOrder) (bytes : List Byte) : Word32 :=
  (BitVec.ofNat (8 * bytes.length) (assemble e bytes)).setWidth 32

/-- `sext_32(v)` of the field assembled from `bytes` (45_unpacker.md R187). -/
def fieldSigned (e : ByteOrder) (bytes : List Byte) : Word32 :=
  (BitVec.ofNat (8 * bytes.length) (assemble e bytes)).signExtend 32

/-- The 24-bit value `raw` of the three bytes of a pack (45_unpacker.md R181). -/
def packRaw (e : ByteOrder) (bytes : List Byte) : Index := BitVec.ofNat 24 (assemble e bytes)

/-- `T = raw[23:12]` (45_unpacker.md R180). -/
def packT (raw : Index) : Raw12 := raw.extractLsb' 12 12

/-- `H = raw[11:0]` (45_unpacker.md R180). -/
def packH (raw : Index) : Raw12 := raw.extractLsb' 0 12

/-- The three bytes of a pack in index order (45_unpacker.md R183): `raw = T : H`. -/
def packBytes (e : ByteOrder) (t h : Raw12) : List Byte :=
  let raw : Index := t ++ h
  match e with
  | .big => [raw.extractLsb' 16 8, raw.extractLsb' 8 8, raw.extractLsb' 0 8]
  | .little => [raw.extractLsb' 0 8, raw.extractLsb' 8 8, raw.extractLsb' 16 8]

end Sys2Proof.Machine
end

