-- ==== Sys2Proof/Machine/Crc16.lean ====
section
/-! DEFINITION. The CRC-16 unit (42_crc16.md R110 to R116). -/

namespace Sys2Proof.Machine

/-- One of the 8 iterations of `crc_step` (R110): the test of bit 0 "is made on the value before the
shift". -/
def crcBit (r : Half) : Half :=
  if r.getLsbD 0 then (r >>> 1) ^^^ Config.crcPoly else r >>> 1

/-- `n` iterations. -/
def crcBits : Nat → Half → Half
  | 0, r => r
  | n + 1, r => crcBits n (crcBit r)

/-- `crc_step(r, b)` (R110): "the byte goes into bits 7:0", then 8 iterations. -/
def crcStep (r : Half) (b : Byte) : Half := crcBits 8 (r ^^^ b.setWidth 16)

/-- `crc_fold(r, s)` (R111): the bytes in increasing index order. -/
def crcFold (r : Half) (bytes : List Byte) : Half := bytes.foldl crcStep r

/-- `crc16(s) = crc_fold(0xFFFF, s)` (R111). -/
def crc16 (bytes : List Byte) : Half := crcFold Config.crcInit bytes

/-- The byte swap `r[7:0] : r[15:8]` of the check (R115) and of the view `CRCSW` (10_state.md R21). -/
def byteSwap (r : Half) : Half := r.extractLsb' 0 8 ++ r.extractLsb' 8 8

/-- `CRC.INIT` (R112). -/
def execCrcInit (s : State) : Out := .next (s.setCrc Config.crcInit)

/-- `CRC.BYTE imm8` (R113). -/
def execCrcByte (imm : Byte) (s : State) : Out := .next (s.setCrc (crcStep s.crc imm))

/-- `CRC.RNG off, len` (R114). -/
def execCrcRng (off len : Index) (s : State) : Out :=
  need 0x22#8 off.toNat len.toNat s <|
  readW off.toNat len.toNat s fun bytes =>
  .next (s.setCrc (crcFold s.crc bytes))

/-- `CRC.CHK off, len` (R115), in the whole-frame form the rule asks for. -/
def execCrcChk (off len : Index) (s : State) : Out :=
  need 0x23#8 off.toNat len.toNat s <|
  readW off.toNat len.toNat s fun bytes =>
  if byteSwap (crc16 bytes) ≠ 0#16 then raise .checksumMismatch 0x23#8 s
  else .next (s.setCrc (crc16 bytes))

/-- `CRC.APP off` (R116). -/
def execCrcApp (off : Index) (s : State) : Out :=
  need 0x24#8 off.toNat 0 s <|
  room 0x24#8 2 s <|
  readW off.toNat (s.wlen.toNat - off.toNat) s fun body =>
  .next ((s.appendW (checkBytes (crc16 body))).setCrc (crc16 body))

end Sys2Proof.Machine
end

