-- ==== Sys2Proof/Machine/Housekeeping.lean ====
section
/-! DEFINITION. Housekeeping operations (40_general_ops.md R90 to R96). -/

namespace Sys2Proof.Machine

/-- `NOP` (R90). -/
def execNop (s : State) : Out := .next s

/-- `RST` (R91). -/
def execRst (s : State) : Out := .next s.resetRegs

/-- `ST.CLR` (R92). -/
def execStClr (s : State) : Out := .next s.clearStatus

/-- `BUF.CLR` (R93). -/
def execBufClr (s : State) : Out := .next (s.setWlen 0#24)

/-- `BUF.PUSH imm8` (R94). -/
def execBufPush (imm : Byte) (s : State) : Out :=
  room 0x04#8 1 s <|
  .next (s.appendW [imm])

/-- `KEY.CLR` (R95). -/
def execKeyClr (s : State) : Out := .next (s.setKlen 0#6)

/-- `KEY.PUSH imm8` (R96). `K` has the indices 0 to 31 (20_memory.md R51): an index past 31 is no byte of it
(log entry 6). -/
def execKeyPush (imm : Byte) (s : State) : Out :=
  if s.klen.toNat = Config.kcap then raise .bufferOverflow 0x07#8 s
  else if Config.kcap < s.klen.toNat then .fault (.outsideKeyBuffer s.klen.toNat)
  else .next ((s.setK (s.k.write s.klen.toNat imm)).setKlen (s.klen + 1#6))

end Sys2Proof.Machine
end

