-- ==== Sys2Proof/Machine/SumCheck.lean ====
section
/-! DEFINITION. The additive 16-bit sum-check (41_sum_check.md R100 to R105). -/

namespace Sys2Proof.Machine

/-- `add16(a, b) = (a + b) mod 65536` for a 16-bit `a` and a byte `b` (R100). -/
def add16 (a : Half) (b : Byte) : Half := a + b.setWidth 16

/-- `sum16(s) = fold(add16, 0, s)` (R100). -/
def sum16 (bytes : List Byte) : Half := bytes.foldl add16 0#16

/-- `SUM.CLR` (R101). -/
def execSumClr (s : State) : Out := .next (s.setSum 0#16)

/-- `SUM.BYTE imm8` (R102). -/
def execSumByte (imm : Byte) (s : State) : Out := .next (s.setSum (add16 s.sum imm))

/-- `SUM.RNG off, len` (R103). -/
def execSumRng (off len : Index) (s : State) : Out :=
  need 0x12#8 off.toNat len.toNat s <|
  readW off.toNat len.toNat s fun bytes =>
  .next (s.setSum (s.sum + sum16 bytes))

/-- `SUM.CHK off, len` (R104). -/
def execSumChk (off len : Index) (s : State) : Out :=
  if len.toNat < 2 then raise .bufferUnderrun 0x13#8 s else
  need 0x13#8 off.toNat len.toNat s <|
  readW off.toNat (len.toNat - 2) s fun body =>
  readW (off.toNat + len.toNat - 2) 2 s fun check =>
  if sum16 body ≠ checkValue check then raise .checksumMismatch 0x13#8 s
  else .next (s.setSum (sum16 body))

/-- `SUM.APP off` (R105). -/
def execSumApp (off : Index) (s : State) : Out :=
  need 0x14#8 off.toNat 0 s <|
  room 0x14#8 2 s <|
  readW off.toNat (s.wlen.toNat - off.toNat) s fun body =>
  .next ((s.appendW (checkBytes (sum16 body))).setSum (sum16 body))

end Sys2Proof.Machine
end

