-- ==== Sys2Proof/Machine/Unescape.lean ====
section
/-! DEFINITION. The byte-sequence unescaper (44_unescaper.md R160 to R169). -/

namespace Sys2Proof.Machine

/-- `find(m, s)` (R161): the least index at which the three bytes of the mark stand. -/
def findMark (m : List Byte) : List Byte → Option Nat
  | [] => none
  | b :: s =>
    if (b :: s).take 3 = m then some 0
    else match findMark m s with
      | none => none
      | some i => some (i + 1)

/-- A byte put in front of the first piece. -/
def consPiece (b : Byte) : List (List Byte) → List (List Byte)
  | [] => [[b]]
  | f :: fs => (b :: f) :: fs

/-- `split(s)` (R162): cut at every `SPLIT_MARK`, left to right and not overlapping, the marks
removed and empty pieces kept. -/
def splitMarks : List Byte → List (List Byte)
  | a :: b :: c :: s =>
    if [a, b, c] = Config.splitMark then [] :: splitMarks s
    else consPiece a (splitMarks (b :: c :: s))
  | s => [s]

/-- Entry `i` of the map from its key byte (R163, R167): valid unless the key is the sentinel. -/
def entryOfKey (k : Byte) : SubstEntry where
  valid := k != Config.sentinel
  key := k

/-- Two entries are valid and have the same key byte (R163). -/
def sameKey (a b : SubstEntry) : Bool := a.valid && b.valid && a.key == b.key

/-- "No two valid entries have the same `MK` value" (10_state.md R26). -/
def SubstMap.distinct (m : SubstMap) : Bool :=
  !(sameKey m.e0 m.e1 || sameKey m.e0 m.e2 || sameKey m.e1 m.e2)

/-- `buildmap(k)` (R163), with the map in the form of the registers `MV`, `MK`: "The register map and
`buildmap` of rule R163 are the same function" (R167). -/
def buildMap (k0 k1 k2 : Byte) : Except ErrCode SubstMap :=
  let m : SubstMap := { e0 := entryOfKey k0, e1 := entryOfKey k1, e2 := entryOfKey k2 }
  if m.distinct then .ok m else .error .malformedInput

/-- `buildmap` of the first three bytes of a sequence. -/
def buildMapOf (key : List Byte) : Except ErrCode SubstMap :=
  buildMap (key.getD 0 0#8) (key.getD 1 0#8) (key.getD 2 0#8)

/-- Entry `e` maps the byte `b`. -/
def SubstEntry.hits (e : SubstEntry) (b : Byte) : Bool := e.valid && e.key == b

/-- `subst(b)` (10_state.md R26): `CANON[i]` if entry `i` is valid with key `b`, else `b`. -/
def SubstMap.subst (m : SubstMap) (b : Byte) : Byte :=
  if m.e0.hits b then Config.canon0
  else if m.e1.hits b then Config.canon1
  else if m.e2.hits b then Config.canon2
  else b

/-- `apply(m, s)` (R164): every byte independently and once. -/
def applyMap (m : SubstMap) (s : List Byte) : List Byte := s.map m.subst

/-- Step 1 (R165): "If the buffer starts with a doubled `0x27 0x27`, drop the first byte". -/
def dropDoubled : List Byte → List Byte
  | a :: b :: s => if a = 0x27#8 ∧ b = 0x27#8 then b :: s else a :: b :: s
  | s => s

/-- The map a fragment's predecessor carries (R165, step 3): the empty map when it holds no
`ESCAPE_MARK`. -/
def keyOfFragment (prev : List Byte) : Except ErrCode SubstMap :=
  match findMark Config.escapeMark prev with
  | none => .ok SubstMap.cleared
  | some i =>
    if prev.length < i + 6 then .error .bufferUnderrun
    else buildMapOf ((prev.drop (i + 3)).take 3)

/-- The output of one fragment under its map (R165, step 3): the `L` bytes from its index 3, `L` being
its byte at index 2. -/
def contentOfFragment (m : SubstMap) (f : List Byte) : Except ErrCode (List Byte) :=
  if f.length < 3 then .error .bufferUnderrun
  else if f.length < 3 + (f.getD 2 0#8).toNat then .error .bufferUnderrun
  else .ok (applyMap m ((f.drop 3).take (f.getD 2 0#8).toNat))

/-- Step 3 (R165): the fragments after `prev`, in order; within one, the previous fragment's key is
examined before the fragment's own length (R169). -/
def joinFragments (prev : List Byte) : List (List Byte) → Except ErrCode (List Byte)
  | [] => .ok []
  | f :: fs =>
    match keyOfFragment prev with
    | .error e => .error e
    | .ok m =>
      match contentOfFragment m f with
      | .error e => .error e
      | .ok out =>
        match joinFragments f fs with
        | .error e => .error e
        | .ok rest => .ok (out ++ rest)

/-- Step 2 (R165), for a buffer without a split. -/
def unescapeUnsplit (b : List Byte) : Except ErrCode (List Byte) :=
  match findMark Config.escapeMark b with
  | none => .ok b
  | some i =>
    if b.length < i + 6 then .error .bufferUnderrun
    else
      match buildMapOf ((b.drop (i + 3)).take 3) with
      | .error e => .error e
      | .ok m => .ok (applyMap m (b.drop (i + 6)))

/-- `unescape(b)` (R165). -/
def unescape (raw : List Byte) : Except ErrCode (List Byte) :=
  let b := dropDoubled raw
  match splitMarks b with
  | header :: f :: fs => joinFragments header (f :: fs)
  | _ => unescapeUnsplit b

/-- `UNE.CLR` (R166). -/
def execUneClr (s : State) : Out := .next (s.setMap SubstMap.cleared)

/-- `UNE.MAP off` (R167). -/
def execUneMap (off : Index) (s : State) : Out :=
  need 0x41#8 off.toNat 3 s <|
  readW off.toNat 3 s fun key =>
  match buildMapOf key with
  | .error e => raise e 0x41#8 s
  | .ok m => .next (s.setMap m)

/-- `UNE.SUB off, len` (R168). -/
def execUneSub (off len : Index) (s : State) : Out :=
  need 0x42#8 off.toNat len.toNat s <|
  readW off.toNat len.toNat s fun bytes =>
  .next (s.putW off.toNat (applyMap s.smap bytes))

/-- `UNE.RUN` (R169). -/
def execUneRun (s : State) : Out :=
  readW 0 s.wlen.toNat s fun bytes =>
  match unescape bytes with
  | .error e => raise e 0x43#8 s
  | .ok r => .next (s.replaceW r)

end Sys2Proof.Machine
end

