-- ==== Sys2Proof/Machine/Unpack.lean ====
section
/-! DEFINITION. The bit-field unpacker (45_unpacker.md R180 to R187). -/

namespace Sys2Proof.Machine

/-- `UNP.TH.e off` (R182). -/
def execUnpTh (e : ByteOrder) (off : Index) (s : State) : Out :=
  need 0x50#8 off.toNat 3 s <|
  readW off.toNat 3 s fun bytes =>
  .next (s.setTH (packT (packRaw e bytes)) (packH (packRaw e bytes)))

/-- `PCK.TH.e T, H` (R183). -/
def execPckTh (e : ByteOrder) (t h : Raw12) (s : State) : Out :=
  room 0x51#8 3 s <|
  .next (s.appendW (packBytes e t h))

/-- The legality of the width: "any other `n` is an illegal command" (R186, 30_encoding.md R75). The
decoder gives no term with another width, so a command never meets this check (log entry 7). -/
@[inline] def widthOk (op : Byte) (n : Index) (s : State) (rest : Out) : Out :=
  if legalWidth n then rest else raise .illegalCommand op s

/-- `FLD.U.e off, n` (R186). -/
def execFldU (e : ByteOrder) (off n : Index) (s : State) : Out :=
  widthOk 0x52#8 n s <|
  need 0x52#8 off.toNat n.toNat s <|
  readW off.toNat n.toNat s fun bytes =>
  .next (s.setFv (fieldUnsigned e bytes))

/-- `FLD.S.e off, n` (R187). -/
def execFldS (e : ByteOrder) (off n : Index) (s : State) : Out :=
  widthOk 0x53#8 n s <|
  need 0x53#8 off.toNat n.toNat s <|
  readW off.toNat n.toNat s fun bytes =>
  .next (s.setFv (fieldSigned e bytes))

end Sys2Proof.Machine
end

