-- ==== Sys2Proof/Machine/Dispatch.lean ====
section
/-! DEFINITION. `exec`: one arm per operation, each one call of its meaning (30_encoding.md R74). -/

namespace Sys2Proof.Machine

/-- The operation an instruction encodes, in a state whose `ERR` is 0: the last line of the dispatch of
60_exceptions.md R224, "execute the operation `cmd` encodes" (log entry 8). -/
def exec (i : Instr) (s : State) : Host.Outcome State Fault Refusal :=
  match i with
  | .nop => Sys2Proof.Machine.execNop s
  | .rst => Sys2Proof.Machine.execRst s
  | .stClr => Sys2Proof.Machine.execStClr s
  | .bufClr => Sys2Proof.Machine.execBufClr s
  | .bufPush imm => Sys2Proof.Machine.execBufPush imm s
  | .keyClr => Sys2Proof.Machine.execKeyClr s
  | .keyPush imm => Sys2Proof.Machine.execKeyPush imm s
  | .sumClr => Sys2Proof.Machine.execSumClr s
  | .sumByte imm => Sys2Proof.Machine.execSumByte imm s
  | .sumRng off len => Sys2Proof.Machine.execSumRng off len s
  | .sumChk off len => Sys2Proof.Machine.execSumChk off len s
  | .sumApp off => Sys2Proof.Machine.execSumApp off s
  | .crcInit => Sys2Proof.Machine.execCrcInit s
  | .crcByte imm => Sys2Proof.Machine.execCrcByte imm s
  | .crcRng off len => Sys2Proof.Machine.execCrcRng off len s
  | .crcChk off len => Sys2Proof.Machine.execCrcChk off len s
  | .crcApp off => Sys2Proof.Machine.execCrcApp off s
  | .aesEncb off => Sys2Proof.Machine.execAesEncb off s
  | .aesDecb off => Sys2Proof.Machine.execAesDecb off s
  | .aesEnc off len => Sys2Proof.Machine.execAesEnc off len s
  | .aesDec off len => Sys2Proof.Machine.execAesDec off len s
  | .aesPad off => Sys2Proof.Machine.execAesPad off s
  | .aesUnpad off => Sys2Proof.Machine.execAesUnpad off s
  | .mrkTst off => Sys2Proof.Machine.execMrkTst off s
  | .aesDecc off len => Sys2Proof.Machine.execAesDecc off len s
  | .uneClr => Sys2Proof.Machine.execUneClr s
  | .uneMap off => Sys2Proof.Machine.execUneMap off s
  | .uneSub off len => Sys2Proof.Machine.execUneSub off len s
  | .uneRun => Sys2Proof.Machine.execUneRun s
  | .unpTh e off => Sys2Proof.Machine.execUnpTh e off s
  | .pckTh e t h => Sys2Proof.Machine.execPckTh e t h s
  | .fldU e off n => Sys2Proof.Machine.execFldU e off n s
  | .fldS e off n => Sys2Proof.Machine.execFldS e off n s

end Sys2Proof.Machine
end

