-- ==== Sys2Proof/Machine/Command.lean ====
section
/-! DEFINITION. Taking a command: the host's next word (10_state.md R23) and the dispatch every command obeys
(60_exceptions.md R224). -/

namespace Sys2Proof.Machine

/-- The word of `RST`, as the dispatch compares it (60_exceptions.md R224). -/
def rstWord : CmdWord := 0x0100000000000000#64

/-- The word of `ST.CLR`, as the dispatch compares it (60_exceptions.md R224). -/
def stClrWord : CmdWord := 0x0200000000000000#64

/-- `step(cmd)` of 60_exceptions.md R224, in its order: while `ERR` is not 0, only the two clearing words
execute and every other word is ignored; then legality; then the operation. -/
def runCommand (cmd : CmdWord) (s : State) : Out :=
  if s.err ≠ 0#8 then
    if cmd = rstWord then exec .rst s
    else if cmd = stClrWord then exec .stClr s
    else .next s
  else
    match decode cmd with
    | .error _ => raise .illegalCommand (opField cmd) s
    | .ok i => exec i s

/-- The next command word the host has issued, and the state without it (10_state.md R23, log entry 2). -/
def fetch (s : State) : Option (CmdWord × State) :=
  match s.cmds with
  | [] => none
  | cmd :: rest => some (cmd, s.setCmds rest)

/-- The host issues a word: it is the next command the block takes. -/
def State.issue (s : State) (cmd : CmdWord) : State := s.setCmds (cmd :: s.cmds)

end Sys2Proof.Machine
end

