-- ==== Sys2Proof/Machine/Step.lean ====
section
/-! DEFINITION. One step: the block takes the host's next command and executes it to completion
(00_scope.md R15). -/

namespace Sys2Proof.Machine

/-- One atomic step. With no command issued, "the block is idle and holds its state"
(60_exceptions.md R234). -/
def step (s : State) : Host.Outcome State Fault Refusal :=
  match fetch s with
  | none => .next s
  | some (cmd, s') => runCommand cmd s'

/-- The state in which the host has issued the word `w` of `nbits` bits, so that the next step takes and
runs it (log entry 2). -/
def State.withFetchWord (s : State) (nbits w : Nat) : State :=
  s.issue (BitVec.ofNat 64 (w % 2 ^ nbits))

end Sys2Proof.Machine
end

