-- ==== Sys2Proof/Machine/Views.lean ====
section
/-! DEFINITION. What the host can read between two operations (10_state.md R34): the registers, the views
`CRCSW`, `TX10`, `HX10` (R21, R27) and the bytes `W[0..WLEN)`; and the inverse of the scaled views, by
which the host packs a reading (45_unpacker.md R184). -/

namespace Sys2Proof.Machine

/-- The view `CRCSW = x[CRC][7:0] : x[CRC][15:8]` (10_state.md R21). -/
def State.crcsw (s : State) : Half := byteSwap s.crc

/-- The view `TX10 = x[TR] - 500`, tenths of a degree Celsius (10_state.md R27, 45_unpacker.md R185). -/
def State.tx10 (s : State) : Int := (s.tr.toNat : Int) - Config.tOffsetX10

/-- The view `HX10 = x[HR]`, tenths of a percent (10_state.md R27, 45_unpacker.md R185). -/
def State.hx10 (s : State) : Nat := s.hr.toNat

/-- A number as a 12-bit field, when it fits: "Values outside those ranges do not fit 12 bits and cannot be
packed" (45_unpacker.md R184). -/
def raw12 (n : Int) : Option Raw12 :=
  if 0 ≤ n ∧ n < 4096 then some (BitVec.ofNat 12 n.toNat) else none

/-- The raw temperature field for `t` tenths of a degree: `T = t + 500`, for "-500 ≤ t ≤ 3595"
(45_unpacker.md R184). -/
def rawOfTenths (t : Int) : Option Raw12 := raw12 (t + Config.tOffsetX10)

/-- The raw humidity field for `h` tenths of a percent: `H = h`, for "0 ≤ h ≤ 4095"
(45_unpacker.md R184). -/
def rawOfPercentTenths (h : Int) : Option Raw12 := raw12 h

/-- The command that packs `t` tenths of a degree and `h` tenths of a percent; none when one of the two
does not fit, since "the command word has no room for them" (45_unpacker.md R184). -/
def packReading (e : ByteOrder) (t h : Int) : Option Instr :=
  match rawOfTenths t, rawOfPercentTenths h with
  | some traw, some hraw => some (.pckTh e traw hraw)
  | _, _ => none

/-- All the host can read: every register of 10_state.md R20, the three views and the valid bytes of
`W`. `K` is "write-only to the host" and `W` at or past `WLEN` cannot be read (R34). -/
structure HostView where
  crc : Half
  sum : Half
  tr : Raw12
  hr : Raw12
  fv : Word32
  smap : SubstMap
  plain : Bool
  err : Byte
  eop : Byte
  wlen : Index
  klen : BitVec 6
  crcsw : Half
  tx10 : Int
  hx10 : Nat
  wBytes : List Byte
  deriving DecidableEq, Repr

/-- The host's read of a state (10_state.md R34, 60_exceptions.md R235). -/
def State.observe (s : State) : HostView where
  crc := s.crc
  sum := s.sum
  tr := s.tr
  hr := s.hr
  fv := s.fv
  smap := s.smap
  plain := s.plain
  err := s.err
  eop := s.eop
  wlen := s.wlen
  klen := s.klen
  crcsw := s.crcsw
  tx10 := s.tx10
  hx10 := s.hx10
  wBytes := s.wBytes

end Sys2Proof.Machine
end

