-- ==== Sys2Proof/Machine/HostSequences.lean ====
section
/-! DEFINITION. The host's sequences over the block's commands (46_host_sequences.md R202, R203, R206;
30_encoding.md R78) and the source's functions as calls (60_exceptions.md R236, log entry 18). They
are no operations of the block: each issues command words one at a time and chooses an operand from
what it reads in between. -/

namespace Sys2Proof.Machine

/-- The host issues one command and waits for it to complete (60_exceptions.md R235). -/
def hostIssue (i : Instr) (s : State) : Out := runCommand (encode i) s

/-- The host goes on from the state a command left. -/
def thenHost (o : Out) (k : State → Out) : Out :=
  match o with
  | .next s => k s
  | .fault r => .fault r
  | .refused r => .refused r

/-- The host issues commands in order. -/
def hostIssueAll : List Instr → State → Out
  | [], s => .next s
  | i :: is, s => thenHost (hostIssue i s) (hostIssueAll is)

/-- `TLV.CHK`: "`FLD.U.LE 3, 2` ; `SUM.CHK 0, FV + 7`" (46_host_sequences.md R206). -/
def hostTlvChk (s : State) : Out :=
  thenHost (hostIssue (.fldU .little 3#24 2#24) s) fun s1 =>
  hostIssue (.sumChk 0#24 (BitVec.ofNat 24 (s1.fv.toNat + 7))) s1

/-- `LORA.CHK`: "`CRC.CHK 0, WLEN`" (46_host_sequences.md R206). -/
def hostLoraChk (s : State) : Out := hostIssue (.crcChk 0#24 s.wlen) s

/-- `FRAME.OPEN`: "`UNE.RUN` ; `AES.DECC 0, WLEN`" (46_host_sequences.md R206). -/
def hostFrameOpen (s : State) : Out :=
  thenHost (hostIssue .uneRun s) fun s1 => hostIssue (.aesDecc 0#24 s1.wlen) s1

/-- `FRAME.SEAL`: "`SUM.APP 0`" (46_host_sequences.md R206). -/
def hostFrameSeal (s : State) : Out := hostIssue (.sumApp 0#24) s

/-! ### The entry sequences (46_host_sequences.md R202, R203) -/

/-- How a decode begins (R202): "`RST` ; or BUF.CLR and ST.CLR". The rule leaves it to the host, so it is
an argument (log entry 15). -/
inductive HostStart where
  | rst
  | clear
  deriving DecidableEq, Repr

/-- The commands of a start. `ST.CLR` stands before `BUF.CLR`, which a pending error would block; `clear`
leaves the key and the data registers as they are (log entry 15). -/
def HostStart.commands : HostStart → List Instr
  | .rst => [.rst]
  | .clear => [.stClr, .bufClr]

/-- `AES.UNPAD 0` on a frame that was decrypted, when the devices pad: "a host for such frames inserts
`AES.UNPAD 0` after `AES.DECC` if its devices pad" (R202). Whether they do is open
(91_not_in_source.md N3) and an argument; the host reads `PLAIN` to learn whether the frame was
encrypted (log entry 16). -/
def hostUnpadIf (pads : Bool) (s : State) : Out :=
  if pads && !s.plain then hostIssue (.aesUnpad 0#24) s else .next s

/-- The decode sequence of 46_host_sequences.md R202 for the raw frame `raw`, begun as `start` says. The
bytes `key` are pushed onto the key the start leaves: none for a host that keeps its key or expects
a plaintext frame. Start and unpadding are the host's (log entries 15 and 16). The sequence does not
test the SOP of a decrypted frame: DESIGN CHOICE, the spec leaves either behaviour open
(91_not_in_source.md N17, log entry 19). -/
def hostDecode (start : HostStart) (pads : Bool) (raw key : List Byte) (s : State) : Out :=
  thenHost (hostIssueAll (start.commands ++ key.map .keyPush ++ raw.map .bufPush) s) fun s1 =>
  thenHost (hostFrameOpen s1) fun s2 =>
  thenHost (hostUnpadIf pads s2) hostTlvChk

/-- The commands of the encode sequence (R203): "`BUF.PUSH L mod 256` ; `BUF.PUSH L div 256`", low byte
first, and "0x32 when unset". -/
def encodeCommands (cmd : Option Byte) (p : List Byte) : List Instr :=
  [.bufClr, .bufPush 0x43#8, .bufPush 0x47#8, .bufPush (cmd.getD Config.defaultCommand),
    .bufPush (BitVec.ofNat 8 (p.length % 256)), .bufPush (BitVec.ofNat 8 (p.length / 256))] ++
  p.map .bufPush ++ [.sumApp 0#24]

/-- The encode sequence of 46_host_sequences.md R203 for the payload `p`. No frame holds a payload of more
than 65535 bytes (R201), and for one the host issues nothing: DESIGN CHOICE (log entry 17). -/
def hostEncode (cmd : Option Byte) (p : List Byte) (s : State) : Option Out :=
  if p.length ≤ Config.maxPayload then some (hostIssueAll (encodeCommands cmd p) s) else none

/-! ### The source's functions over the block (60_exceptions.md R236) -/

/-- The error whose code a byte is (60_exceptions.md R221). -/
def errOfCode (b : Byte) : Option ErrCode :=
  [ErrCode.checksumMismatch, .paddingInvalid, .bufferUnderrun, .malformedInput, .unsupportedTag,
    .cipherLengthInvalid, .bufferOverflow, .illegalCommand].find? fun e => e.code == b

/-- A failure as the host reads it (R236): "the error named by `ERR`, with `EOP` telling the stage". -/
structure HostFailure where
  error : Option ErrCode
  stage : Byte
  deriving DecidableEq, Repr

/-- The failure a state reports. -/
def hostFailure (s : State) : HostFailure where
  error := errOfCode s.err
  stage := s.eop

/-- The result of a function that returns bytes (R236): `W[0..WLEN)` when `ERR` is 0, else no data. -/
def hostResult (s : State) : Except HostFailure (List Byte) :=
  if s.err = 0#8 then .ok s.wBytes else .error (hostFailure s)

/-- The result of a check (R236): "true when `ERR` = 0, false when `ERR` = 1 (a `BufferUnderrun` is the
source's length failure)". -/
def hostVerdict (s : State) : Except HostFailure Bool :=
  if s.err = 0#8 then .ok true
  else if s.err = ErrCode.checksumMismatch.code then .ok false
  else .error (hostFailure s)

/-- How the host ends a call (R236): "the host ends with `ST.CLR` (or `RST`) before the next call". -/
inductive HostEnd where
  | stClr
  | rst
  deriving DecidableEq, Repr

/-- The command of an end. -/
def HostEnd.command : HostEnd → Instr
  | .stClr => .stClr
  | .rst => .rst

/-- A call: the sequence, the host's read, and the closing command; it answers what was read and the state
the next call starts from. -/
def hostCall {α : Type} (seq : State → Out) (result : State → α) (fin : HostEnd) (s : State) :
    Host.Outcome (α × State) Fault Refusal :=
  match seq s with
  | .fault r => .fault r
  | .refused r => .refused r
  | .next t =>
    match hostIssue fin.command t with
    | .fault r => .fault r
    | .refused r => .refused r
    | .next u => .next (result t, u)

/-- Loading `W` (40_general_ops.md R94): "`BUF.CLR` followed by one `BUF.PUSH` per byte in frame order". -/
def loadCommands (bytes : List Byte) : List Instr := .bufClr :: bytes.map .bufPush

/-- Loading the key: `KEY.CLR`, then the bytes in push order, `K[0]` first (40_general_ops.md R96). -/
def loadKeyCommands (key : List Byte) : List Instr := .keyClr :: key.map .keyPush

/-- `sum_check(frame, length) -> bool`: "load the frame, `SUM.CHK 0, length`" (R236). -/
def hostSumCheck (frame : List Byte) (length : Index) (fin : HostEnd) (s : State) :
    Host.Outcome (Except HostFailure Bool × State) Fault Refusal :=
  hostCall (hostIssueAll (loadCommands frame ++ [.sumChk 0#24 length])) hostVerdict fin s

/-- `crc16_arc(frame) -> bool`: "`CRC.CHK 0, len(frame)`" (R236); after the load `WLEN` is the frame's
length. -/
def hostCrc16 (frame : List Byte) (fin : HostEnd) (s : State) :
    Host.Outcome (Except HostFailure Bool × State) Fault Refusal :=
  hostCall (fun s => thenHost (hostIssueAll (loadCommands frame) s) hostLoraChk) hostVerdict fin s

/-- A function of bytes to bytes (R236): load `data`, one operation, result `W[0..WLEN)`. -/
def hostTransform (i : Instr) (data : List Byte) (fin : HostEnd) (s : State) :
    Host.Outcome (Except HostFailure (List Byte) × State) Fault Refusal :=
  hostCall (hostIssueAll (loadCommands data ++ [i])) hostResult fin s

/-- `pad(data)` (R236). -/
def hostPad (data : List Byte) (fin : HostEnd) (s : State) :
    Host.Outcome (Except HostFailure (List Byte) × State) Fault Refusal :=
  hostTransform (.aesPad 0#24) data fin s

/-- `unpad(data)` (R236). -/
def hostUnpad (data : List Byte) (fin : HostEnd) (s : State) :
    Host.Outcome (Except HostFailure (List Byte) × State) Fault Refusal :=
  hostTransform (.aesUnpad 0#24) data fin s

/-- The unescaper: "`UNE.RUN`, result `W[0..WLEN)`" (R236). -/
def hostUnescape (raw : List Byte) (fin : HostEnd) (s : State) :
    Host.Outcome (Except HostFailure (List Byte) × State) Fault Refusal :=
  hostTransform .uneRun raw fin s

/-- A function of one block under a key (R236): load the key and the block, one operation. R236 speaks of
exactly one block. An argument of another length is issued all the same: DESIGN CHOICE (log entry 20). With
more than 16 bytes the first 16 are replaced and the rest are answered as they were; with fewer the call
fails with `BufferUnderrun` (43_aes_cipher.md R143, R144). -/
def hostBlock (i : Instr) (block key : List Byte) (fin : HostEnd) (s : State) :
    Host.Outcome (Except HostFailure (List Byte) × State) Fault Refusal :=
  hostCall (hostIssueAll (loadKeyCommands key ++ loadCommands block ++ [i])) hostResult fin s

/-- `encrypt(plain, key)` for one block (R236); other lengths as log entry 20 says. -/
def hostEncrypt (plain key : List Byte) (fin : HostEnd) (s : State) :
    Host.Outcome (Except HostFailure (List Byte) × State) Fault Refusal :=
  hostBlock (.aesEncb 0#24) plain key fin s

/-- `decrypt(cipher, key)` for one block (R236); other lengths as log entry 20 says. -/
def hostDecrypt (block key : List Byte) (fin : HostEnd) (s : State) :
    Host.Outcome (Except HostFailure (List Byte) × State) Fault Refusal :=
  hostBlock (.aesDecb 0#24) block key fin s

/-- The decode entry point as a call (R236): "`Ok` when `ERR` = 0 at the end of the sequence, otherwise the
error named by `ERR`, with `EOP` telling the stage". A decrypted frame whose SOP is not `43 47` is `Ok`
when its checksum holds: DESIGN CHOICE (91_not_in_source.md N17, log entry 19). -/
def hostDecodeCall (start : HostStart) (pads : Bool) (raw key : List Byte) (fin : HostEnd)
    (s : State) : Host.Outcome (Except HostFailure (List Byte) × State) Fault Refusal :=
  hostCall (hostDecode start pads raw key) hostResult fin s

/-- The encode entry point as a call (R236). -/
def hostEncodeCall (cmd : Option Byte) (p : List Byte) (fin : HostEnd) (s : State) :
    Option (Host.Outcome (Except HostFailure (List Byte) × State) Fault Refusal) :=
  match hostEncode cmd p s with
  | none => none
  | some o => some (hostCall (fun _ => o) hostResult fin s)

end Sys2Proof.Machine
end

