-- ==== Sys2Proof/Safety.lean ====
section
/-! DEFINITION. What counts as a legal state of the block, which errors and registers each operation may touch,
and when two states cannot be told apart: the terms the claims use. -/

namespace Sys2Proof.Machine

/-! ### Legal states -/

/-- The lengths (10_state.md R29: "0 ≤ `WLEN` ≤ `WCAP`", "0 ≤ `KLEN` ≤ 32"; 00_scope.md R7: 1 ≤ `WCAP`). -/
abbrev State.LengthsOk (s : State) : Prop :=
  1 ≤ s.wcap.toNat ∧ s.wlen.toNat ≤ s.wcap.toNat ∧ s.klen.toNat ≤ Config.kcap

/-- The map (10_state.md R26: "no two valid entries have the same `MK` value"). -/
abbrev State.MapOk (s : State) : Prop := s.smap.distinct = true

/-- The status registers (10_state.md R25: `EOP` is "0 when `ERR` = 0"; 60_exceptions.md R221: "Codes 9
to 255 never occur", and code 5 is "never raised by the block"). -/
abbrev State.StatusOk (s : State) : Prop :=
  s.err.toNat ≤ 8 ∧ s.err ≠ 5#8 ∧ (s.err = 0#8 → s.eop = 0#8)

/-- The memories are in canonical form and hold no cell outside `W[0..WCAP)` and `K[0..32)`
(20_memory.md R50, R51). -/
abbrev State.MemoryOk (s : State) : Prop :=
  s.w.wf = true ∧ s.k.wf = true ∧ s.w.below s.wcap.toNat = true ∧ s.k.below Config.kcap = true

/-- The states that runs from reset can reach satisfy this invariant. -/
abbrev State.Inv (s : State) : Prop := s.LengthsOk ∧ s.MapOk ∧ s.StatusOk ∧ s.MemoryOk

/-! ### Errors per operation -/

/-- The errors an operation can raise (60_exceptions.md R222). -/
def errorsOf : Instr → List ErrCode
  | .nop | .rst | .stClr | .bufClr | .keyClr | .sumClr | .sumByte _ => []
  | .crcInit | .crcByte _ | .uneClr => []
  | .bufPush _ | .keyPush _ => [.bufferOverflow]
  | .sumRng _ _ | .crcRng _ _ | .uneSub _ _ => [.bufferUnderrun]
  | .sumChk _ _ | .crcChk _ _ => [.bufferUnderrun, .checksumMismatch]
  | .sumApp _ | .crcApp _ | .aesPad _ => [.bufferUnderrun, .bufferOverflow]
  | .aesEncb _ | .aesDecb _ | .aesEnc _ _ | .aesDec _ _ => [.cipherLengthInvalid, .bufferUnderrun]
  | .aesUnpad _ => [.bufferUnderrun, .paddingInvalid]
  | .mrkTst _ => [.bufferUnderrun]
  | .aesDecc _ _ => [.bufferUnderrun, .cipherLengthInvalid]
  | .uneMap _ | .uneRun => [.bufferUnderrun, .malformedInput]
  | .unpTh _ _ => [.bufferUnderrun]
  | .pckTh _ _ _ => [.bufferOverflow]
  | .fldU _ _ _ | .fldS _ _ _ => [.bufferUnderrun]

/-! ### Writes per operation -/

/-- The registers and buffers of 10_state.md R20 an operation may write besides `ERR` and `EOP`; `TR` and
`HR` go together (R27), and so do `MV` and `MK` (R26). -/
inductive Target where
  | crc
  | sum
  | trHr
  | fv
  | map
  | plain
  | wlen
  | klen
  | wMem
  | kMem
  deriving DecidableEq, Repr

/-- The "writes" column of 10_state.md R33. -/
def writesOf : Instr → List Target
  | .nop | .stClr => []
  | .rst => [.crc, .sum, .trHr, .fv, .map, .plain, .wlen, .klen]
  | .bufClr | .aesUnpad _ => [.wlen]
  | .bufPush _ | .aesPad _ | .pckTh _ _ _ | .uneRun => [.wMem, .wlen]
  | .keyClr => [.klen]
  | .keyPush _ => [.kMem, .klen]
  | .sumClr | .sumByte _ | .sumRng _ _ | .sumChk _ _ => [.sum]
  | .sumApp _ => [.wMem, .wlen, .sum]
  | .crcInit | .crcByte _ | .crcRng _ _ | .crcChk _ _ => [.crc]
  | .crcApp _ => [.wMem, .wlen, .crc]
  | .aesEncb _ | .aesDecb _ | .aesEnc _ _ | .aesDec _ _ | .uneSub _ _ => [.wMem]
  | .mrkTst _ => [.plain]
  | .aesDecc _ _ => [.plain, .wMem]
  | .uneClr | .uneMap _ => [.map]
  | .unpTh _ _ => [.trHr]
  | .fldU _ _ _ | .fldS _ _ _ => [.fv]

/-- The target has the same contents in both states; for a memory, every byte reads the same. -/
def sameTarget (s t : State) : Target → Prop
  | .crc => t.crc = s.crc
  | .sum => t.sum = s.sum
  | .trHr => t.tr = s.tr ∧ t.hr = s.hr
  | .fv => t.fv = s.fv
  | .map => t.smap = s.smap
  | .plain => t.plain = s.plain
  | .wlen => t.wlen = s.wlen
  | .klen => t.klen = s.klen
  | .wMem => ∀ a, t.w.read a = s.w.read a
  | .kMem => ∀ a, t.k.read a = s.k.read a

/-! ### States that cannot be told apart -/

/-- Two states that differ at most in the bytes of `W` at or past `WLEN` and of `K` at or past `KLEN`,
which "are not observable" (20_memory.md R52). -/
abbrev SameButStale (s t : State) : Prop :=
  { t with w := s.w, k := s.k } = s ∧ t.wBytes = s.wBytes ∧ t.kBytes = s.kBytes

/-- Two states that differ at most in the bytes of `K`. -/
abbrev SameButKeyBytes (s t : State) : Prop := { t with k := s.k } = s

/-- Two outcomes of the same kind, related states for two next states, the same reason for two stops. -/
def outcomeRel (R : State → State → Prop) : Out → Out → Prop
  | .next s, .next t => R s t
  | .fault a, .fault b => a = b
  | .refused a, .refused b => a = b
  | _, _ => False

/-- The operations that read the bytes of `K`: "read only by the cipher operations" (20_memory.md R51). -/
def readsKey : Instr → Bool
  | .aesEncb _ | .aesDecb _ | .aesEnc _ _ | .aesDec _ _ | .aesDecc _ _ => true
  | .nop | .rst | .stClr | .bufClr | .bufPush _ | .keyClr | .keyPush _ => false
  | .sumClr | .sumByte _ | .sumRng _ _ | .sumChk _ _ | .sumApp _ => false
  | .crcInit | .crcByte _ | .crcRng _ _ | .crcChk _ _ | .crcApp _ => false
  | .aesPad _ | .aesUnpad _ | .mrkTst _ => false
  | .uneClr | .uneMap _ | .uneSub _ _ | .uneRun => false
  | .unpTh _ _ | .pckTh _ _ _ | .fldU _ _ _ | .fldS _ _ _ => false

/-! ### The opcode table -/

/-- Rows of spec/opcode_table.json: `match`, `mask`, and whether the row is of format MR. Housekeeping and
sum-check rows. -/
def tableRowsLow : List (CmdWord × CmdWord × Bool) :=
  [(0x0000000000000000#64, 0xFFFFFFFFFFFFFFFF#64, false),
   (0x0100000000000000#64, 0xFFFFFFFFFFFFFFFF#64, false),
   (0x0200000000000000#64, 0xFFFFFFFFFFFFFFFF#64, false),
   (0x0300000000000000#64, 0xFFFFFFFFFFFFFFFF#64, false),
   (0x0400000000000000#64, 0xFFFFFFFFFFFFFF00#64, false),
   (0x0600000000000000#64, 0xFFFFFFFFFFFFFFFF#64, false),
   (0x0700000000000000#64, 0xFFFFFFFFFFFFFF00#64, false),
   (0x1000000000000000#64, 0xFFFFFFFFFFFFFFFF#64, false),
   (0x1100000000000000#64, 0xFFFFFFFFFFFFFF00#64, false),
   (0x1200000000000000#64, 0xFFFF000000000000#64, false),
   (0x1300000000000000#64, 0xFFFF000000000000#64, false),
   (0x1400000000000000#64, 0xFFFFFFFFFF000000#64, false)]

/-- The rows of the CRC-16 and cipher units. -/
def tableRowsMid : List (CmdWord × CmdWord × Bool) :=
  [(0x2000000000000000#64, 0xFFFFFFFFFFFFFFFF#64, false),
   (0x2100000000000000#64, 0xFFFFFFFFFFFFFF00#64, false),
   (0x2200000000000000#64, 0xFFFF000000000000#64, false),
   (0x2300000000000000#64, 0xFFFF000000000000#64, false),
   (0x2400000000000000#64, 0xFFFFFFFFFF000000#64, false),
   (0x3000000000000000#64, 0xFFFFFFFFFF000000#64, false),
   (0x3100000000000000#64, 0xFFFFFFFFFF000000#64, false),
   (0x3200000000000000#64, 0xFFFF000000000000#64, false),
   (0x3300000000000000#64, 0xFFFF000000000000#64, false),
   (0x3400000000000000#64, 0xFFFFFFFFFF000000#64, false),
   (0x3500000000000000#64, 0xFFFFFFFFFF000000#64, false),
   (0x3600000000000000#64, 0xFFFFFFFFFF000000#64, false),
   (0x3700000000000000#64, 0xFFFF000000000000#64, false)]

/-- The rows of the unescaper and the unpacker. -/
def tableRowsHigh : List (CmdWord × CmdWord × Bool) :=
  [(0x4000000000000000#64, 0xFFFFFFFFFFFFFFFF#64, false),
   (0x4100000000000000#64, 0xFFFFFFFFFF000000#64, false),
   (0x4200000000000000#64, 0xFFFF000000000000#64, false),
   (0x4300000000000000#64, 0xFFFFFFFFFFFFFFFF#64, false),
   (0x5000000000000000#64, 0xFFFEFFFFFF000000#64, false),
   (0x5100000000000000#64, 0xFFFE000000FFFFFF#64, false),
   (0x5200000000000000#64, 0xFFFE000000000000#64, true),
   (0x5300000000000000#64, 0xFFFE000000000000#64, true)]

/-- "a word `cmd` is that operation exactly when `cmd & mask = match`, and for the two format-MR rows also
`len` is 1 to 4" (30_encoding.md, its opening). -/
def acceptsRow (row : CmdWord × CmdWord × Bool) (cmd : CmdWord) : Prop :=
  cmd &&& row.2.1 = row.1 ∧
    (row.2.2 = true → 1 ≤ (cmd.toNat / 2 ^ 24) % 2 ^ 24 ∧ (cmd.toNat / 2 ^ 24) % 2 ^ 24 ≤ 4)

/-! ### Words the claims use -/

/-- The exact sum of a byte sequence, each byte an unsigned integer (41_sum_check.md R100). -/
def byteSum (bytes : List Byte) : Nat := (bytes.map BitVec.toNat).sum

/-- Every byte of `W` outside the `n` bytes from index `a` is unchanged. -/
abbrev StoresOnlyIn (s t : State) (a n : Nat) : Prop :=
  ∀ b, (b < a ∨ a + n ≤ b) → t.w.read b = s.w.read b

/-- `t` has `bytes` after the valid bytes of `s`, and no byte of `W` is stored to but theirs. -/
abbrev AppendsToW (s t : State) (bytes : List Byte) : Prop :=
  t.wBytes = s.wBytes ++ bytes ∧ StoresOnlyIn s t s.wlen.toNat bytes.length

/-- The valid bytes `W[off..off+len)`. -/
def State.range (s : State) (off len : Nat) : List Byte := (s.wBytes.drop off).take len

/-- The value of the `n` bytes of `W` at `off` in the byte order `e`, written as the sum of its digits
(30_encoding.md R73). -/
def fieldValue (s : State) (e : ByteOrder) (off n : Nat) : Nat :=
  ((List.range n).map fun i =>
    (s.w.read (off + i)).toNat * 256 ^ (match e with | .big => n - 1 - i | .little => i)).sum

/-- The operations that implement a whole function of the source: each "computes its result from the
buffer contents and the command alone" (10_state.md, its opening). -/
def wholeFunction : Instr → Bool
  | .sumChk _ _ | .sumApp _ | .crcChk _ _ | .crcApp _ => true
  | .aesEncb _ | .aesDecb _ | .aesEnc _ _ | .aesDec _ _ => true
  | .aesPad _ | .aesUnpad _ | .aesDecc _ _ | .uneRun => true
  | .unpTh _ _ | .fldU _ _ _ | .fldS _ _ _ => true
  | .nop | .rst | .stClr | .bufClr | .bufPush _ | .keyClr | .keyPush _ => false
  | .sumClr | .sumByte _ | .sumRng _ _ | .crcInit | .crcByte _ | .crcRng _ _ => false
  | .mrkTst _ | .uneClr | .uneMap _ | .uneSub _ _ | .pckTh _ _ _ => false

/-- Two states that differ at most in the data registers, the map and the flag. -/
abbrev SameButData (s t : State) : Prop :=
  { t with
    crc := s.crc, sum := s.sum, tr := s.tr, hr := s.hr, fv := s.fv, smap := s.smap
    plain := s.plain } = s

/-! ### The algorithm of `unescape`, step by step (44_unescaper.md R165) -/

/-- Step 1: `b` is the buffer the later steps see of `raw`. Of a doubled first `27` exactly one byte is
dropped, once ("`27 27 27 …` loses one byte"). -/
abbrev AfterStepOne (raw b : List Byte) : Prop :=
  (raw = b ∧ b.take 2 ≠ [0x27#8, 0x27#8]) ∨ (raw = 0x27#8 :: b ∧ b.take 1 = [0x27#8])

/-- Two valid keys of three are equal: "If two valid entries have the same key byte the map is not a
function" (R163). -/
abbrev DuplicateKey (k0 k1 k2 : Byte) : Prop :=
  (k0 ≠ 0x43#8 ∧ (k0 = k1 ∨ k0 = k2)) ∨ (k1 ≠ 0x43#8 ∧ k1 = k2)

/-- The fragment is too short for its length byte or for the content it declares (R165, step 3). -/
abbrev FragmentShort (f : List Byte) : Prop :=
  f.length < 3 ∨ f.length < 3 + (f.getD 2 0#8).toNat

/-- Step 3 on the fragment `f` after `prev` outputs `out`: its `L` content bytes under the map of `prev`. -/
def FragmentGives (prev f out : List Byte) : Prop :=
  ∃ m : SubstMap, keyOfFragment prev = .ok m ∧ ¬FragmentShort f ∧
    out = ((f.drop 3).take (f.getD 2 0#8).toNat).map fun b =>
      if m.e0.valid = true ∧ m.e0.key = b then 0x1A#8
      else if m.e1.valid = true ∧ m.e1.key = b then 0x1B#8
      else if m.e2.valid = true ∧ m.e2.key = b then 0x08#8
      else b

/-- Step 3 on the fragment `f` after `prev` fails with `e`: "the previous fragment's key is examined before
the fragment's own length" (R169). -/
def FragmentFails (prev f : List Byte) (e : ErrCode) : Prop :=
  keyOfFragment prev = .error e ∨
    ((∃ m, keyOfFragment prev = .ok m) ∧ FragmentShort f ∧ e = .bufferUnderrun)

/-! ### The rules of the cipher, on bytes and words (43_aes_cipher.md R132 to R137) -/

/-- The layout and the round transformations on the bytes `r + 4c` (R132, R136), and the S-box as the affine
image of the inverse (R134). -/
def RoundTransformationsRule : Prop :=
  (∀ block : List Byte, block.length = 16 → bytesOfState (stateOfBytes block) = block) ∧
  (∀ b : Byte, ∃ a : Byte, ((a = 0#8 ∧ b = 0#8) ∨ gfMul a b = 1#8) ∧
    sbox a = b ^^^ b.rotateLeft 1 ^^^ b.rotateLeft 2 ^^^ b.rotateLeft 3 ^^^ b.rotateLeft 4 ^^^ 0x63#8) ∧
  ∀ (s rk : AesState) (r c : Nat), r < 4 → c < 4 →
    (bytesOfState (subBytes s)).getD (r + 4 * c) 0#8 =
      sbox ((bytesOfState s).getD (r + 4 * c) 0#8) ∧
    (bytesOfState (shiftRows s)).getD (r + 4 * c) 0#8 =
      (bytesOfState s).getD (r + 4 * ((c + r) % 4)) 0#8 ∧
    (bytesOfState (mixColumns s)).getD (r + 4 * c) 0#8 =
      xtime ((bytesOfState s).getD (r + 4 * c) 0#8) ^^^
      (xtime ((bytesOfState s).getD ((r + 1) % 4 + 4 * c) 0#8) ^^^
        (bytesOfState s).getD ((r + 1) % 4 + 4 * c) 0#8) ^^^
      (bytesOfState s).getD ((r + 2) % 4 + 4 * c) 0#8 ^^^
      (bytesOfState s).getD ((r + 3) % 4 + 4 * c) 0#8 ∧
    (bytesOfState (addRoundKey rk s)).getD (r + 4 * c) 0#8 =
      (bytesOfState s).getD (r + 4 * c) 0#8 ^^^ (bytesOfState rk).getD (r + 4 * c) 0#8

/-- `ws` is the key schedule of `key` (R133, R135): its length, the key's own words, and the recurrence with
`RotWord`, `SubWord` and the round constants written out. -/
def KeyScheduleRule (key : List Byte) (ws : List AesWord) : Prop :=
  ∀ nk, nk = key.length / 4 → ws.length = 4 * (nk + 7) ∧
    (∀ i, i < nk → ws.getD i zeroWord =
      AesWord.mk (key.getD (4 * i) 0#8) (key.getD (4 * i + 1) 0#8) (key.getD (4 * i + 2) 0#8)
        (key.getD (4 * i + 3) 0#8)) ∧
    ∀ i p, nk ≤ i → i < 4 * (nk + 7) → p = ws.getD (i - 1) zeroWord →
      ws.getD i zeroWord = xorWord (ws.getD (i - nk) zeroWord)
        (if i % nk = 0 then
          AesWord.mk
            (sbox p.a1 ^^^ [0x01#8, 0x02#8, 0x04#8, 0x08#8, 0x10#8, 0x20#8, 0x40#8, 0x80#8, 0x1B#8,
              0x36#8].getD (i / nk - 1) 0#8)
            (sbox p.a2) (sbox p.a3) (sbox p.a0)
        else if nk = 8 ∧ i % nk = 4 then AesWord.mk (sbox p.a0) (sbox p.a1) (sbox p.a2) (sbox p.a3)
        else p)

/-- `out` is `block` after the rounds of R137 under the schedule `ws` with `nr` rounds: `st r` is the state
after the `AddRoundKey` of round `r`, whose key is the four words `w[4r] … w[4r+3]`. -/
def RoundsRule (ws : List AesWord) (nr : Nat) (block out : List Byte) : Prop :=
  ∃ st rk : Nat → AesState,
    (∀ r, rk r = AesState.mk (ws.getD (4 * r) zeroWord) (ws.getD (4 * r + 1) zeroWord)
      (ws.getD (4 * r + 2) zeroWord) (ws.getD (4 * r + 3) zeroWord)) ∧
    st 0 = addRoundKey (rk 0) (stateOfBytes block) ∧
    (∀ r, r + 1 < nr → st (r + 1) =
      addRoundKey (rk (r + 1)) (mixColumns (shiftRows (subBytes (st r))))) ∧
    out = bytesOfState (addRoundKey (rk nr) (shiftRows (subBytes (st (nr - 1)))))

end Sys2Proof.Machine
end

