-- ==== Sys2Proof/Certificates/Slice0/Obligations.lean ====
section
/-! DEFINITION. The statements for the provers. Each docstring names the rule of spec/ it formalises. A state is
written after an operation as the state before with the fields that change, so every other field is
unchanged; where `W` changes, its bytes are said one by one or as the valid bytes. -/

open Sys2Proof Sys2Proof.Machine

/-! ## Reset, dispatch and the error state -/

/-- R32 and R91: the reset column of R20 after power-on reset and after `RST`, with both buffers empty; by
R241 the bytes of `W` and `K` keep what they held. That `RST` keeps `wcap` and the commands still to
be taken is the model's choice (log entry 3). -/
def Obligations.ResetAndRstGiveTheResetColumn : Prop :=
  (State.reset.crc = 0xFFFF#16 ∧ State.reset.sum = 0#16 ∧ State.reset.tr = 0#12 ∧
    State.reset.hr = 0#12 ∧ State.reset.fv = 0#32 ∧ State.reset.smap = SubstMap.cleared ∧
    State.reset.plain = false ∧ State.reset.err = 0#8 ∧ State.reset.eop = 0#8 ∧
    State.reset.wlen = 0#24 ∧ State.reset.klen = 0#6 ∧
    State.reset.wBytes = [] ∧ State.reset.kBytes = []) ∧
  ∀ s : State, ∃ t, exec .rst s = .next t ∧
    t = { State.reset with w := s.w, k := s.k, wcap := s.wcap, cmds := s.cmds } ∧
    t.wBytes = [] ∧ t.kBytes = []

/-- The invariant holds at reset, whatever positive capacity the block has (the capacity at reset is the
model's choice, log entry 1, so the statement is for every value of it). -/
def Obligations.InvariantHoldsAtReset : Prop :=
  ∀ cap : Index, 1 ≤ cap.toNat → State.Inv { State.reset with wcap := cap }

/-- Every step keeps the invariant (R25, R26, R29, R50, R51, R221) and the capacity, from every state that
meets it. -/
def Obligations.EveryStepKeepsTheInvariant : Prop :=
  ∀ s t : State, s.Inv → step s = .next t → t.Inv ∧ t.wcap = s.wcap

/-- R17: "The block has no hang and no stuck state": from every state that meets the invariant, with
whatever commands the host has issued, every number of steps goes on, and the invariant holds
there. -/
def Obligations.NoRunFromALegalStateStops : Prop :=
  ∀ (n : Nat) (s : State), s.Inv →
    ∃ t : State, Sys2Proof.core.run n s = .next t ∧ t.Inv

/-- A step takes the host's next word; when no error is pending and it decodes, the step is `exec` of the
decoded, well-formed instruction on the state without that word; with no word issued the state is
held (R224, R234). -/
def Obligations.StepRunsTheDecodedCommand : Prop :=
  (∀ (s : State) (cmd : CmdWord) (rest : List CmdWord) (i : Instr),
    s.cmds = cmd :: rest → s.err = 0#8 → decode cmd = .ok i →
      i.WellFormed ∧ step s = exec i { s with cmds := rest }) ∧
  ∀ s : State, s.cmds = [] → step s = .next s

/-- R224, the dispatch in its order: while an error is pending the two clearing words execute and every
other word, legal or illegal, is ignored; else an illegal word raises `IllegalCommand` with its top
byte; else the operation executes. By R241 `RST` keeps the bytes of `W` and `K`. That it keeps `wcap`
and the words not yet taken is the model's choice (log entry 3), as is the list of words from which
a step takes the first (log entry 2). -/
def Obligations.DispatchFollowsItsOrder : Prop :=
  ∀ (s : State) (cmd : CmdWord) (rest : List CmdWord), s.cmds = cmd :: rest →
    (s.err ≠ 0#8 →
      (cmd = 0x0100000000000000#64 → step s = .next
        { State.reset with w := s.w, k := s.k, wcap := s.wcap, cmds := rest }) ∧
      (cmd = 0x0200000000000000#64 →
        step s = .next { s with err := 0#8, eop := 0#8, cmds := rest }) ∧
      (cmd ≠ 0x0100000000000000#64 → cmd ≠ 0x0200000000000000#64 →
        step s = .next { s with cmds := rest })) ∧
    (s.err = 0#8 →
      ((∀ i, decode cmd ≠ .ok i) → step s = .next
        { s with err := 8#8, eop := BitVec.ofNat 8 (cmd.toNat / 2 ^ 56), cmds := rest }) ∧
      ∀ i, decode cmd = .ok i → step s = exec i { s with cmds := rest })

/-- R224: while an error is pending, any sequence of words without the two clearing words changes nothing
at all: "every later step is a no-op". -/
def Obligations.BlockedSequencesChangeNothing : Prop :=
  ∀ (l : List CmdWord) (s : State), s.err ≠ 0#8 →
    (∀ w ∈ l, w ≠ 0x0100000000000000#64 ∧ w ≠ 0x0200000000000000#64) →
      Sys2Proof.core.run l.length ({ s with cmds := l } : State)
        = .next ({ s with cmds := [] } : State)

/-- R223: a raise, by an operation or by an illegal word, writes the code of its error to `ERR` and
`cmd[63:56]` to `EOP`, and "no other register or buffer byte changes"; the codes of R221. -/
def Obligations.ARaiseChangesOnlyErrAndEop : Prop :=
  (∀ (i : Instr) (s t : State), s.err = 0#8 → exec i s = .next t → t.err ≠ 0#8 →
    ∃ e : ErrCode, t = { s with err := e.code, eop := (encode i).extractLsb' 56 8 }) ∧
  (∀ (cmd : CmdWord) (s : State), s.err = 0#8 → (∀ i, decode cmd ≠ .ok i) →
    runCommand cmd s =
      .next { s with err := ErrCode.illegalCommand.code, eop := cmd.extractLsb' 56 8 }) ∧
  ErrCode.checksumMismatch.code = 1#8 ∧ ErrCode.paddingInvalid.code = 2#8 ∧
  ErrCode.bufferUnderrun.code = 3#8 ∧ ErrCode.malformedInput.code = 4#8 ∧
  ErrCode.unsupportedTag.code = 5#8 ∧ ErrCode.cipherLengthInvalid.code = 6#8 ∧
  ErrCode.bufferOverflow.code = 7#8 ∧ ErrCode.illegalCommand.code = 8#8

/-- R222: an operation raises only the errors the table lists for it, and one that raises none leaves
`ERR` and `EOP` as they were. -/
def Obligations.OperationsRaiseOnlyTheirListedErrors : Prop :=
  ∀ (i : Instr) (s t : State), i.WellFormed → s.err = 0#8 → exec i s = .next t →
    (t.err ≠ 0#8 → ∃ e ∈ errorsOf i, t.err = e.code) ∧
    (t.err = 0#8 → i ≠ .rst → i ≠ .stClr → t.eop = s.eop)

/-- The writes column of R33: a register or memory that the column does not list for an operation is
unchanged, byte by byte for a memory; for `RST` that the bytes of `W` and `K` are unchanged is R241.
The clause that no operation, `RST` included, writes the capacity or the commands still to be taken
is the model's choice (log entries 1 to 3). -/
def Obligations.OperationsWriteOnlyTheirListedTargets : Prop :=
  ∀ (i : Instr) (s t : State), exec i s = .next t →
    (∀ g : Target, g ∉ writesOf i → sameTarget s t g) ∧ t.wcap = s.wcap ∧ t.cmds = s.cmds

/-- The opening of 10_state.md: a whole-function operation reads no data register, map or flag left by an
earlier operation: from states that differ only in those, it leaves the same `W`, `WLEN`, `ERR` and
`EOP`, and when it raises nothing the same contents of everything it writes. -/
def Obligations.WholeFunctionsIgnoreTheDataRegisters : Prop :=
  ∀ (i : Instr) (s s' : State), wholeFunction i = true → s.err = 0#8 → SameButData s s' →
    outcomeRel (fun t t' => t'.w = t.w ∧ t'.wlen = t.wlen ∧ t'.err = t.err ∧ t'.eop = t.eop ∧
      (t.err = 0#8 → ∀ g ∈ writesOf i, sameTarget t t' g)) (exec i s) (exec i s')

/-- R52: the bytes of `W` at or past `WLEN` and of `K` at or past `KLEN` are not observable: from two
states that differ only there, a step ends alike, the host reads the same before and after, and the
next states again differ only there. -/
def Obligations.StaleBytesAreNotObservable : Prop :=
  ∀ s t : State, s.MemoryOk → t.MemoryOk → SameButStale s t →
    s.observe = t.observe ∧ outcomeRel SameButStale (step s) (step t)

/-- R51 and R34: the bytes of `K` are read only by the cipher operations and never by the host: from two
states that differ only in them the host reads the same, and every other operation ends alike in
states that again differ only in them. -/
def Obligations.KeyBytesReachOnlyTheCipher : Prop :=
  ∀ s t : State, SameButKeyBytes s t → s.observe = t.observe ∧
    ∀ i : Instr, readsKey i = false → outcomeRel SameButKeyBytes (exec i s) (exec i t)

/-- The model's own stops (log entry 6), each in a state whose length register exceeds the capacity: an
access past the capacity that the length check let through, and a key byte past index 31. -/
def Obligations.IndicesOutsideTheMemoriesFault : Prop :=
  ∀ (s : State) (off len : Index) (e : ByteOrder) (imm : Byte),
    (s.wcap.toNat < off.toNat + len.toNat → off.toNat + len.toNat ≤ s.wlen.toNat →
      (∀ i ∈ [Instr.sumRng off len, .crcRng off len, .crcChk off len, .uneSub off len],
        exec i s = .fault (.outsideWorkingBuffer off.toNat len.toNat)) ∧
      (legalWidth len = true → ∀ i ∈ [Instr.fldU e off len, .fldS e off len],
        exec i s = .fault (.outsideWorkingBuffer off.toNat len.toNat)) ∧
      (2 ≤ len.toNat → ∃ r, exec (.sumChk off len) s = .fault r) ∧
      ((s.klen.toNat = 16 ∨ s.klen.toNat = 32) → len.toNat % 16 = 0 →
        ∀ i ∈ [Instr.aesEnc off len, .aesDec off len],
          exec i s = .fault (.outsideWorkingBuffer off.toNat len.toNat)) ∧
      ((s.klen.toNat = 16 ∨ s.klen.toNat = 32) → len.toNat % 16 = 0 → 2 ≤ len.toNat →
        ¬(s.w.read off.toNat = 0x43#8 ∧ s.w.read (off.toNat + 1) = 0x47#8) →
          ∃ r, exec (.aesDecc off len) s = .fault r)) ∧
    (s.wcap.toNat < off.toNat + 16 → off.toNat + 16 ≤ s.wlen.toNat →
      (s.klen.toNat = 16 ∨ s.klen.toNat = 32) → ∀ i ∈ [Instr.aesEncb off, .aesDecb off],
        exec i s = .fault (.outsideWorkingBuffer off.toNat 16)) ∧
    (s.wcap.toNat < off.toNat + 3 → off.toNat + 3 ≤ s.wlen.toNat →
      ∀ i ∈ [Instr.uneMap off, .unpTh e off],
        exec i s = .fault (.outsideWorkingBuffer off.toNat 3)) ∧
    (s.wcap.toNat < off.toNat + 2 → off.toNat + 2 ≤ s.wlen.toNat →
      exec (.mrkTst off) s = .fault (.outsideWorkingBuffer off.toNat 2)) ∧
    (s.wcap.toNat < s.wlen.toNat →
      exec .uneRun s = .fault (.outsideWorkingBuffer 0 s.wlen.toNat) ∧
      (off.toNat < s.wlen.toNat →
        exec (.aesUnpad off) s = .fault (.outsideWorkingBuffer (s.wlen.toNat - 1) 1))) ∧
    (32 < s.klen.toNat →
      exec (.keyPush imm) s = .fault (.outsideKeyBuffer s.klen.toNat))

/-! ## Encoding -/

/-- R70, R71 and R74: the word of each operation as a number: its opcode in bits 63:56, the byte-order
select in bit 48 and each operand where its format has it, every other bit 0. -/
def Obligations.WordsAreTheirFields : Prop :=
  ∀ (imm : Byte) (off len : Index) (t h : Raw12),
    (∀ p ∈ [(Instr.nop, 0x00), (.rst, 0x01), (.stClr, 0x02), (.bufClr, 0x03), (.keyClr, 0x06),
        (.sumClr, 0x10), (.crcInit, 0x20), (.uneClr, 0x40), (.uneRun, 0x43)],
      (encode p.1).toNat = p.2 * 2 ^ 56) ∧
    (∀ p ∈ [(Instr.bufPush imm, 0x04), (.keyPush imm, 0x07), (.sumByte imm, 0x11),
        (.crcByte imm, 0x21)],
      (encode p.1).toNat = p.2 * 2 ^ 56 + imm.toNat) ∧
    (∀ p ∈ [(Instr.sumApp off, 0x14), (.crcApp off, 0x24), (.aesEncb off, 0x30),
        (.aesDecb off, 0x31), (.aesPad off, 0x34), (.aesUnpad off, 0x35), (.mrkTst off, 0x36),
        (.uneMap off, 0x41)],
      (encode p.1).toNat = p.2 * 2 ^ 56 + off.toNat) ∧
    (∀ p ∈ [(Instr.sumRng off len, 0x12), (.sumChk off len, 0x13), (.crcRng off len, 0x22),
        (.crcChk off len, 0x23), (.aesEnc off len, 0x32), (.aesDec off len, 0x33),
        (.aesDecc off len, 0x37), (.uneSub off len, 0x42)],
      (encode p.1).toNat = p.2 * 2 ^ 56 + len.toNat * 2 ^ 24 + off.toNat) ∧
    ∀ e ∈ [(ByteOrder.big, 0), (.little, 1)],
      (encode (.unpTh e.1 off)).toNat = 0x50 * 2 ^ 56 + e.2 * 2 ^ 48 + off.toNat ∧
      (encode (.pckTh e.1 t h)).toNat =
        0x51 * 2 ^ 56 + e.2 * 2 ^ 48 + t.toNat * 2 ^ 36 + h.toNat * 2 ^ 24 ∧
      (encode (.fldU e.1 off len)).toNat =
        0x52 * 2 ^ 56 + e.2 * 2 ^ 48 + len.toNat * 2 ^ 24 + off.toNat ∧
      (encode (.fldS e.1 off len)).toNat =
        0x53 * 2 ^ 56 + e.2 * 2 ^ 48 + len.toNat * 2 ^ 24 + off.toNat

/-- R70 to R74: the decoder reads every well-formed instruction back from its word, with every operand at
every value its field admits. -/
def Obligations.DecodeReadsBackEveryEncoding : Prop :=
  ∀ i : Instr, i.WellFormed → decode (encode i) = .ok i

/-- R75: each word is at most one legal command: a word that decodes is the word of the well-formed
instruction it decodes to, so no bit of it is dropped. -/
def Obligations.EncodeRebuildsEveryLegalWord : Prop :=
  ∀ (cmd : CmdWord) (i : Instr), decode cmd = .ok i → i.WellFormed ∧ encode i = cmd

/-- The opening of 30_encoding.md and R75: a word is legal exactly when some row of the opcode table
accepts it by its match and mask, and, for format MR, its `len`. -/
def Obligations.LegalWordsAreThoseTheTableAccepts : Prop :=
  ∀ cmd : CmdWord, (∃ i, decode cmd = .ok i) ↔
    ∃ row ∈ tableRowsLow ++ tableRowsMid ++ tableRowsHigh, acceptsRow row cmd

/-- Some words of the encoding examples of 30_encoding.md, section 7, legal and illegal. -/
def Obligations.ExampleWordsDecodeAsListed : Prop :=
  decode 0x0400000000000047#64 = .ok (.bufPush 0x47#8) ∧
  decode 0x1300000007000000#64 = .ok (.sumChk 0#24 7#24) ∧
  decode 0x2300000029000000#64 = .ok (.crcChk 0#24 41#24) ∧
  decode 0x3700000010000000#64 = .ok (.aesDecc 0#24 16#24) ∧
  decode 0x4100000000000003#64 = .ok (.uneMap 3#24) ∧
  decode 0x51002FF2F5000000#64 = .ok (.pckTh .big 0x2FF#12 0x2F5#12) ∧
  decode 0x5201000002000003#64 = .ok (.fldU .little 3#24 2#24) ∧
  decode 0x0500000000000000#64 = .error .unassignedOpcode ∧
  decode 0x0000000000000001#64 = .error .unusedFieldNotZero ∧
  decode 0x5200000005000000#64 = .error .widthNotLegal

/-! ## Housekeeping -/

/-- R90, R92, R93, R95, R101, R112, R166: what the operations without operands that only clear something
do, on every state. -/
def Obligations.ClearingOperationsClearOneThing : Prop :=
  ∀ s : State,
    exec .nop s = .next s ∧
    exec .stClr s = .next { s with err := 0#8, eop := 0#8 } ∧
    exec .bufClr s = .next { s with wlen := 0#24 } ∧
    exec .keyClr s = .next { s with klen := 0#6 } ∧
    exec .sumClr s = .next { s with sum := 0#16 } ∧
    exec .crcInit s = .next { s with crc := 0xFFFF#16 } ∧
    exec .uneClr s = .next { s with smap :=
      { e0 := { valid := false, key := 0#8 }, e1 := { valid := false, key := 0#8 },
        e2 := { valid := false, key := 0#8 } } }

/-- R94: `BUF.PUSH` appends its byte at index `WLEN`, or raises `BufferOverflow` when the buffer is full. -/
def Obligations.BufPushAppendsItsByte : Prop :=
  ∀ (imm : Byte) (s : State), s.Inv →
    (s.wlen.toNat < s.wcap.toNat → ∃ t, exec (.bufPush imm) s = .next t ∧
      t = { s with w := t.w, wlen := s.wlen + 1#24 } ∧ AppendsToW s t [imm]) ∧
    (s.wlen.toNat = s.wcap.toNat →
      exec (.bufPush imm) s = .next { s with err := 7#8, eop := 0x04#8 })

/-- R96: `KEY.PUSH` appends its byte at index `KLEN` of `K` and stores to no other byte, or raises
`BufferOverflow` when 32 bytes are there. -/
def Obligations.KeyPushAppendsItsByte : Prop :=
  ∀ (imm : Byte) (s : State), s.Inv →
    (s.klen.toNat < 32 → ∃ t, exec (.keyPush imm) s = .next t ∧
      t = { s with k := t.k, klen := s.klen + 1#6 } ∧ t.kBytes = s.kBytes ++ [imm] ∧
      ∀ a, a ≠ s.klen.toNat → t.k.read a = s.k.read a) ∧
    (s.klen.toNat = 32 →
      exec (.keyPush imm) s = .next { s with err := 7#8, eop := 0x07#8 })

/-! ## The sum-check -/

/-- R100 and R106: `sum16` is the exact sum reduced modulo 65536; it does not depend on the order of the
bytes; the sum of a concatenation is the sum of the sums; the first wrap. -/
def Obligations.SumSixteenIsTheSumModulo65536 : Prop :=
  (∀ b : List Byte, (sum16 b).toNat = byteSum b % 65536) ∧
  (∀ b c : List Byte, b.Perm c → sum16 b = sum16 c) ∧
  (∀ b c : List Byte, (sum16 (b ++ c)).toNat = ((sum16 b).toNat + (sum16 c).toNat) % 65536) ∧
  sum16 (List.replicate 257 0xFF#8) = 0xFFFF#16 ∧ sum16 (List.replicate 258 0xFF#8) = 0x00FE#16

/-- R102: `SUM.BYTE` adds its byte modulo 65536. -/
def Obligations.SumByteAddsItsByte : Prop :=
  ∀ (imm : Byte) (s : State), ∃ v : Half,
    exec (.sumByte imm) s = .next { s with sum := v } ∧
      v.toNat = (s.sum.toNat + imm.toNat) % 65536

/-- R103: `SUM.RNG` adds the bytes of its range to `SUM` modulo 65536, or raises `BufferUnderrun`. -/
def Obligations.SumRngAddsItsRange : Prop :=
  ∀ (off len : Index) (s : State), s.Inv →
    (off.toNat + len.toNat ≤ s.wlen.toNat → ∃ v : Half,
      exec (.sumRng off len) s = .next { s with sum := v } ∧
        v.toNat = (s.sum.toNat + byteSum (s.range off.toNat len.toNat)) % 65536) ∧
    (s.wlen.toNat < off.toNat + len.toNat →
      exec (.sumRng off len) s = .next { s with err := 3#8, eop := 0x12#8 })

/-- R104: `SUM.CHK` compares the sum of all but the last two bytes of its range with the little-endian
value of those two, its checks in their order. -/
def Obligations.SumChkComparesTheLittleEndianSum : Prop :=
  ∀ (off len : Index) (s : State), s.Inv →
    exec (.sumChk off len) s = .next (
      if len.toNat < 2 then { s with err := 3#8, eop := 0x13#8 }
      else if s.wlen.toNat < off.toNat + len.toNat then { s with err := 3#8, eop := 0x13#8 }
      else if byteSum (s.range off.toNat (len.toNat - 2)) % 65536 ≠
          (s.w.read (off.toNat + len.toNat - 2)).toNat +
            256 * (s.w.read (off.toNat + len.toNat - 1)).toNat then
        { s with err := 1#8, eop := 0x13#8 }
      else { s with sum := BitVec.ofNat 16 (byteSum (s.range off.toNat (len.toNat - 2))) })

/-- R105: `SUM.APP` appends the sum of `W[off..WLEN)`, low byte first, and leaves it in `SUM`; its checks
in their order. -/
def Obligations.SumAppAppendsTheSum : Prop :=
  ∀ (off : Index) (s : State), s.Inv →
    (s.wlen.toNat < off.toNat →
      exec (.sumApp off) s = .next { s with err := 3#8, eop := 0x14#8 }) ∧
    (off.toNat ≤ s.wlen.toNat → s.wcap.toNat < s.wlen.toNat + 2 →
      exec (.sumApp off) s = .next { s with err := 7#8, eop := 0x14#8 }) ∧
    (off.toNat ≤ s.wlen.toNat → s.wlen.toNat + 2 ≤ s.wcap.toNat →
      ∃ t, exec (.sumApp off) s = .next t ∧
        t = { s with
          w := t.w, wlen := s.wlen + 2#24
          sum := BitVec.ofNat 16 (byteSum (s.wBytes.drop off.toNat)) } ∧
        AppendsToW s t [BitVec.ofNat 8 (byteSum (s.wBytes.drop off.toNat)),
          BitVec.ofNat 8 (byteSum (s.wBytes.drop off.toNat) / 256)])

/-- R105: "after `SUM.APP off`, `SUM.CHK off, x[WLEN] − off` always succeeds", and changes nothing more. -/
def Obligations.SumChkAcceptsWhatSumAppBuilt : Prop :=
  ∀ (off : Index) (s : State), s.Inv → off.toNat ≤ s.wlen.toNat →
    s.wlen.toNat + 2 ≤ s.wcap.toNat →
      ∃ t, exec (.sumApp off) s = .next t ∧ exec (.sumChk off (t.wlen - off)) t = .next t

/-- R107: a change of any one byte of a frame that `SUM.CHK` accepts, in the body or in the check value,
makes it raise `ChecksumMismatch`. -/
def Obligations.SumChkDetectsEveryOneByteChange : Prop :=
  ∀ (off len : Index) (s t : State) (a : Nat) (v : Byte), s.Inv → s.err = 0#8 →
    exec (.sumChk off len) s = .next t → t.err = 0#8 →
    off.toNat ≤ a → a < off.toNat + len.toNat → v ≠ s.w.read a →
      exec (.sumChk off len) { s with w := s.w.write a v } =
        .next { s with w := s.w.write a v, err := 1#8, eop := 0x13#8 }

/-! ## The CRC-16 -/

/-- R110 and R113: `CRC.BYTE` puts its byte into bits 7:0 of the register by exclusive or, then eight times
shifts right by one and, when the bit shifted out is 1, exclusive-ors 0xA001. -/
def Obligations.CrcByteRunsEightIterations : Prop :=
  ∀ (imm : Byte) (s : State),
    exec (.crcByte imm) s = .next { s with
      crc := (fun r : Half => if r.toNat % 2 = 1 then BitVec.ofNat 16 (r.toNat / 2) ^^^ 0xA001#16
        else BitVec.ofNat 16 (r.toNat / 2))^[8] (s.crc ^^^ BitVec.ofNat 16 imm.toNat) }

/-- R118: `crc_step` in its table form, its linearity, that it is a bijection of the registers for a fixed
byte and injective in the byte for a fixed register, and the listed entries of the table. -/
def Obligations.CrcStepIsLinearAndATableLookup : Prop :=
  (∀ (r : Half) (b : Byte),
    crcStep r b = (r >>> 8) ^^^ crcStep 0#16 ((r ^^^ b.setWidth 16).setWidth 8)) ∧
  (∀ (r r' : Half) (b b' : Byte), crcStep (r ^^^ r') (b ^^^ b') = crcStep r b ^^^ crcStep r' b') ∧
  (∀ b : Byte, Function.Bijective fun r : Half => crcStep r b) ∧
  (∀ r : Half, Function.Injective fun b : Byte => crcStep r b) ∧
  crcStep 0#16 0#8 = 0x0000#16 ∧ crcStep 0#16 1#8 = 0xC0C1#16 ∧ crcStep 0#16 2#8 = 0xC181#16 ∧
  crcStep 0#16 3#8 = 0x0140#16 ∧ crcStep 0#16 255#8 = 0x4040#16

/-- R117: appending the register's low byte and then its high byte brings the register to zero; for a
given sequence no other pair of bytes does; for every register the pairs map one to one onto the
registers. -/
def Obligations.CheckBytesAreTheOnlyZeroResidue : Prop :=
  (∀ b : List Byte,
    crc16 (b ++ [(crc16 b).extractLsb' 0 8, (crc16 b).extractLsb' 8 8]) = 0#16) ∧
  (∀ (b : List Byte) (x y : Byte), crc16 (b ++ [x, y]) = 0#16 →
    x = (crc16 b).extractLsb' 0 8 ∧ y = (crc16 b).extractLsb' 8 8) ∧
  ∀ r : Half, Function.Bijective fun p : Byte × Byte => crcFold r [p.1, p.2]

/-- R114: `CRC.RNG` folds its range onto the register, or raises `BufferUnderrun`; and R111: the fold is
`crc_step` on the bytes in increasing index order. -/
def Obligations.CrcRngFoldsItsRange : Prop :=
  (∀ (off len : Index) (s : State), s.Inv →
    (off.toNat + len.toNat ≤ s.wlen.toNat →
      exec (.crcRng off len) s =
        .next { s with crc := crcFold s.crc (s.range off.toNat len.toNat) }) ∧
    (s.wlen.toNat < off.toNat + len.toNat →
      exec (.crcRng off len) s = .next { s with err := 3#8, eop := 0x22#8 })) ∧
  (∀ r : Half, crcFold r [] = r) ∧
  (∀ (r : Half) (b : Byte) (t : List Byte), crcFold r (b :: t) = crcFold (crcStep r b) t) ∧
  ∀ b : List Byte, crc16 b = crcFold 0xFFFF#16 b

/-- R115: `CRC.CHK` accepts a frame exactly when the CRC of the whole of it, from 0xFFFF, is zero, and
leaves that register; its checks in their order. -/
def Obligations.CrcChkAcceptsZeroResidue : Prop :=
  ∀ (off len : Index) (s : State), s.Inv →
    exec (.crcChk off len) s = .next (
      if s.wlen.toNat < off.toNat + len.toNat then { s with err := 3#8, eop := 0x23#8 }
      else if crcFold 0xFFFF#16 (s.range off.toNat len.toNat) ≠ 0#16 then
        { s with err := 1#8, eop := 0x23#8 }
      else { s with crc := 0#16 })

/-- R115: in a state without an error, the frames it accepts are those whose last two bytes are the CRC of
the bytes before them, low byte at the lower index; no shorter frame is accepted. -/
def Obligations.CrcChkIsComputeAndCompare : Prop :=
  ∀ (off len : Index) (s : State), s.Inv → s.err = 0#8 → off.toNat + len.toNat ≤ s.wlen.toNat →
    (exec (.crcChk off len) s = .next { s with crc := 0#16 } ↔
      2 ≤ len.toNat ∧
        s.w.read (off.toNat + len.toNat - 2) =
          (crc16 (s.range off.toNat (len.toNat - 2))).extractLsb' 0 8 ∧
        s.w.read (off.toNat + len.toNat - 1) =
          (crc16 (s.range off.toNat (len.toNat - 2))).extractLsb' 8 8)

/-- R116: `CRC.APP` appends the CRC of `W[off..WLEN)`, low byte first, and leaves it in `CRC`; its checks in
their order. -/
def Obligations.CrcAppAppendsTheCrc : Prop :=
  ∀ (off : Index) (s : State), s.Inv →
    (s.wlen.toNat < off.toNat →
      exec (.crcApp off) s = .next { s with err := 3#8, eop := 0x24#8 }) ∧
    (off.toNat ≤ s.wlen.toNat → s.wcap.toNat < s.wlen.toNat + 2 →
      exec (.crcApp off) s = .next { s with err := 7#8, eop := 0x24#8 }) ∧
    (off.toNat ≤ s.wlen.toNat → s.wlen.toNat + 2 ≤ s.wcap.toNat →
      ∃ t, exec (.crcApp off) s = .next t ∧
        t = { s with w := t.w, wlen := s.wlen + 2#24, crc := crc16 (s.wBytes.drop off.toNat) } ∧
        AppendsToW s t [(crc16 (s.wBytes.drop off.toNat)).extractLsb' 0 8,
          (crc16 (s.wBytes.drop off.toNat)).extractLsb' 8 8])

/-- R116: "after `CRC.APP off`, `CRC.CHK off, x[WLEN] − off` always succeeds". -/
def Obligations.CrcChkAcceptsWhatCrcAppBuilt : Prop :=
  ∀ (off : Index) (s : State), s.Inv → off.toNat ≤ s.wlen.toNat →
    s.wlen.toNat + 2 ≤ s.wcap.toNat →
      ∃ t, exec (.crcApp off) s = .next t ∧
        exec (.crcChk off (t.wlen - off)) t = .next { t with crc := 0#16 }

/-- R119: a change confined to one byte of a frame that `CRC.CHK` accepts makes it raise
`ChecksumMismatch`, "with no exception". -/
def Obligations.CrcChkDetectsEveryOneByteChange : Prop :=
  ∀ (off len : Index) (s t : State) (a : Nat) (v : Byte), s.Inv → s.err = 0#8 →
    exec (.crcChk off len) s = .next t → t.err = 0#8 →
    off.toNat ≤ a → a < off.toNat + len.toNat → v ≠ s.w.read a →
      exec (.crcChk off len) { s with w := s.w.write a v } =
        .next { s with w := s.w.write a v, err := 1#8, eop := 0x23#8 }

/-- R21: `CRCSW` is the byte-swapped register, and zero exactly when the register is. -/
def Obligations.CrcSwIsTheSwappedRegister : Prop :=
  ∀ s : State, s.crcsw.toNat = (s.crc.toNat % 256) * 256 + s.crc.toNat / 256 ∧
    (s.crcsw = 0#16 ↔ s.crc = 0#16)

/-! ## The cipher -/

/-- R138: "For every key of legal length and every block": decryption undoes encryption and encryption
undoes decryption. And encryption is that of R132 to R137: the layout, S-box and round
transformations, the key schedule, the order of the rounds, and the worked values of R133 and of
R137 (V20, V21). -/
def Obligations.DecryptionInvertsEncryption : Prop :=
  (∀ key block : List Byte, (key.length = 16 ∨ key.length = 32) → block.length = 16 →
    invCipher key (cipher key block) = block ∧ cipher key (invCipher key block) = block) ∧
  RoundTransformationsRule ∧
  (∀ key : List Byte, (key.length = 16 ∨ key.length = 32) → KeyScheduleRule key (expandKey key) ∧
    ∀ block : List Byte, block.length = 16 →
      RoundsRule (expandKey key) (key.length / 4 + 6) block (cipher key block)) ∧
  (∀ k128 k256 plain : List Byte, k128 = (List.range 16).map (BitVec.ofNat 8) →
    k256 = (List.range 32).map (BitVec.ofNat 8) →
    plain = (List.range 16).map (fun i => BitVec.ofNat 8 (0x11 * i)) →
    (expandKey k128).getD 4 zeroWord = AesWord.mk 0xD6#8 0xAA#8 0x74#8 0xFD#8 ∧
    (expandKey k128).getD 43 zeroWord = AesWord.mk 0x4D#8 0x2B#8 0x30#8 0xC5#8 ∧
    (expandKey k256).getD 8 zeroWord = AesWord.mk 0xA5#8 0x73#8 0xC2#8 0x9F#8 ∧
    (expandKey k256).getD 12 zeroWord = AesWord.mk 0x16#8 0x51#8 0xA8#8 0xCD#8 ∧
    (expandKey k256).getD 59 zeroWord = AesWord.mk 0x6D#8 0x68#8 0xDE#8 0x36#8 ∧
    cipher k128 plain = [0x69#8, 0xC4#8, 0xE0#8, 0xD8#8, 0x6A#8, 0x7B#8, 0x04#8, 0x30#8,
      0xD8#8, 0xCD#8, 0xB7#8, 0x80#8, 0x70#8, 0xB4#8, 0xC5#8, 0x5A#8] ∧
    cipher k256 plain = [0x8E#8, 0xA2#8, 0xB7#8, 0xCA#8, 0x51#8, 0x67#8, 0x45#8, 0xBF#8,
      0xEA#8, 0xFC#8, 0x49#8, 0x90#8, 0x4B#8, 0x49#8, 0x60#8, 0x89#8])

/-- R143 and R144: the one-block operations replace the 16 bytes at `off` by their encryption or
decryption under `K[0..KLEN)` and nothing else; the key is checked before the range. -/
def Obligations.BlockOperationsReplaceOneBlock : Prop :=
  ∀ (off : Index) (s : State), s.Inv →
    (s.klen.toNat ≠ 16 ∧ s.klen.toNat ≠ 32 →
      exec (.aesEncb off) s = .next { s with err := 6#8, eop := 0x30#8 } ∧
      exec (.aesDecb off) s = .next { s with err := 6#8, eop := 0x31#8 }) ∧
    ((s.klen.toNat = 16 ∨ s.klen.toNat = 32) → s.wlen.toNat < off.toNat + 16 →
      exec (.aesEncb off) s = .next { s with err := 3#8, eop := 0x30#8 } ∧
      exec (.aesDecb off) s = .next { s with err := 3#8, eop := 0x31#8 }) ∧
    ((s.klen.toNat = 16 ∨ s.klen.toNat = 32) → off.toNat + 16 ≤ s.wlen.toNat →
      (∃ t, exec (.aesEncb off) s = .next t ∧ t = { s with w := t.w } ∧
        t.range off.toNat 16 = cipher s.kBytes (s.range off.toNat 16) ∧
        StoresOnlyIn s t off.toNat 16) ∧
      ∃ t, exec (.aesDecb off) s = .next t ∧ t = { s with w := t.w } ∧
        t.range off.toNat 16 = invCipher s.kBytes (s.range off.toNat 16) ∧
        StoresOnlyIn s t off.toNat 16)

/-- R130, R145 and R146: the range operations replace each 16-byte piece of the range by its own
encryption or decryption under `K[0..KLEN)`, independently of the others, and nothing else; the key
is checked first, then the length, then the range. -/
def Obligations.RangeOperationsReplaceEachBlock : Prop :=
  ∀ (off len : Index) (s : State), s.Inv →
    ((s.klen.toNat ≠ 16 ∧ s.klen.toNat ≠ 32) ∨ len.toNat % 16 ≠ 0 →
      exec (.aesEnc off len) s = .next { s with err := 6#8, eop := 0x32#8 } ∧
      exec (.aesDec off len) s = .next { s with err := 6#8, eop := 0x33#8 }) ∧
    ((s.klen.toNat = 16 ∨ s.klen.toNat = 32) → len.toNat % 16 = 0 →
      s.wlen.toNat < off.toNat + len.toNat →
      exec (.aesEnc off len) s = .next { s with err := 3#8, eop := 0x32#8 } ∧
      exec (.aesDec off len) s = .next { s with err := 3#8, eop := 0x33#8 }) ∧
    ((s.klen.toNat = 16 ∨ s.klen.toNat = 32) → len.toNat % 16 = 0 →
      off.toNat + len.toNat ≤ s.wlen.toNat →
      (∃ t, exec (.aesEnc off len) s = .next t ∧ t = { s with w := t.w } ∧
        (∀ j, j < len.toNat / 16 → t.range (off.toNat + 16 * j) 16 =
          cipher s.kBytes (s.range (off.toNat + 16 * j) 16)) ∧
        StoresOnlyIn s t off.toNat len.toNat) ∧
      ∃ t, exec (.aesDec off len) s = .next t ∧ t = { s with w := t.w } ∧
        (∀ j, j < len.toNat / 16 → t.range (off.toNat + 16 * j) 16 =
          invCipher s.kBytes (s.range (off.toNat + 16 * j) 16)) ∧
        StoresOnlyIn s t off.toNat len.toNat)

/-- R138 over a range: `AES.DEC` after `AES.ENC` of the same range under the same key, and `AES.ENC` after
`AES.DEC`, give back the state, equal as data. -/
def Obligations.RangeDecryptionRestoresTheState : Prop :=
  ∀ (off len : Index) (s : State), s.Inv → (s.klen.toNat = 16 ∨ s.klen.toNat = 32) →
    len.toNat % 16 = 0 → off.toNat + len.toNat ≤ s.wlen.toNat →
      (∃ t, exec (.aesEnc off len) s = .next t ∧ exec (.aesDec off len) t = .next s) ∧
      ∃ t, exec (.aesDec off len) s = .next t ∧ exec (.aesEnc off len) t = .next s

/-- R139: `AES.PAD` appends `k = 16 - (n mod 16)` bytes, `k - 1` zeros and then `k`, so that the padded data
is a multiple of 16 long; its checks in their order. -/
def Obligations.PadAppendsZerosAndTheCount : Prop :=
  ∀ (off : Index) (s : State), s.Inv →
    (s.wlen.toNat < off.toNat →
      exec (.aesPad off) s = .next { s with err := 3#8, eop := 0x34#8 }) ∧
    (off.toNat ≤ s.wlen.toNat → ∀ k, k = 16 - (s.wlen.toNat - off.toNat) % 16 →
      (s.wcap.toNat < s.wlen.toNat + k →
        exec (.aesPad off) s = .next { s with err := 7#8, eop := 0x34#8 }) ∧
      (s.wlen.toNat + k ≤ s.wcap.toNat →
        ∃ t, exec (.aesPad off) s = .next t ∧
          t = { s with w := t.w, wlen := s.wlen + BitVec.ofNat 24 k } ∧
          AppendsToW s t (List.replicate (k - 1) 0#8 ++ [BitVec.ofNat 8 k]) ∧
          (t.wlen.toNat - off.toNat) % 16 = 0))

/-- R140: `AES.UNPAD` strips as many bytes as the last byte says when that is fewer than the data holds,
whatever the stripped bytes are; its checks in their order. -/
def Obligations.UnpadStripsTheCountOfTheLastByte : Prop :=
  ∀ (off : Index) (s : State), s.Inv →
    exec (.aesUnpad off) s = .next (
      if s.wlen.toNat < off.toNat then { s with err := 3#8, eop := 0x35#8 }
      else if s.wlen.toNat = off.toNat then { s with err := 2#8, eop := 0x35#8 }
      else if s.wlen.toNat - off.toNat ≤ (s.w.read (s.wlen.toNat - 1)).toNat then
        { s with err := 2#8, eop := 0x35#8 }
      else { s with wlen := s.wlen - BitVec.ofNat 24 (s.w.read (s.wlen.toNat - 1)).toNat })

/-- R147: for data of one byte or more `AES.UNPAD` after `AES.PAD` restores `WLEN` and the valid bytes; for
empty data it raises `PaddingInvalid`. -/
def Obligations.UnpadUndoesPadOfNonemptyData : Prop :=
  ∀ (off : Index) (s : State), s.Inv → off.toNat ≤ s.wlen.toNat →
    s.wlen.toNat + (16 - (s.wlen.toNat - off.toNat) % 16) ≤ s.wcap.toNat →
      ∃ t, exec (.aesPad off) s = .next t ∧
        (off.toNat < s.wlen.toNat → ∃ u, exec (.aesUnpad off) t = .next u ∧
          u = { s with w := t.w } ∧ u.wBytes = s.wBytes) ∧
        (off.toNat = s.wlen.toNat →
          exec (.aesUnpad off) t = .next { t with err := 2#8, eop := 0x35#8 })

/-- R141: `MRK.TST` sets `PLAIN` to 1 exactly when the bytes at `off` are 0x43, 0x47 in this order. -/
def Obligations.MarkerTestSetsPlain : Prop :=
  ∀ (off : Index) (s : State), s.Inv →
    exec (.mrkTst off) s = .next (
      if s.wlen.toNat < off.toNat + 2 then { s with err := 3#8, eop := 0x36#8 }
      else { s with plain := decide (s.w.read off.toNat = 0x43#8 ∧
        s.w.read (off.toNat + 1) = 0x47#8) })

/-- R142: `AES.DECC` leaves a range that starts with the marker as it is and sets `PLAIN`; otherwise it
checks key and length, decrypts each block as `AES.DEC` does and clears `PLAIN`; its checks in their
order. -/
def Obligations.ConditionalDecryptionSkipsMarkedFrames : Prop :=
  ∀ (off len : Index) (s : State), s.Inv →
    (len.toNat < 2 ∨ s.wlen.toNat < off.toNat + len.toNat →
      exec (.aesDecc off len) s = .next { s with err := 3#8, eop := 0x37#8 }) ∧
    (2 ≤ len.toNat → off.toNat + len.toNat ≤ s.wlen.toNat →
      (s.w.read off.toNat = 0x43#8 ∧ s.w.read (off.toNat + 1) = 0x47#8 →
        exec (.aesDecc off len) s = .next { s with plain := true }) ∧
      (¬(s.w.read off.toNat = 0x43#8 ∧ s.w.read (off.toNat + 1) = 0x47#8) →
        ((s.klen.toNat ≠ 16 ∧ s.klen.toNat ≠ 32) ∨ len.toNat % 16 ≠ 0 →
          exec (.aesDecc off len) s = .next { s with err := 6#8, eop := 0x37#8 }) ∧
        ((s.klen.toNat = 16 ∨ s.klen.toNat = 32) → len.toNat % 16 = 0 →
          ∃ t, exec (.aesDecc off len) s = .next t ∧
            t = { s with w := t.w, plain := false } ∧
            (∀ j, j < len.toNat / 16 → t.range (off.toNat + 16 * j) 16 =
              invCipher s.kBytes (s.range (off.toNat + 16 * j) 16)) ∧
            StoresOnlyIn s t off.toNat len.toNat)))

/-! ## The unescaper -/

/-- R161: `find` is the least index at which the three bytes of the mark stand, or none. -/
def Obligations.FindIsTheLeastMark : Prop :=
  ∀ (m b : List Byte), m.length = 3 →
    (∀ i, findMark m b = some i ↔
      i + 3 ≤ b.length ∧ (b.drop i).take 3 = m ∧ ∀ j, j < i → (b.drop j).take 3 ≠ m) ∧
    (findMark m b = none ↔ ∀ i, i + 3 ≤ b.length → (b.drop i).take 3 ≠ m)

/-- R162: the pieces of `split` hold no `SPLIT_MARK`, and joined by the mark they are the sequence again;
so a sequence with `n` marks gives `n + 1` pieces, and one piece exactly when it holds none. -/
def Obligations.SplitCutsAtEveryMark : Prop :=
  ∀ b : List Byte,
    [0x26#8, 0x03#8, 0x00#8].intercalate (splitMarks b) = b ∧
    (∀ p ∈ splitMarks b, findMark [0x26#8, 0x03#8, 0x00#8] p = none) ∧
    ((splitMarks b).length = 1 ↔ findMark [0x26#8, 0x03#8, 0x00#8] b = none)

/-- R165, step 2, for a buffer whose step 1 leaves `b` without a `SPLIT_MARK`: with no `ESCAPE_MARK` `b` is
returned as it is; with the first `ESCAPE_MARK` followed by fewer than three bytes it fails; with two
equal valid keys it fails; else the bytes after the key are returned, each key byte turned into its
canonical code. And step 1: of a doubled first `27` one is dropped, once also when a third follows. -/
def Obligations.UnsplitBuffersAreSubstitutedAfterTheKey : Prop :=
  (∀ raw b : List Byte, AfterStepOne raw b → findMark [0x26#8, 0x03#8, 0x00#8] b = none →
    (findMark [0x27#8, 0x03#8, 0x00#8] b = none → unescape raw = .ok b) ∧
    ∀ pre key : List Byte, b = pre ++ [0x27#8, 0x03#8, 0x00#8] ++ key →
      findMark [0x27#8, 0x03#8, 0x00#8] b = some pre.length →
      (key.length < 3 → unescape raw = .error .bufferUnderrun) ∧
      ∀ (k0 k1 k2 : Byte) (data : List Byte), key = k0 :: k1 :: k2 :: data →
        unescape raw =
          if DuplicateKey k0 k1 k2 then .error .malformedInput
          else .ok (data.map fun b =>
            if k0 ≠ 0x43#8 ∧ b = k0 then 0x1A#8
            else if k1 ≠ 0x43#8 ∧ b = k1 then 0x1B#8
            else if k2 ≠ 0x43#8 ∧ b = k2 then 0x08#8
            else b)) ∧
  (∀ raw : List Byte, ∃ b : List Byte, AfterStepOne raw b) ∧
  ∀ b : List Byte, b.take 1 ≠ [0x27#8] →
    unescape (0x27#8 :: 0x27#8 :: b) = unescape (0x27#8 :: b)

/-- R165, step 3, R163 and R170 (c), for a buffer whose step 1 leaves a header and one fragment or more:
what the key of a fragment is; the output is the declared content of each fragment in turn under the
map of the fragment before it; and the first fragment that fails, its predecessor's key before its
own length (R169), fails the whole. -/
def Obligations.FragmentsAreJoinedUnderThePreviousKey : Prop :=
  (∀ f : List Byte,
    (findMark [0x27#8, 0x03#8, 0x00#8] f = none → keyOfFragment f = .ok
      { e0 := { valid := false, key := 0#8 }, e1 := { valid := false, key := 0#8 },
        e2 := { valid := false, key := 0#8 } }) ∧
    ∀ pre key : List Byte, f = pre ++ [0x27#8, 0x03#8, 0x00#8] ++ key →
      findMark [0x27#8, 0x03#8, 0x00#8] f = some pre.length →
      (key.length < 3 → keyOfFragment f = .error .bufferUnderrun) ∧
      ∀ (k0 k1 k2 : Byte) (data : List Byte), key = k0 :: k1 :: k2 :: data →
        keyOfFragment f =
          if DuplicateKey k0 k1 k2 then .error .malformedInput
          else .ok
            { e0 := { valid := decide (k0 ≠ 0x43#8), key := k0 }
              e1 := { valid := decide (k1 ≠ 0x43#8), key := k1 }
              e2 := { valid := decide (k2 ≠ 0x43#8), key := k2 } }) ∧
  ∀ (raw h : List Byte) (fs : List (List Byte)),
    AfterStepOne raw ([0x26#8, 0x03#8, 0x00#8].intercalate (h :: fs)) → fs ≠ [] →
    (∀ p ∈ h :: fs, findMark [0x26#8, 0x03#8, 0x00#8] p = none) →
      (∀ outs : List (List Byte), outs.length = fs.length →
        (∀ j, j < fs.length → FragmentGives ((h :: fs).getD j []) (fs.getD j []) (outs.getD j [])) →
          unescape raw = .ok outs.flatten) ∧
      ∀ (j : Nat) (e : ErrCode), j < fs.length →
        (∀ i, i < j → ∃ out, FragmentGives ((h :: fs).getD i []) (fs.getD i []) out) →
        FragmentFails ((h :: fs).getD j []) (fs.getD j []) e → unescape raw = .error e

/-- R169 and R170 (a): the output of `unescape` is never longer than its input. -/
def Obligations.UnescapeNeverLengthens : Prop :=
  ∀ b r : List Byte, unescape b = .ok r → r.length ≤ b.length

/-- R167: `UNE.MAP` replaces the whole map by the three bytes at `off`, an entry valid when its byte is not
0x43, or raises `MalformedInput` when two valid entries would have the same byte; its checks in their
order. -/
def Obligations.UneMapLoadsThreeKeys : Prop :=
  ∀ (off : Index) (s : State), s.Inv →
    ∀ k0 k1 k2 : Byte, k0 = s.w.read off.toNat → k1 = s.w.read (off.toNat + 1) →
      k2 = s.w.read (off.toNat + 2) →
      exec (.uneMap off) s = .next (
        if s.wlen.toNat < off.toNat + 3 then { s with err := 3#8, eop := 0x41#8 }
        else if (k0 ≠ 0x43#8 ∧ (k0 = k1 ∨ k0 = k2)) ∨ (k1 ≠ 0x43#8 ∧ k1 = k2) then
          { s with err := 4#8, eop := 0x41#8 }
        else { s with smap :=
          { e0 := { valid := decide (k0 ≠ 0x43#8), key := k0 }
            e1 := { valid := decide (k1 ≠ 0x43#8), key := k1 }
            e2 := { valid := decide (k2 ≠ 0x43#8), key := k2 } } })

/-- R168 and R26: `UNE.SUB` replaces each byte of its range once by the canonical code of the valid entry
whose key it is, and no other byte, or raises `BufferUnderrun`. -/
def Obligations.UneSubSubstitutesItsRangeOnce : Prop :=
  ∀ (off len : Index) (s : State), s.Inv →
    (s.wlen.toNat < off.toNat + len.toNat →
      exec (.uneSub off len) s = .next { s with err := 3#8, eop := 0x42#8 }) ∧
    (off.toNat + len.toNat ≤ s.wlen.toNat →
      ∃ t, exec (.uneSub off len) s = .next t ∧ t = { s with w := t.w } ∧
        StoresOnlyIn s t off.toNat len.toNat ∧
        ∀ a, off.toNat ≤ a → a < off.toNat + len.toNat →
          (s.smap.e0.valid = true ∧ s.smap.e0.key = s.w.read a → t.w.read a = 0x1A#8) ∧
          (s.smap.e1.valid = true ∧ s.smap.e1.key = s.w.read a → t.w.read a = 0x1B#8) ∧
          (s.smap.e2.valid = true ∧ s.smap.e2.key = s.w.read a → t.w.read a = 0x08#8) ∧
          ((∀ e ∈ [s.smap.e0, s.smap.e1, s.smap.e2],
            ¬(e.valid = true ∧ e.key = s.w.read a)) → t.w.read a = s.w.read a))

/-- R169: `UNE.RUN` replaces the valid bytes by `unescape` of them, neither reading nor writing the map, or
raises the error `unescape` meets. -/
def Obligations.UneRunReplacesTheBuffer : Prop :=
  ∀ s : State, s.Inv →
    (∀ r, unescape s.wBytes = .ok r → ∃ t, exec .uneRun s = .next t ∧
      t = { s with w := t.w, wlen := t.wlen } ∧ t.wBytes = r ∧ StoresOnlyIn s t 0 r.length) ∧
    ∀ e, unescape s.wBytes = .error e →
      (e = .bufferUnderrun ∨ e = .malformedInput) ∧
      exec .uneRun s = .next { s with err := e.code, eop := 0x43#8 }

/-! ## The unpacker -/

/-- R180 to R182 and R185: `UNP.TH` splits the 24-bit value of the three bytes at `off`, in either byte
order, into its top and bottom 12 bits, and the views read them in tenths; its check first. -/
def Obligations.UnpThSplitsThePack : Prop :=
  ∀ (e : ByteOrder) (off : Index) (s : State), s.Inv →
    (s.wlen.toNat < off.toNat + 3 →
      exec (.unpTh e off) s = .next { s with err := 3#8, eop := 0x50#8 }) ∧
    (off.toNat + 3 ≤ s.wlen.toNat → ∀ raw, raw = fieldValue s e off.toNat 3 →
      ∃ t, exec (.unpTh e off) s = .next t ∧
        t = { s with tr := BitVec.ofNat 12 (raw / 4096), hr := BitVec.ofNat 12 (raw % 4096) } ∧
        t.tx10 = ((raw / 4096 : Nat) : Int) - 500 ∧ t.hx10 = raw % 4096)

/-- R183: `PCK.TH` appends the three bytes of `T * 4096 + H` in the byte order of its operand, from the
command word alone, or raises `BufferOverflow`. -/
def Obligations.PckThAppendsThePack : Prop :=
  ∀ (e : ByteOrder) (t h : Raw12) (s : State), s.Inv →
    (s.wcap.toNat < s.wlen.toNat + 3 →
      exec (.pckTh e t h) s = .next { s with err := 7#8, eop := 0x51#8 }) ∧
    (s.wlen.toNat + 3 ≤ s.wcap.toNat → ∀ b0 b1 b2 : Byte,
      b0.toNat * 65536 + b1.toNat * 256 + b2.toNat = t.toNat * 4096 + h.toNat →
      ∃ u, exec (.pckTh e t h) s = .next u ∧ u = { s with w := u.w, wlen := s.wlen + 3#24 } ∧
        AppendsToW s u (match e with | .big => [b0, b1, b2] | .little => [b2, b1, b0]))

/-- R183: `UNP.TH` in the same byte order, where the bytes went, gives back every `T` and `H`; and packing
the fields of any three bytes gives back the bytes. And R184: a reading of `t` and `h` tenths is packed
exactly when both fit, and the views then read `t` and `h` again. -/
def Obligations.UnpThUndoesPckTh : Prop :=
  (∀ (e : ByteOrder) (t h : Raw12) (s : State), s.Inv → s.wlen.toNat + 3 ≤ s.wcap.toNat →
    ∃ u, exec (.pckTh e t h) s = .next u ∧
      exec (.unpTh e s.wlen) u = .next { u with tr := t, hr := h }) ∧
  (∀ (e : ByteOrder) (b0 b1 b2 : Byte),
    packBytes e (packT (packRaw e [b0, b1, b2])) (packH (packRaw e [b0, b1, b2])) = [b0, b1, b2]) ∧
  ∀ (e : ByteOrder) (t h : Int),
    (packReading e t h = none ↔ ¬(-500 ≤ t ∧ t ≤ 3595 ∧ 0 ≤ h ∧ h ≤ 4095)) ∧
    ∀ (i : Instr) (s : State), packReading e t h = some i → s.Inv →
      s.wlen.toNat + 3 ≤ s.wcap.toNat →
      ∃ u v, exec i s = .next u ∧ exec (.unpTh e s.wlen) u = .next v ∧
        v.tx10 = t ∧ (v.hx10 : Int) = h

/-- R186 and R187: `FLD.U` reads the field of 1 to 4 bytes at `off` in either byte order as an unsigned
value, `FLD.S` as a two's complement value; their checks in their order. -/
def Obligations.FieldsAreReadWithTheirSign : Prop :=
  ∀ (e : ByteOrder) (off n : Index) (s : State), s.Inv → 1 ≤ n.toNat → n.toNat ≤ 4 →
    (s.wlen.toNat < off.toNat + n.toNat →
      exec (.fldU e off n) s = .next { s with err := 3#8, eop := 0x52#8 } ∧
      exec (.fldS e off n) s = .next { s with err := 3#8, eop := 0x53#8 }) ∧
    (off.toNat + n.toNat ≤ s.wlen.toNat → ∀ v, v = fieldValue s e off.toNat n.toNat →
      (∃ x : Word32, exec (.fldU e off n) s = .next { s with fv := x } ∧ x.toNat = v) ∧
      ∃ x : Word32, exec (.fldS e off n) s = .next { s with fv := x } ∧
        x.toInt = if v < 2 ^ (8 * n.toNat - 1) then (v : Int) else v - 2 ^ (8 * n.toNat))
end

