-- ==== Sys2Proof/Laws/Memory.lean ====
section
/-! SUPPORT. The byte memories: a read after a write, the canonical form every operation keeps, and that the
canonical form is one per memory contents (20_memory.md R53, R58). -/

namespace Sys2Proof.Machine

/-! ### Reads -/

@[simp] theorem Memory.read_nil (a : Nat) : Memory.read [] a = Memory.unlisted := rfl

theorem Memory.read_cons (b : Nat) (v : Byte) (m : Memory) (a : Nat) :
    Memory.read ((b, v) :: m) a = if a = b then v else Memory.read m a := rfl

theorem Memory.wfFrom_cons (lo a : Nat) (v : Byte) (m : Memory) :
    Memory.wfFrom lo ((a, v) :: m) = true ↔
      lo ≤ a ∧ v ≠ Memory.unlisted ∧ Memory.wfFrom (a + 1) m = true := by
  simp [Memory.wfFrom, and_assoc]

theorem Memory.wfFrom_mono {lo lo' : Nat} (h : lo' ≤ lo) {m : Memory}
    (hm : Memory.wfFrom lo m = true) : Memory.wfFrom lo' m = true := by
  cases m with
  | nil => rfl
  | cons c m =>
    obtain ⟨a, v⟩ := c
    rw [Memory.wfFrom_cons] at hm ⊢
    exact ⟨by omega, hm.2⟩

/-- Below its lowest index a canonical memory reads as unlisted. -/
theorem Memory.read_below_wfFrom {m : Memory} {lo a : Nat} (hm : Memory.wfFrom lo m = true)
    (ha : a < lo) : m.read a = Memory.unlisted := by
  induction m generalizing lo with
  | nil => rfl
  | cons c m ih =>
    obtain ⟨b, v⟩ := c
    rw [Memory.wfFrom_cons] at hm
    rw [Memory.read_cons, if_neg (by omega)]
    exact ih hm.2.2 (by omega)

theorem Memory.read_consCell_of_ne (a b : Nat) (v : Byte) (m : Memory) (h : b ≠ a) :
    (Memory.consCell a v m).read b = m.read b := by
  unfold Memory.consCell
  split
  · rfl
  · rw [Memory.read_cons, if_neg h]

theorem Memory.read_consCell_self {m : Memory} {a : Nat} (v : Byte)
    (hm : Memory.wfFrom (a + 1) m = true) : (Memory.consCell a v m).read a = v := by
  unfold Memory.consCell
  split
  · next h => rw [h]; exact Memory.read_below_wfFrom hm (by omega)
  · rw [Memory.read_cons, if_pos rfl]

/-- A write leaves every other index as it was. -/
theorem Memory.read_write_of_ne (m : Memory) {a b : Nat} (v : Byte) (h : b ≠ a) :
    (m.write a v).read b = m.read b := by
  induction m with
  | nil => exact Memory.read_consCell_of_ne a b v [] h
  | cons c m ih =>
    obtain ⟨i, u⟩ := c
    unfold Memory.write
    split
    · exact Memory.read_consCell_of_ne a b v _ h
    · split
      · next hai =>
        rw [Memory.read_consCell_of_ne a b v _ h, Memory.read_cons, if_neg (by omega)]
      · rw [Memory.read_cons, Memory.read_cons, ih]

theorem Memory.read_write_self_of_wfFrom {m : Memory} {lo : Nat} (a : Nat) (v : Byte)
    (hm : Memory.wfFrom lo m = true) : (m.write a v).read a = v := by
  induction m generalizing lo with
  | nil => exact Memory.read_consCell_self v rfl
  | cons c m ih =>
    obtain ⟨i, u⟩ := c
    have hc := (Memory.wfFrom_cons lo i u m).1 hm
    unfold Memory.write
    split
    · exact Memory.read_consCell_self v ((Memory.wfFrom_cons _ _ _ _).2 ⟨by omega, hc.2⟩)
    · split
      · next hai => exact Memory.read_consCell_self v (by rw [hai]; exact hc.2.2)
      · next hai =>
        rw [Memory.read_cons, if_neg hai]
        exact ih hc.2.2

/-- A read after a write to the same index gives the byte written. -/
theorem Memory.read_write_self {m : Memory} (hm : m.wf = true) (a : Nat) (v : Byte) :
    (m.write a v).read a = v := Memory.read_write_self_of_wfFrom a v hm

/-! ### The canonical form -/

theorem Memory.consCell_wfFrom {m : Memory} {lo a : Nat} (v : Byte) (ha : lo ≤ a)
    (hm : Memory.wfFrom (a + 1) m = true) : Memory.wfFrom lo (Memory.consCell a v m) = true := by
  unfold Memory.consCell
  split
  · exact Memory.wfFrom_mono (by omega) hm
  · next h => exact (Memory.wfFrom_cons _ _ _ _).2 ⟨ha, h, hm⟩

theorem Memory.write_wfFrom {m : Memory} {lo a : Nat} (v : Byte) (ha : lo ≤ a)
    (hm : Memory.wfFrom lo m = true) : Memory.wfFrom lo (m.write a v) = true := by
  induction m generalizing lo with
  | nil => exact Memory.consCell_wfFrom v ha rfl
  | cons c m ih =>
    obtain ⟨i, u⟩ := c
    have hc := (Memory.wfFrom_cons lo i u m).1 hm
    unfold Memory.write
    split
    · exact Memory.consCell_wfFrom v ha ((Memory.wfFrom_cons _ _ _ _).2 ⟨by omega, hc.2⟩)
    · split
      · next hai => exact Memory.consCell_wfFrom v ha (by rw [hai]; exact hc.2.2)
      · exact (Memory.wfFrom_cons _ _ _ _).2 ⟨hc.1, hc.2.1, ih (by omega) hc.2.2⟩

/-- A write keeps the canonical form. -/
theorem Memory.write_wf {m : Memory} (hm : m.wf = true) (a : Nat) (v : Byte) :
    (m.write a v).wf = true := Memory.write_wfFrom v (Nat.zero_le a) hm

/-- A write of a sequence keeps the canonical form. -/
theorem Memory.writeRange_wf {m : Memory} (hm : m.wf = true) (a : Nat) (bytes : List Byte) :
    (m.writeRange a bytes).wf = true := by
  induction bytes generalizing m a with
  | nil => exact hm
  | cons v s ih => exact ih (Memory.write_wf hm a v) (a + 1)

theorem Memory.below_cons (cap a : Nat) (v : Byte) (m : Memory) :
    Memory.below cap ((a, v) :: m) = true ↔ a < cap ∧ Memory.below cap m = true := by
  simp [Memory.below]

theorem Memory.consCell_below {m : Memory} {cap a : Nat} (v : Byte) (ha : a < cap)
    (hm : m.below cap = true) : (Memory.consCell a v m).below cap = true := by
  unfold Memory.consCell
  split
  · exact hm
  · exact (Memory.below_cons _ _ _ _).2 ⟨ha, hm⟩

/-- A write below the capacity leaves no cell at or past it. -/
theorem Memory.write_below {m : Memory} {cap a : Nat} (v : Byte) (ha : a < cap)
    (hm : m.below cap = true) : (m.write a v).below cap = true := by
  induction m with
  | nil => exact Memory.consCell_below v ha hm
  | cons c m ih =>
    obtain ⟨i, u⟩ := c
    have hc := (Memory.below_cons cap i u m).1 hm
    unfold Memory.write
    split
    · exact Memory.consCell_below v ha hm
    · split
      · exact Memory.consCell_below v ha hc.2
      · exact (Memory.below_cons _ _ _ _).2 ⟨hc.1, ih hc.2⟩

/-- A write of a sequence below the capacity leaves no cell at or past it. -/
theorem Memory.writeRange_below {m : Memory} {cap a : Nat} {bytes : List Byte}
    (ha : a + bytes.length ≤ cap) (hm : m.below cap = true) :
    (m.writeRange a bytes).below cap = true := by
  induction bytes generalizing m a with
  | nil => exact hm
  | cons v s ih =>
    simp only [List.length_cons] at ha
    exact ih (by omega) (Memory.write_below v (by omega) hm)

/-! ### Ranges -/

@[simp] theorem Memory.readRange_length (m : Memory) (a n : Nat) :
    (m.readRange a n).length = n := by
  induction n generalizing a with
  | zero => rfl
  | succ n ih => simp [Memory.readRange, ih]

theorem Memory.readRange_getElem (m : Memory) (a n i : Nat) (h : i < (m.readRange a n).length) :
    (m.readRange a n)[i] = m.read (a + i) := by
  induction n generalizing a i with
  | zero => simp at h
  | succ n ih =>
    cases i with
    | zero => simp [Memory.readRange]
    | succ i =>
      simp only [Memory.readRange, List.getElem_cons_succ]
      rw [ih (a + 1) i (by simpa [Memory.readRange] using h)]
      congr 1
      omega

/-- Two memories that read the same on a range give the same bytes. -/
theorem Memory.readRange_congr {m m' : Memory} {a n : Nat}
    (h : ∀ i, a ≤ i → i < a + n → m'.read i = m.read i) :
    m'.readRange a n = m.readRange a n := by
  apply List.ext_getElem (by simp)
  intro i h1 h2
  rw [Memory.readRange_getElem, Memory.readRange_getElem]
  simp only [Memory.readRange_length] at h1
  exact h _ (by omega) (by omega)

/-- A range is its two parts in order. -/
theorem Memory.readRange_add (m : Memory) (a n k : Nat) :
    m.readRange a (n + k) = m.readRange a n ++ m.readRange (a + n) k := by
  induction n generalizing a with
  | zero => simp [Memory.readRange]
  | succ n ih =>
    rw [Nat.succ_add_eq_add_succ, Nat.add_succ]
    simp only [Memory.readRange, List.cons_append]
    rw [ih (a + 1), Nat.add_right_comm a 1 n, Nat.add_assoc a n 1]

/-- A sub-range of a range. -/
theorem Memory.readRange_drop_take (m : Memory) (a n off len : Nat) (h : off + len ≤ n) :
    ((m.readRange a n).drop off).take len = m.readRange (a + off) len := by
  apply List.ext_getElem
  · simp only [List.length_take, List.length_drop, Memory.readRange_length]; omega
  · intro i h1 h2
    rw [List.getElem_take, List.getElem_drop, Memory.readRange_getElem, Memory.readRange_getElem,
      Nat.add_assoc]

/-- A write of a sequence leaves every index outside it as it was. -/
theorem Memory.read_writeRange_of_outside (m : Memory) (a b : Nat) (bytes : List Byte)
    (h : b < a ∨ a + bytes.length ≤ b) : (m.writeRange a bytes).read b = m.read b := by
  induction bytes generalizing m a with
  | nil => rfl
  | cons v s ih =>
    simp only [List.length_cons] at h
    rw [Memory.writeRange, ih _ _ (by omega), Memory.read_write_of_ne _ _ (by omega)]

/-- A read inside a sequence just written gives its byte. -/
theorem Memory.read_writeRange_inside {m : Memory} (hm : m.wf = true) (a : Nat)
    (bytes : List Byte) (i : Nat) (h : i < bytes.length) :
    (m.writeRange a bytes).read (a + i) = bytes[i] := by
  induction bytes generalizing m a i with
  | nil => simp at h
  | cons v s ih =>
    cases i with
    | zero =>
      rw [Memory.writeRange, Memory.read_writeRange_of_outside _ _ _ _ (by omega)]
      exact Memory.read_write_self hm a v
    | succ i =>
      have := ih (Memory.write_wf hm a v) (a + 1) i (by simpa using h)
      rw [Nat.add_right_comm] at this
      simpa [Memory.writeRange, Nat.add_assoc] using this

/-- A sequence just written is read back. -/
theorem Memory.readRange_writeRange_self {m : Memory} (hm : m.wf = true) (a : Nat)
    (bytes : List Byte) : (m.writeRange a bytes).readRange a bytes.length = bytes := by
  apply List.ext_getElem (by simp)
  intro i h1 h2
  rw [Memory.readRange_getElem, Memory.read_writeRange_inside hm a bytes i h2]

/-- A range apart from a sequence just written reads as before. -/
theorem Memory.readRange_writeRange_apart (m : Memory) (a b n : Nat) (bytes : List Byte)
    (h : b + n ≤ a ∨ a + bytes.length ≤ b) :
    (m.writeRange a bytes).readRange b n = m.readRange b n :=
  Memory.readRange_congr fun i h1 h2 =>
    Memory.read_writeRange_of_outside m a i bytes (by omega)

/-! ### One canonical form per contents -/

theorem Memory.eq_of_read_eq_from {m m' : Memory} {lo : Nat} (hm : Memory.wfFrom lo m = true)
    (hm' : Memory.wfFrom lo m' = true) (h : ∀ a, m.read a = m'.read a) : m = m' := by
  induction m generalizing m' lo with
  | nil =>
    cases m' with
    | nil => rfl
    | cons c m' =>
      obtain ⟨b, u⟩ := c
      have hb := h b
      rw [Memory.read_nil, Memory.read_cons, if_pos rfl] at hb
      exact absurd hb.symm (((Memory.wfFrom_cons _ _ _ _).1 hm').2.1)
  | cons c m ih =>
    obtain ⟨a, v⟩ := c
    obtain ⟨-, hv, hr⟩ := (Memory.wfFrom_cons _ _ _ _).1 hm
    cases m' with
    | nil =>
      have ha := h a
      rw [Memory.read_nil, Memory.read_cons, if_pos rfl] at ha
      exact absurd ha hv
    | cons c' m' =>
      obtain ⟨b, u⟩ := c'
      obtain ⟨-, hu, hr'⟩ := (Memory.wfFrom_cons _ _ _ _).1 hm'
      have hab : a = b := by
        rcases Nat.lt_trichotomy a b with hlt | heq | hgt
        · have ha := h a
          rw [Memory.read_cons, if_pos rfl, Memory.read_cons, if_neg (by omega),
            Memory.read_below_wfFrom hr' (by omega)] at ha
          exact absurd ha hv
        · exact heq
        · have hb := h b
          rw [Memory.read_cons, if_neg (by omega), Memory.read_cons, if_pos rfl,
            Memory.read_below_wfFrom hr (by omega)] at hb
          exact absurd hb.symm hu
      subst hab
      have hvu : v = u := by simpa [Memory.read_cons] using h a
      subst hvu
      rw [ih hr hr' fun x => ?_]
      have hx := h x
      by_cases hxa : x = a
      · rw [hxa, Memory.read_below_wfFrom hr (by omega), Memory.read_below_wfFrom hr' (by omega)]
      · rwa [Memory.read_cons, if_neg hxa, Memory.read_cons, if_neg hxa] at hx

/-- Canonical memories with the same contents are equal as data. -/
theorem Memory.eq_of_read_eq {m m' : Memory} (hm : m.wf = true) (hm' : m'.wf = true)
    (h : ∀ a, m.read a = m'.read a) : m = m' :=
  Memory.eq_of_read_eq_from hm hm' h

end Sys2Proof.Machine
end

