-- ==== Sys2Proof/Laws/State.lean ====
section
/-! SUPPORT. One lemma for each field after each register write, so that no proof unfolds a record update. -/

namespace Sys2Proof.Machine

/-! ### After `setCrc` -/

@[simp] theorem State.setCrc_crc (s : State) (v : Half) : (s.setCrc v).crc = v := rfl
@[simp] theorem State.setCrc_sum (s : State) (v : Half) : (s.setCrc v).sum = s.sum := rfl
@[simp] theorem State.setCrc_tr (s : State) (v : Half) : (s.setCrc v).tr = s.tr := rfl
@[simp] theorem State.setCrc_hr (s : State) (v : Half) : (s.setCrc v).hr = s.hr := rfl
@[simp] theorem State.setCrc_fv (s : State) (v : Half) : (s.setCrc v).fv = s.fv := rfl
@[simp] theorem State.setCrc_smap (s : State) (v : Half) : (s.setCrc v).smap = s.smap := rfl
@[simp] theorem State.setCrc_plain (s : State) (v : Half) : (s.setCrc v).plain = s.plain := rfl
@[simp] theorem State.setCrc_err (s : State) (v : Half) : (s.setCrc v).err = s.err := rfl
@[simp] theorem State.setCrc_eop (s : State) (v : Half) : (s.setCrc v).eop = s.eop := rfl
@[simp] theorem State.setCrc_wlen (s : State) (v : Half) : (s.setCrc v).wlen = s.wlen := rfl
@[simp] theorem State.setCrc_klen (s : State) (v : Half) : (s.setCrc v).klen = s.klen := rfl
@[simp] theorem State.setCrc_w (s : State) (v : Half) : (s.setCrc v).w = s.w := rfl
@[simp] theorem State.setCrc_k (s : State) (v : Half) : (s.setCrc v).k = s.k := rfl
@[simp] theorem State.setCrc_wcap (s : State) (v : Half) : (s.setCrc v).wcap = s.wcap := rfl
@[simp] theorem State.setCrc_cmds (s : State) (v : Half) : (s.setCrc v).cmds = s.cmds := rfl

/-! ### After `setSum` -/

@[simp] theorem State.setSum_crc (s : State) (v : Half) : (s.setSum v).crc = s.crc := rfl
@[simp] theorem State.setSum_sum (s : State) (v : Half) : (s.setSum v).sum = v := rfl
@[simp] theorem State.setSum_tr (s : State) (v : Half) : (s.setSum v).tr = s.tr := rfl
@[simp] theorem State.setSum_hr (s : State) (v : Half) : (s.setSum v).hr = s.hr := rfl
@[simp] theorem State.setSum_fv (s : State) (v : Half) : (s.setSum v).fv = s.fv := rfl
@[simp] theorem State.setSum_smap (s : State) (v : Half) : (s.setSum v).smap = s.smap := rfl
@[simp] theorem State.setSum_plain (s : State) (v : Half) : (s.setSum v).plain = s.plain := rfl
@[simp] theorem State.setSum_err (s : State) (v : Half) : (s.setSum v).err = s.err := rfl
@[simp] theorem State.setSum_eop (s : State) (v : Half) : (s.setSum v).eop = s.eop := rfl
@[simp] theorem State.setSum_wlen (s : State) (v : Half) : (s.setSum v).wlen = s.wlen := rfl
@[simp] theorem State.setSum_klen (s : State) (v : Half) : (s.setSum v).klen = s.klen := rfl
@[simp] theorem State.setSum_w (s : State) (v : Half) : (s.setSum v).w = s.w := rfl
@[simp] theorem State.setSum_k (s : State) (v : Half) : (s.setSum v).k = s.k := rfl
@[simp] theorem State.setSum_wcap (s : State) (v : Half) : (s.setSum v).wcap = s.wcap := rfl
@[simp] theorem State.setSum_cmds (s : State) (v : Half) : (s.setSum v).cmds = s.cmds := rfl

/-! ### After `setTH` -/

@[simp] theorem State.setTH_crc (s : State) (t h : Raw12) : (s.setTH t h).crc = s.crc := rfl
@[simp] theorem State.setTH_sum (s : State) (t h : Raw12) : (s.setTH t h).sum = s.sum := rfl
@[simp] theorem State.setTH_tr (s : State) (t h : Raw12) : (s.setTH t h).tr = t := rfl
@[simp] theorem State.setTH_hr (s : State) (t h : Raw12) : (s.setTH t h).hr = h := rfl
@[simp] theorem State.setTH_fv (s : State) (t h : Raw12) : (s.setTH t h).fv = s.fv := rfl
@[simp] theorem State.setTH_smap (s : State) (t h : Raw12) : (s.setTH t h).smap = s.smap := rfl
@[simp] theorem State.setTH_plain (s : State) (t h : Raw12) : (s.setTH t h).plain = s.plain := rfl
@[simp] theorem State.setTH_err (s : State) (t h : Raw12) : (s.setTH t h).err = s.err := rfl
@[simp] theorem State.setTH_eop (s : State) (t h : Raw12) : (s.setTH t h).eop = s.eop := rfl
@[simp] theorem State.setTH_wlen (s : State) (t h : Raw12) : (s.setTH t h).wlen = s.wlen := rfl
@[simp] theorem State.setTH_klen (s : State) (t h : Raw12) : (s.setTH t h).klen = s.klen := rfl
@[simp] theorem State.setTH_w (s : State) (t h : Raw12) : (s.setTH t h).w = s.w := rfl
@[simp] theorem State.setTH_k (s : State) (t h : Raw12) : (s.setTH t h).k = s.k := rfl
@[simp] theorem State.setTH_wcap (s : State) (t h : Raw12) : (s.setTH t h).wcap = s.wcap := rfl
@[simp] theorem State.setTH_cmds (s : State) (t h : Raw12) : (s.setTH t h).cmds = s.cmds := rfl

/-! ### After `setFv` -/

@[simp] theorem State.setFv_crc (s : State) (v : Word32) : (s.setFv v).crc = s.crc := rfl
@[simp] theorem State.setFv_sum (s : State) (v : Word32) : (s.setFv v).sum = s.sum := rfl
@[simp] theorem State.setFv_tr (s : State) (v : Word32) : (s.setFv v).tr = s.tr := rfl
@[simp] theorem State.setFv_hr (s : State) (v : Word32) : (s.setFv v).hr = s.hr := rfl
@[simp] theorem State.setFv_fv (s : State) (v : Word32) : (s.setFv v).fv = v := rfl
@[simp] theorem State.setFv_smap (s : State) (v : Word32) : (s.setFv v).smap = s.smap := rfl
@[simp] theorem State.setFv_plain (s : State) (v : Word32) : (s.setFv v).plain = s.plain := rfl
@[simp] theorem State.setFv_err (s : State) (v : Word32) : (s.setFv v).err = s.err := rfl
@[simp] theorem State.setFv_eop (s : State) (v : Word32) : (s.setFv v).eop = s.eop := rfl
@[simp] theorem State.setFv_wlen (s : State) (v : Word32) : (s.setFv v).wlen = s.wlen := rfl
@[simp] theorem State.setFv_klen (s : State) (v : Word32) : (s.setFv v).klen = s.klen := rfl
@[simp] theorem State.setFv_w (s : State) (v : Word32) : (s.setFv v).w = s.w := rfl
@[simp] theorem State.setFv_k (s : State) (v : Word32) : (s.setFv v).k = s.k := rfl
@[simp] theorem State.setFv_wcap (s : State) (v : Word32) : (s.setFv v).wcap = s.wcap := rfl
@[simp] theorem State.setFv_cmds (s : State) (v : Word32) : (s.setFv v).cmds = s.cmds := rfl

/-! ### After `setMap` -/

@[simp] theorem State.setMap_crc (s : State) (m : SubstMap) : (s.setMap m).crc = s.crc := rfl
@[simp] theorem State.setMap_sum (s : State) (m : SubstMap) : (s.setMap m).sum = s.sum := rfl
@[simp] theorem State.setMap_tr (s : State) (m : SubstMap) : (s.setMap m).tr = s.tr := rfl
@[simp] theorem State.setMap_hr (s : State) (m : SubstMap) : (s.setMap m).hr = s.hr := rfl
@[simp] theorem State.setMap_fv (s : State) (m : SubstMap) : (s.setMap m).fv = s.fv := rfl
@[simp] theorem State.setMap_smap (s : State) (m : SubstMap) : (s.setMap m).smap = m := rfl
@[simp] theorem State.setMap_plain (s : State) (m : SubstMap) : (s.setMap m).plain = s.plain := rfl
@[simp] theorem State.setMap_err (s : State) (m : SubstMap) : (s.setMap m).err = s.err := rfl
@[simp] theorem State.setMap_eop (s : State) (m : SubstMap) : (s.setMap m).eop = s.eop := rfl
@[simp] theorem State.setMap_wlen (s : State) (m : SubstMap) : (s.setMap m).wlen = s.wlen := rfl
@[simp] theorem State.setMap_klen (s : State) (m : SubstMap) : (s.setMap m).klen = s.klen := rfl
@[simp] theorem State.setMap_w (s : State) (m : SubstMap) : (s.setMap m).w = s.w := rfl
@[simp] theorem State.setMap_k (s : State) (m : SubstMap) : (s.setMap m).k = s.k := rfl
@[simp] theorem State.setMap_wcap (s : State) (m : SubstMap) : (s.setMap m).wcap = s.wcap := rfl
@[simp] theorem State.setMap_cmds (s : State) (m : SubstMap) : (s.setMap m).cmds = s.cmds := rfl

/-! ### After `setPlain` -/

@[simp] theorem State.setPlain_crc (s : State) (p : Bool) : (s.setPlain p).crc = s.crc := rfl
@[simp] theorem State.setPlain_sum (s : State) (p : Bool) : (s.setPlain p).sum = s.sum := rfl
@[simp] theorem State.setPlain_tr (s : State) (p : Bool) : (s.setPlain p).tr = s.tr := rfl
@[simp] theorem State.setPlain_hr (s : State) (p : Bool) : (s.setPlain p).hr = s.hr := rfl
@[simp] theorem State.setPlain_fv (s : State) (p : Bool) : (s.setPlain p).fv = s.fv := rfl
@[simp] theorem State.setPlain_smap (s : State) (p : Bool) : (s.setPlain p).smap = s.smap := rfl
@[simp] theorem State.setPlain_plain (s : State) (p : Bool) : (s.setPlain p).plain = p := rfl
@[simp] theorem State.setPlain_err (s : State) (p : Bool) : (s.setPlain p).err = s.err := rfl
@[simp] theorem State.setPlain_eop (s : State) (p : Bool) : (s.setPlain p).eop = s.eop := rfl
@[simp] theorem State.setPlain_wlen (s : State) (p : Bool) : (s.setPlain p).wlen = s.wlen := rfl
@[simp] theorem State.setPlain_klen (s : State) (p : Bool) : (s.setPlain p).klen = s.klen := rfl
@[simp] theorem State.setPlain_w (s : State) (p : Bool) : (s.setPlain p).w = s.w := rfl
@[simp] theorem State.setPlain_k (s : State) (p : Bool) : (s.setPlain p).k = s.k := rfl
@[simp] theorem State.setPlain_wcap (s : State) (p : Bool) : (s.setPlain p).wcap = s.wcap := rfl
@[simp] theorem State.setPlain_cmds (s : State) (p : Bool) : (s.setPlain p).cmds = s.cmds := rfl

/-! ### After `setStatus` -/

@[simp] theorem State.setStatus_crc (s : State) (e op : Byte) : (s.setStatus e op).crc = s.crc := rfl
@[simp] theorem State.setStatus_sum (s : State) (e op : Byte) : (s.setStatus e op).sum = s.sum := rfl
@[simp] theorem State.setStatus_tr (s : State) (e op : Byte) : (s.setStatus e op).tr = s.tr := rfl
@[simp] theorem State.setStatus_hr (s : State) (e op : Byte) : (s.setStatus e op).hr = s.hr := rfl
@[simp] theorem State.setStatus_fv (s : State) (e op : Byte) : (s.setStatus e op).fv = s.fv := rfl
@[simp] theorem State.setStatus_smap (s : State) (e op : Byte) : (s.setStatus e op).smap = s.smap := rfl
@[simp] theorem State.setStatus_plain (s : State) (e op : Byte) : (s.setStatus e op).plain = s.plain := rfl
@[simp] theorem State.setStatus_err (s : State) (e op : Byte) : (s.setStatus e op).err = e := rfl
@[simp] theorem State.setStatus_eop (s : State) (e op : Byte) : (s.setStatus e op).eop = op := rfl
@[simp] theorem State.setStatus_wlen (s : State) (e op : Byte) : (s.setStatus e op).wlen = s.wlen := rfl
@[simp] theorem State.setStatus_klen (s : State) (e op : Byte) : (s.setStatus e op).klen = s.klen := rfl
@[simp] theorem State.setStatus_w (s : State) (e op : Byte) : (s.setStatus e op).w = s.w := rfl
@[simp] theorem State.setStatus_k (s : State) (e op : Byte) : (s.setStatus e op).k = s.k := rfl
@[simp] theorem State.setStatus_wcap (s : State) (e op : Byte) : (s.setStatus e op).wcap = s.wcap := rfl
@[simp] theorem State.setStatus_cmds (s : State) (e op : Byte) : (s.setStatus e op).cmds = s.cmds := rfl

/-! ### After `setWlen` -/

@[simp] theorem State.setWlen_crc (s : State) (v : Index) : (s.setWlen v).crc = s.crc := rfl
@[simp] theorem State.setWlen_sum (s : State) (v : Index) : (s.setWlen v).sum = s.sum := rfl
@[simp] theorem State.setWlen_tr (s : State) (v : Index) : (s.setWlen v).tr = s.tr := rfl
@[simp] theorem State.setWlen_hr (s : State) (v : Index) : (s.setWlen v).hr = s.hr := rfl
@[simp] theorem State.setWlen_fv (s : State) (v : Index) : (s.setWlen v).fv = s.fv := rfl
@[simp] theorem State.setWlen_smap (s : State) (v : Index) : (s.setWlen v).smap = s.smap := rfl
@[simp] theorem State.setWlen_plain (s : State) (v : Index) : (s.setWlen v).plain = s.plain := rfl
@[simp] theorem State.setWlen_err (s : State) (v : Index) : (s.setWlen v).err = s.err := rfl
@[simp] theorem State.setWlen_eop (s : State) (v : Index) : (s.setWlen v).eop = s.eop := rfl
@[simp] theorem State.setWlen_wlen (s : State) (v : Index) : (s.setWlen v).wlen = v := rfl
@[simp] theorem State.setWlen_klen (s : State) (v : Index) : (s.setWlen v).klen = s.klen := rfl
@[simp] theorem State.setWlen_w (s : State) (v : Index) : (s.setWlen v).w = s.w := rfl
@[simp] theorem State.setWlen_k (s : State) (v : Index) : (s.setWlen v).k = s.k := rfl
@[simp] theorem State.setWlen_wcap (s : State) (v : Index) : (s.setWlen v).wcap = s.wcap := rfl
@[simp] theorem State.setWlen_cmds (s : State) (v : Index) : (s.setWlen v).cmds = s.cmds := rfl

/-! ### After `setKlen` -/

@[simp] theorem State.setKlen_crc (s : State) (v : BitVec 6) : (s.setKlen v).crc = s.crc := rfl
@[simp] theorem State.setKlen_sum (s : State) (v : BitVec 6) : (s.setKlen v).sum = s.sum := rfl
@[simp] theorem State.setKlen_tr (s : State) (v : BitVec 6) : (s.setKlen v).tr = s.tr := rfl
@[simp] theorem State.setKlen_hr (s : State) (v : BitVec 6) : (s.setKlen v).hr = s.hr := rfl
@[simp] theorem State.setKlen_fv (s : State) (v : BitVec 6) : (s.setKlen v).fv = s.fv := rfl
@[simp] theorem State.setKlen_smap (s : State) (v : BitVec 6) : (s.setKlen v).smap = s.smap := rfl
@[simp] theorem State.setKlen_plain (s : State) (v : BitVec 6) : (s.setKlen v).plain = s.plain := rfl
@[simp] theorem State.setKlen_err (s : State) (v : BitVec 6) : (s.setKlen v).err = s.err := rfl
@[simp] theorem State.setKlen_eop (s : State) (v : BitVec 6) : (s.setKlen v).eop = s.eop := rfl
@[simp] theorem State.setKlen_wlen (s : State) (v : BitVec 6) : (s.setKlen v).wlen = s.wlen := rfl
@[simp] theorem State.setKlen_klen (s : State) (v : BitVec 6) : (s.setKlen v).klen = v := rfl
@[simp] theorem State.setKlen_w (s : State) (v : BitVec 6) : (s.setKlen v).w = s.w := rfl
@[simp] theorem State.setKlen_k (s : State) (v : BitVec 6) : (s.setKlen v).k = s.k := rfl
@[simp] theorem State.setKlen_wcap (s : State) (v : BitVec 6) : (s.setKlen v).wcap = s.wcap := rfl
@[simp] theorem State.setKlen_cmds (s : State) (v : BitVec 6) : (s.setKlen v).cmds = s.cmds := rfl

/-! ### After `setW` -/

@[simp] theorem State.setW_crc (s : State) (m : Memory) : (s.setW m).crc = s.crc := rfl
@[simp] theorem State.setW_sum (s : State) (m : Memory) : (s.setW m).sum = s.sum := rfl
@[simp] theorem State.setW_tr (s : State) (m : Memory) : (s.setW m).tr = s.tr := rfl
@[simp] theorem State.setW_hr (s : State) (m : Memory) : (s.setW m).hr = s.hr := rfl
@[simp] theorem State.setW_fv (s : State) (m : Memory) : (s.setW m).fv = s.fv := rfl
@[simp] theorem State.setW_smap (s : State) (m : Memory) : (s.setW m).smap = s.smap := rfl
@[simp] theorem State.setW_plain (s : State) (m : Memory) : (s.setW m).plain = s.plain := rfl
@[simp] theorem State.setW_err (s : State) (m : Memory) : (s.setW m).err = s.err := rfl
@[simp] theorem State.setW_eop (s : State) (m : Memory) : (s.setW m).eop = s.eop := rfl
@[simp] theorem State.setW_wlen (s : State) (m : Memory) : (s.setW m).wlen = s.wlen := rfl
@[simp] theorem State.setW_klen (s : State) (m : Memory) : (s.setW m).klen = s.klen := rfl
@[simp] theorem State.setW_w (s : State) (m : Memory) : (s.setW m).w = m := rfl
@[simp] theorem State.setW_k (s : State) (m : Memory) : (s.setW m).k = s.k := rfl
@[simp] theorem State.setW_wcap (s : State) (m : Memory) : (s.setW m).wcap = s.wcap := rfl
@[simp] theorem State.setW_cmds (s : State) (m : Memory) : (s.setW m).cmds = s.cmds := rfl

/-! ### After `setK` -/

@[simp] theorem State.setK_crc (s : State) (m : Memory) : (s.setK m).crc = s.crc := rfl
@[simp] theorem State.setK_sum (s : State) (m : Memory) : (s.setK m).sum = s.sum := rfl
@[simp] theorem State.setK_tr (s : State) (m : Memory) : (s.setK m).tr = s.tr := rfl
@[simp] theorem State.setK_hr (s : State) (m : Memory) : (s.setK m).hr = s.hr := rfl
@[simp] theorem State.setK_fv (s : State) (m : Memory) : (s.setK m).fv = s.fv := rfl
@[simp] theorem State.setK_smap (s : State) (m : Memory) : (s.setK m).smap = s.smap := rfl
@[simp] theorem State.setK_plain (s : State) (m : Memory) : (s.setK m).plain = s.plain := rfl
@[simp] theorem State.setK_err (s : State) (m : Memory) : (s.setK m).err = s.err := rfl
@[simp] theorem State.setK_eop (s : State) (m : Memory) : (s.setK m).eop = s.eop := rfl
@[simp] theorem State.setK_wlen (s : State) (m : Memory) : (s.setK m).wlen = s.wlen := rfl
@[simp] theorem State.setK_klen (s : State) (m : Memory) : (s.setK m).klen = s.klen := rfl
@[simp] theorem State.setK_w (s : State) (m : Memory) : (s.setK m).w = s.w := rfl
@[simp] theorem State.setK_k (s : State) (m : Memory) : (s.setK m).k = m := rfl
@[simp] theorem State.setK_wcap (s : State) (m : Memory) : (s.setK m).wcap = s.wcap := rfl
@[simp] theorem State.setK_cmds (s : State) (m : Memory) : (s.setK m).cmds = s.cmds := rfl

/-! ### After `setCmds` -/

@[simp] theorem State.setCmds_crc (s : State) (c : List CmdWord) : (s.setCmds c).crc = s.crc := rfl
@[simp] theorem State.setCmds_sum (s : State) (c : List CmdWord) : (s.setCmds c).sum = s.sum := rfl
@[simp] theorem State.setCmds_tr (s : State) (c : List CmdWord) : (s.setCmds c).tr = s.tr := rfl
@[simp] theorem State.setCmds_hr (s : State) (c : List CmdWord) : (s.setCmds c).hr = s.hr := rfl
@[simp] theorem State.setCmds_fv (s : State) (c : List CmdWord) : (s.setCmds c).fv = s.fv := rfl
@[simp] theorem State.setCmds_smap (s : State) (c : List CmdWord) : (s.setCmds c).smap = s.smap := rfl
@[simp] theorem State.setCmds_plain (s : State) (c : List CmdWord) : (s.setCmds c).plain = s.plain := rfl
@[simp] theorem State.setCmds_err (s : State) (c : List CmdWord) : (s.setCmds c).err = s.err := rfl
@[simp] theorem State.setCmds_eop (s : State) (c : List CmdWord) : (s.setCmds c).eop = s.eop := rfl
@[simp] theorem State.setCmds_wlen (s : State) (c : List CmdWord) : (s.setCmds c).wlen = s.wlen := rfl
@[simp] theorem State.setCmds_klen (s : State) (c : List CmdWord) : (s.setCmds c).klen = s.klen := rfl
@[simp] theorem State.setCmds_w (s : State) (c : List CmdWord) : (s.setCmds c).w = s.w := rfl
@[simp] theorem State.setCmds_k (s : State) (c : List CmdWord) : (s.setCmds c).k = s.k := rfl
@[simp] theorem State.setCmds_wcap (s : State) (c : List CmdWord) : (s.setCmds c).wcap = s.wcap := rfl
@[simp] theorem State.setCmds_cmds (s : State) (c : List CmdWord) : (s.setCmds c).cmds = c := rfl

/-! ### After `resetRegs` -/

@[simp] theorem State.resetRegs_crc (s : State) : s.resetRegs.crc = 0xFFFF#16 := rfl
@[simp] theorem State.resetRegs_sum (s : State) : s.resetRegs.sum = 0#16 := rfl
@[simp] theorem State.resetRegs_tr (s : State) : s.resetRegs.tr = 0#12 := rfl
@[simp] theorem State.resetRegs_hr (s : State) : s.resetRegs.hr = 0#12 := rfl
@[simp] theorem State.resetRegs_fv (s : State) : s.resetRegs.fv = 0#32 := rfl
@[simp] theorem State.resetRegs_smap (s : State) : s.resetRegs.smap = SubstMap.cleared := rfl
@[simp] theorem State.resetRegs_plain (s : State) : s.resetRegs.plain = false := rfl
@[simp] theorem State.resetRegs_err (s : State) : s.resetRegs.err = 0#8 := rfl
@[simp] theorem State.resetRegs_eop (s : State) : s.resetRegs.eop = 0#8 := rfl
@[simp] theorem State.resetRegs_wlen (s : State) : s.resetRegs.wlen = 0#24 := rfl
@[simp] theorem State.resetRegs_klen (s : State) : s.resetRegs.klen = 0#6 := rfl
@[simp] theorem State.resetRegs_w (s : State) : s.resetRegs.w = s.w := rfl
@[simp] theorem State.resetRegs_k (s : State) : s.resetRegs.k = s.k := rfl
@[simp] theorem State.resetRegs_wcap (s : State) : s.resetRegs.wcap = s.wcap := rfl
@[simp] theorem State.resetRegs_cmds (s : State) : s.resetRegs.cmds = s.cmds := rfl

/-! ### After `clearStatus` -/

@[simp] theorem State.clearStatus_crc (s : State) : s.clearStatus.crc = s.crc := rfl
@[simp] theorem State.clearStatus_sum (s : State) : s.clearStatus.sum = s.sum := rfl
@[simp] theorem State.clearStatus_tr (s : State) : s.clearStatus.tr = s.tr := rfl
@[simp] theorem State.clearStatus_hr (s : State) : s.clearStatus.hr = s.hr := rfl
@[simp] theorem State.clearStatus_fv (s : State) : s.clearStatus.fv = s.fv := rfl
@[simp] theorem State.clearStatus_smap (s : State) : s.clearStatus.smap = s.smap := rfl
@[simp] theorem State.clearStatus_plain (s : State) : s.clearStatus.plain = s.plain := rfl
@[simp] theorem State.clearStatus_err (s : State) : s.clearStatus.err = 0#8 := rfl
@[simp] theorem State.clearStatus_eop (s : State) : s.clearStatus.eop = 0#8 := rfl
@[simp] theorem State.clearStatus_wlen (s : State) : s.clearStatus.wlen = s.wlen := rfl
@[simp] theorem State.clearStatus_klen (s : State) : s.clearStatus.klen = s.klen := rfl
@[simp] theorem State.clearStatus_w (s : State) : s.clearStatus.w = s.w := rfl
@[simp] theorem State.clearStatus_k (s : State) : s.clearStatus.k = s.k := rfl
@[simp] theorem State.clearStatus_wcap (s : State) : s.clearStatus.wcap = s.wcap := rfl
@[simp] theorem State.clearStatus_cmds (s : State) : s.clearStatus.cmds = s.cmds := rfl

/-! ### The valid bytes after a write of another register -/

@[simp] theorem State.setCrc_wBytes (s : State) (v : Half) : (s.setCrc v).wBytes = s.wBytes := rfl
@[simp] theorem State.setCrc_kBytes (s : State) (v : Half) : (s.setCrc v).kBytes = s.kBytes := rfl
@[simp] theorem State.setSum_wBytes (s : State) (v : Half) : (s.setSum v).wBytes = s.wBytes := rfl
@[simp] theorem State.setSum_kBytes (s : State) (v : Half) : (s.setSum v).kBytes = s.kBytes := rfl
@[simp] theorem State.setTH_wBytes (s : State) (t h : Raw12) : (s.setTH t h).wBytes = s.wBytes := rfl
@[simp] theorem State.setTH_kBytes (s : State) (t h : Raw12) : (s.setTH t h).kBytes = s.kBytes := rfl
@[simp] theorem State.setFv_wBytes (s : State) (v : Word32) : (s.setFv v).wBytes = s.wBytes := rfl
@[simp] theorem State.setFv_kBytes (s : State) (v : Word32) : (s.setFv v).kBytes = s.kBytes := rfl
@[simp] theorem State.setMap_wBytes (s : State) (m : SubstMap) : (s.setMap m).wBytes = s.wBytes := rfl
@[simp] theorem State.setMap_kBytes (s : State) (m : SubstMap) : (s.setMap m).kBytes = s.kBytes := rfl
@[simp] theorem State.setPlain_wBytes (s : State) (p : Bool) : (s.setPlain p).wBytes = s.wBytes := rfl
@[simp] theorem State.setPlain_kBytes (s : State) (p : Bool) : (s.setPlain p).kBytes = s.kBytes := rfl
@[simp] theorem State.setStatus_wBytes (s : State) (e op : Byte) : (s.setStatus e op).wBytes = s.wBytes := rfl
@[simp] theorem State.setStatus_kBytes (s : State) (e op : Byte) : (s.setStatus e op).kBytes = s.kBytes := rfl
@[simp] theorem State.setWlen_kBytes (s : State) (v : Index) : (s.setWlen v).kBytes = s.kBytes := rfl
@[simp] theorem State.setKlen_wBytes (s : State) (v : BitVec 6) : (s.setKlen v).wBytes = s.wBytes := rfl
@[simp] theorem State.setW_kBytes (s : State) (m : Memory) : (s.setW m).kBytes = s.kBytes := rfl
@[simp] theorem State.setK_wBytes (s : State) (m : Memory) : (s.setK m).wBytes = s.wBytes := rfl
@[simp] theorem State.setCmds_wBytes (s : State) (c : List CmdWord) : (s.setCmds c).wBytes = s.wBytes := rfl
@[simp] theorem State.setCmds_kBytes (s : State) (c : List CmdWord) : (s.setCmds c).kBytes = s.kBytes := rfl

end Sys2Proof.Machine
end

