-- ==== Sys2Proof/Laws/Ops.lean ====
section
/-! SUPPORT. For each shared operation, once, everything it can do: when its check passes, when it fails, and
what a next state it answers is. -/

namespace Sys2Proof.Machine

/-! ### Taking an error -/

theorem raise_eq (e : ErrCode) (op : Byte) (s : State) :
    raise e op s = .next (s.setStatus e.code op) := rfl

/-- No error has code 0: an error taken is pending. -/
theorem ErrCode.code_ne_zero (e : ErrCode) : e.code ≠ 0#8 := by cases e <;> decide

/-- Every code is one of 1 to 8. -/
theorem ErrCode.code_le (e : ErrCode) : e.code.toNat ≤ 8 := by cases e <;> decide

theorem ErrCode.code_injective {e e' : ErrCode} (h : e.code = e'.code) : e = e' := by
  cases e <;> cases e' <;> first | rfl | exact absurd h (by decide)

/-! ### `need` and `room` -/

theorem need_pass {op : Byte} {a n : Nat} {s : State} {rest : Out} (h : a + n ≤ s.wlen.toNat) :
    need op a n s rest = rest := if_neg (by omega)

theorem need_fail {op : Byte} {a n : Nat} {s : State} {rest : Out} (h : s.wlen.toNat < a + n) :
    need op a n s rest = .next (s.setStatus ErrCode.bufferUnderrun.code op) := if_pos h

/-- A next state of `need` is the error taken, or the rest's. -/
theorem need_next {op : Byte} {a n : Nat} {s t : State} {rest : Out} :
    need op a n s rest = .next t ↔
      (s.wlen.toNat < a + n ∧ s.setStatus ErrCode.bufferUnderrun.code op = t) ∨
        (a + n ≤ s.wlen.toNat ∧ rest = .next t) := by
  unfold need raise
  split
  · next h => simp [h, Nat.not_le.2 h]
  · next h => simp [h, Nat.not_lt.1 h]

theorem room_pass {op : Byte} {n : Nat} {s : State} {rest : Out}
    (h : s.wlen.toNat + n ≤ s.wcap.toNat) : room op n s rest = rest := if_neg (by omega)

theorem room_fail {op : Byte} {n : Nat} {s : State} {rest : Out}
    (h : s.wcap.toNat < s.wlen.toNat + n) :
    room op n s rest = .next (s.setStatus ErrCode.bufferOverflow.code op) := if_pos h

/-- A next state of `room` is the error taken, or the rest's. -/
theorem room_next {op : Byte} {n : Nat} {s t : State} {rest : Out} :
    room op n s rest = .next t ↔
      (s.wcap.toNat < s.wlen.toNat + n ∧ s.setStatus ErrCode.bufferOverflow.code op = t) ∨
        (s.wlen.toNat + n ≤ s.wcap.toNat ∧ rest = .next t) := by
  unfold room raise
  split
  · next h => simp [h, Nat.not_le.2 h]
  · next h => simp [h, Nat.not_lt.1 h]

/-! ### Accesses to `W` -/

theorem accessW_pass {a n : Nat} {s : State} {rest : Out} (h : a + n ≤ s.wcap.toNat) :
    accessW a n s rest = rest := if_neg (by omega)

theorem accessW_fail {a n : Nat} {s : State} {rest : Out} (h : s.wcap.toNat < a + n) :
    accessW a n s rest = .fault (.outsideWorkingBuffer a n) := if_pos h

/-- A next state of an access is the rest's, and the access lies inside `W`. -/
theorem accessW_next {a n : Nat} {s t : State} {rest : Out} :
    accessW a n s rest = .next t ↔ a + n ≤ s.wcap.toNat ∧ rest = .next t := by
  unfold accessW
  split
  · next h => simp [Nat.not_le.2 h]
  · next h => simp [Nat.not_lt.1 h]

theorem readW_pass {a n : Nat} {s : State} {rest : List Byte → Out} (h : a + n ≤ s.wcap.toNat) :
    readW a n s rest = rest (s.w.readRange a n) := accessW_pass h

theorem readW_fail {a n : Nat} {s : State} {rest : List Byte → Out} (h : s.wcap.toNat < a + n) :
    readW a n s rest = .fault (.outsideWorkingBuffer a n) := accessW_fail h

/-- A next state of a read is the rest's on the bytes read, and the read lies inside `W`. -/
theorem readW_next {a n : Nat} {s t : State} {rest : List Byte → Out} :
    readW a n s rest = .next t ↔ a + n ≤ s.wcap.toNat ∧ rest (s.w.readRange a n) = .next t :=
  accessW_next

/-! ### The cipher's and the unpacker's checks -/

theorem keyOk_pass {op : Byte} {s : State} {rest : Out}
    (h : s.klen.toNat = 16 ∨ s.klen.toNat = 32) : keyOk op s rest = rest := if_neg (by omega)

theorem keyOk_fail {op : Byte} {s : State} {rest : Out}
    (h : s.klen.toNat ≠ 16 ∧ s.klen.toNat ≠ 32) :
    keyOk op s rest = .next (s.setStatus ErrCode.cipherLengthInvalid.code op) := if_pos h

/-- A next state of `keyok()` is the error taken, or the rest's. -/
theorem keyOk_next {op : Byte} {s t : State} {rest : Out} :
    keyOk op s rest = .next t ↔
      ((s.klen.toNat ≠ 16 ∧ s.klen.toNat ≠ 32) ∧
          s.setStatus ErrCode.cipherLengthInvalid.code op = t) ∨
        ((s.klen.toNat = 16 ∨ s.klen.toNat = 32) ∧ rest = .next t) := by
  unfold keyOk raise
  split
  · next h => simp [h.1, h.2]
  · next h =>
    have : s.klen.toNat = 16 ∨ s.klen.toNat = 32 := by omega
    simp only [h, false_and, false_or, this, true_and]

theorem wholeBlocks_pass {op : Byte} {len : Nat} {s : State} {rest : Out} (h : len % 16 = 0) :
    wholeBlocks op len s rest = rest := if_neg (not_not.2 h)

theorem wholeBlocks_fail {op : Byte} {len : Nat} {s : State} {rest : Out} (h : len % 16 ≠ 0) :
    wholeBlocks op len s rest = .next (s.setStatus ErrCode.cipherLengthInvalid.code op) := if_pos h

/-- A next state of the length check is the error taken, or the rest's. -/
theorem wholeBlocks_next {op : Byte} {len : Nat} {s t : State} {rest : Out} :
    wholeBlocks op len s rest = .next t ↔
      (len % 16 ≠ 0 ∧ s.setStatus ErrCode.cipherLengthInvalid.code op = t) ∨
        (len % 16 = 0 ∧ rest = .next t) := by
  unfold wholeBlocks raise Config.block
  split
  · next h => simp [h]
  · next h => simp [not_not.1 h]

theorem widthOk_pass {op : Byte} {n : Index} {s : State} {rest : Out} (h : legalWidth n = true) :
    widthOk op n s rest = rest := if_pos h

theorem widthOk_fail {op : Byte} {n : Index} {s : State} {rest : Out} (h : legalWidth n = false) :
    widthOk op n s rest = .next (s.setStatus ErrCode.illegalCommand.code op) := by
  simp [widthOk, h, raise]

/-- A next state of the width check is the error taken, or the rest's. -/
theorem widthOk_next {op : Byte} {n : Index} {s t : State} {rest : Out} :
    widthOk op n s rest = .next t ↔
      (legalWidth n = false ∧ s.setStatus ErrCode.illegalCommand.code op = t) ∨
        (legalWidth n = true ∧ rest = .next t) := by
  cases h : legalWidth n
  · simp [widthOk_fail h]
  · simp [widthOk_pass h]

/-! ### Writes of `W` -/

@[simp] theorem State.putW_w (s : State) (a : Nat) (bytes : List Byte) :
    (s.putW a bytes).w = s.w.writeRange a bytes := rfl

@[simp] theorem State.appendW_w (s : State) (bytes : List Byte) :
    (s.appendW bytes).w = s.w.writeRange s.wlen.toNat bytes := rfl

@[simp] theorem State.replaceW_w (s : State) (bytes : List Byte) :
    (s.replaceW bytes).w = s.w.writeRange 0 bytes := rfl

@[simp] theorem State.mapBlocksW_w (s : State) (f : List Byte → List Byte) (a len : Nat) :
    (s.mapBlocksW f a len).w = mapBlocks f a (len / 16) s.w := rfl

/-- `MemWrite` changes `W` alone. -/
theorem State.putW_eq (s : State) (a : Nat) (bytes : List Byte) :
    s.putW a bytes = { s with w := s.w.writeRange a bytes } := rfl

/-- The append changes `W` and `WLEN` alone. -/
theorem State.appendW_eq (s : State) (bytes : List Byte) :
    s.appendW bytes =
      { s with
        w := s.w.writeRange s.wlen.toNat bytes
        wlen := s.wlen + BitVec.ofNat 24 bytes.length } := rfl

/-- The replacement changes `W` and `WLEN` alone. -/
theorem State.replaceW_eq (s : State) (bytes : List Byte) :
    s.replaceW bytes =
      { s with w := s.w.writeRange 0 bytes, wlen := BitVec.ofNat 24 bytes.length } := rfl

/-- An append that fits makes `WLEN` the exact sum. -/
theorem State.appendW_wlen_toNat (s : State) (bytes : List Byte)
    (h : s.wlen.toNat + bytes.length ≤ s.wcap.toNat) :
    (s.appendW bytes).wlen.toNat = s.wlen.toNat + bytes.length := by
  have := s.wcap.isLt
  simp only [State.appendW, State.setWlen_wlen, BitVec.toNat_add, BitVec.toNat_ofNat]
  omega

/-- An append that fits puts its bytes after the valid ones. -/
theorem State.appendW_wBytes (s : State) (bytes : List Byte) (hw : s.w.wf = true)
    (h : s.wlen.toNat + bytes.length ≤ s.wcap.toNat) :
    (s.appendW bytes).wBytes = s.wBytes ++ bytes := by
  unfold State.wBytes
  rw [State.appendW_wlen_toNat s bytes h, Memory.readRange_add, State.appendW_w, Nat.zero_add,
    Memory.readRange_writeRange_self hw,
    Memory.readRange_writeRange_apart _ _ _ _ _ (by omega)]

/-- A replacement that fits makes the valid bytes the new ones. -/
theorem State.replaceW_wBytes (s : State) (bytes : List Byte) (hw : s.w.wf = true)
    (h : bytes.length < 2 ^ 24) : (s.replaceW bytes).wBytes = bytes := by
  have : (s.replaceW bytes).wlen.toNat = bytes.length := by
    simp only [State.replaceW, State.setWlen_wlen, BitVec.toNat_ofNat]
    omega
  unfold State.wBytes
  rw [this, State.replaceW_w, Memory.readRange_writeRange_self hw]

@[simp] theorem State.wBytes_length (s : State) : s.wBytes.length = s.wlen.toNat := by
  simp [State.wBytes]

@[simp] theorem State.kBytes_length (s : State) : s.kBytes.length = s.klen.toNat := by
  simp [State.kBytes]

/-- A range inside the valid bytes, as part of their sequence. -/
theorem State.wBytes_drop_take (s : State) (off len : Nat) (h : off + len ≤ s.wlen.toNat) :
    (s.wBytes.drop off).take len = s.w.readRange off len := by
  rw [State.wBytes, Memory.readRange_drop_take _ _ _ _ _ h, Nat.zero_add]

/-! ### The block loop -/

/-- Every block function the unit uses gives 16 bytes. -/
theorem cipher_length (key block : List Byte) : (cipher key block).length = 16 := rfl

theorem invCipher_length (key block : List Byte) : (invCipher key block).length = 16 := rfl

/-- The block loop keeps the canonical form. -/
theorem mapBlocks_wf (f : List Byte → List Byte) (a n : Nat) {m : Memory} (hm : m.wf = true) :
    (mapBlocks f a n m).wf = true := by
  induction n generalizing a m with
  | zero => exact hm
  | succ n ih => exact ih _ (Memory.writeRange_wf hm _ _)

/-- The block loop leaves every index outside its blocks as it was. -/
theorem mapBlocks_read_outside (f : List Byte → List Byte) (hf : ∀ b, (f b).length = 16)
    (a n b : Nat) (m : Memory) (h : b < a ∨ a + 16 * n ≤ b) :
    (mapBlocks f a n m).read b = m.read b := by
  induction n generalizing a m with
  | zero => rfl
  | succ n ih =>
    unfold mapBlocks Config.block
    rw [ih (a + 16) _ (by omega), Memory.read_writeRange_of_outside _ _ _ _ (by rw [hf]; omega)]

/-- The block loop leaves no cell past the capacity when its blocks lie below it. -/
theorem mapBlocks_below (f : List Byte → List Byte) (hf : ∀ b, (f b).length = 16)
    (a n cap : Nat) {m : Memory} (h : a + 16 * n ≤ cap) (hm : m.below cap = true) :
    (mapBlocks f a n m).below cap = true := by
  induction n generalizing a m with
  | zero => exact hm
  | succ n ih =>
    unfold mapBlocks Config.block
    exact ih (a + 16) (by omega) (Memory.writeRange_below (by rw [hf]; omega) hm)

/-- Block `j` of the loop's result is `f` of block `j` before. -/
theorem mapBlocks_block (f : List Byte → List Byte) (hf : ∀ b, (f b).length = 16)
    (a n j : Nat) {m : Memory} (hm : m.wf = true) (hj : j < n) :
    (mapBlocks f a n m).readRange (a + 16 * j) 16 = f (m.readRange (a + 16 * j) 16) := by
  induction n generalizing a j m with
  | zero => omega
  | succ n ih =>
    unfold mapBlocks Config.block
    cases j with
    | zero =>
      rw [Memory.readRange_congr (m := m.writeRange a (f (m.readRange a 16)))
        (fun i h1 h2 => mapBlocks_read_outside f hf (a + 16) n i _ (by omega))]
      have := Memory.readRange_writeRange_self hm a (f (m.readRange a 16))
      rw [hf] at this
      simpa using this
    | succ j =>
      have := ih (a + 16) j (Memory.writeRange_wf hm a (f (m.readRange a 16))) (by omega)
      rw [show a + 16 * (j + 1) = a + 16 + 16 * j by omega, this,
        Memory.readRange_writeRange_apart _ _ _ _ _ (by rw [hf]; omega)]

end Sys2Proof.Machine
end

