-- ==== Sys2Proof/Laws/PerInstr.lean ====
section
/-! SUPPORT. The fields of an encoded word, per instruction: the bits the encoder puts into `op`, `m`, `len` and
`off` are the bits the decoder's field functions read back (30_encoding.md R70). -/

namespace Sys2Proof

theorem opField_packFields (op m : Byte) (len off : Index) :
    opField (packFields op m len off) = op := by
  apply BitVec.eq_of_getLsbD_eq
  intro i hi
  simp only [opField, packFields, BitVec.getLsbD_extractLsb', BitVec.getLsbD_append]
  simp [hi, show ¬(56 + i < 24) by omega, show ¬(56 + i - 24 < 24) by omega,
    show ¬(56 + i - 24 - 24 < 8) by omega, show 56 + i - 24 - 24 - 8 = i by omega]

theorem mField_packFields (op m : Byte) (len off : Index) :
    mField (packFields op m len off) = m := by
  apply BitVec.eq_of_getLsbD_eq
  intro i hi
  simp only [mField, packFields, BitVec.getLsbD_extractLsb', BitVec.getLsbD_append]
  simp [hi, show ¬(48 + i < 24) by omega, show ¬(48 + i - 24 < 24) by omega,
    show 48 + i - 24 - 24 = i by omega]

theorem lenField_packFields (op m : Byte) (len off : Index) :
    lenField (packFields op m len off) = len := by
  apply BitVec.eq_of_getLsbD_eq
  intro i hi
  simp only [lenField, packFields, BitVec.getLsbD_extractLsb', BitVec.getLsbD_append]
  simp [hi, show ¬(24 + i < 24) by omega, show 24 + i - 24 = i by omega]

theorem offField_packFields (op m : Byte) (len off : Index) :
    offField (packFields op m len off) = off := by
  apply BitVec.eq_of_getLsbD_eq
  intro i hi
  simp only [offField, packFields, BitVec.getLsbD_extractLsb', BitVec.getLsbD_append]
  simp [hi]

/-- A word is its four fields (30_encoding.md R70). -/
theorem packFields_fields (w : CmdWord) :
    packFields (opField w) (mField w) (lenField w) (offField w) = w := by
  apply BitVec.eq_of_getLsbD_eq
  intro i hi
  simp only [opField, mField, lenField, offField, packFields, BitVec.getLsbD_extractLsb',
    BitVec.getLsbD_append]
  by_cases h1 : i < 24
  · simp [h1]
  · by_cases h2 : i - 24 < 24
    · simp [h1, h2, show 24 + (i - 24) = i by omega]
    · by_cases h3 : i - 24 - 24 < 8
      · simp [h1, h2, h3, show 48 + (i - 24 - 24) = i by omega]
      · simp [h1, h2, h3, show i - 24 - 24 - 8 < 8 by omega,
          show 56 + (i - 24 - 24 - 8) = i by omega]

/-- The immediate of format I survives its field (30_encoding.md R71). -/
theorem immOfOff_offOfImm (imm : Byte) : immOfOff (offOfImm imm) = imm := by
  apply BitVec.eq_of_getLsbD_eq
  intro i hi
  simp [immOfOff, offOfImm, hi]
  omega

/-- The byte order survives its field (30_encoding.md R73). -/
theorem orderOfM_mOfOrder (e : ByteOrder) : orderOfM (mOfOrder e) = some e := by cases e <;> rfl

theorem getLsbD_lenOfPair (t h : Raw12) (i : Nat) :
    (lenOfPair t h).getLsbD i = if i < 12 then h.getLsbD i else t.getLsbD (i - 12) :=
  BitVec.getLsbD_append

/-- `T` survives its field (30_encoding.md R71). -/
theorem tOfLen_lenOfPair (t h : Raw12) : tOfLen (lenOfPair t h) = t := by
  apply BitVec.eq_of_getLsbD_eq
  intro i hi
  simp [tOfLen, getLsbD_lenOfPair, hi]

/-- `H` survives its field (30_encoding.md R71). -/
theorem hOfLen_lenOfPair (t h : Raw12) : hOfLen (lenOfPair t h) = h := by
  apply BitVec.eq_of_getLsbD_eq
  intro i hi
  simp [hOfLen, getLsbD_lenOfPair, hi]

namespace Laws.EncodedFields

/-- The decoder's field functions read back from an instruction's word the fields it was made of. -/
def Statement (i : Instr) : Prop :=
  opField (encode i) = opcodeOf i ∧ mField (encode i) = mFieldOf i ∧
    lenField (encode i) = lenFieldOf i ∧ offField (encode i) = offFieldOf i

theorem of_packFields (i : Instr) : Statement i :=
  ⟨opField_packFields _ _ _ _, mField_packFields _ _ _ _, lenField_packFields _ _ _ _,
    offField_packFields _ _ _ _⟩

theorem nop : Statement (.nop) := of_packFields _
theorem rst : Statement (.rst) := of_packFields _
theorem stClr : Statement (.stClr) := of_packFields _
theorem bufClr : Statement (.bufClr) := of_packFields _
theorem bufPush (imm : Byte) : Statement (.bufPush imm) := of_packFields _
theorem keyClr : Statement (.keyClr) := of_packFields _
theorem keyPush (imm : Byte) : Statement (.keyPush imm) := of_packFields _
theorem sumClr : Statement (.sumClr) := of_packFields _
theorem sumByte (imm : Byte) : Statement (.sumByte imm) := of_packFields _
theorem sumRng (off len : Index) : Statement (.sumRng off len) := of_packFields _
theorem sumChk (off len : Index) : Statement (.sumChk off len) := of_packFields _
theorem sumApp (off : Index) : Statement (.sumApp off) := of_packFields _
theorem crcInit : Statement (.crcInit) := of_packFields _
theorem crcByte (imm : Byte) : Statement (.crcByte imm) := of_packFields _
theorem crcRng (off len : Index) : Statement (.crcRng off len) := of_packFields _
theorem crcChk (off len : Index) : Statement (.crcChk off len) := of_packFields _
theorem crcApp (off : Index) : Statement (.crcApp off) := of_packFields _
theorem aesEncb (off : Index) : Statement (.aesEncb off) := of_packFields _
theorem aesDecb (off : Index) : Statement (.aesDecb off) := of_packFields _
theorem aesEnc (off len : Index) : Statement (.aesEnc off len) := of_packFields _
theorem aesDec (off len : Index) : Statement (.aesDec off len) := of_packFields _
theorem aesPad (off : Index) : Statement (.aesPad off) := of_packFields _
theorem aesUnpad (off : Index) : Statement (.aesUnpad off) := of_packFields _
theorem mrkTst (off : Index) : Statement (.mrkTst off) := of_packFields _
theorem aesDecc (off len : Index) : Statement (.aesDecc off len) := of_packFields _
theorem uneClr : Statement (.uneClr) := of_packFields _
theorem uneMap (off : Index) : Statement (.uneMap off) := of_packFields _
theorem uneSub (off len : Index) : Statement (.uneSub off len) := of_packFields _
theorem uneRun : Statement (.uneRun) := of_packFields _
theorem unpTh (e : ByteOrder) (off : Index) : Statement (.unpTh e off) := of_packFields _
theorem pckTh (e : ByteOrder) (t h : Raw12) : Statement (.pckTh e t h) := of_packFields _
theorem fldU (e : ByteOrder) (off n : Index) : Statement (.fldU e off n) := of_packFields _
theorem fldS (e : ByteOrder) (off n : Index) : Statement (.fldS e off n) := of_packFields _

end Laws.EncodedFields

end Sys2Proof
end

