-- ==== Sys2Proof/Tests/Slice0.lean ====
section
/-! SUPPORT. Our own tests. Expected results come from the spec: the vectors of 95_test_vectors.md (V…), the
encoding examples of 30_encoding.md section 7 and hand calculation from the cited rule. Then one
witness per statement with hypotheses. -/

namespace Sys2Proof.Tests

open Sys2Proof.Machine

/-! ### Helpers -/

/-- Bytes from numbers. -/
def bytesOf (l : List Nat) : List Byte := l.map (BitVec.ofNat 8)

/-- The reset state with `W` and `K` loaded and the capacity `cap`. -/
def loaded (cap : Nat) (w k : List Nat) : State :=
  { State.reset with
    w := Memory.writeRange [] 0 (bytesOf w), wlen := BitVec.ofNat 24 w.length
    k := Memory.writeRange [] 0 (bytesOf k), klen := BitVec.ofNat 6 k.length
    wcap := BitVec.ofNat 24 cap }

/-- The reset state with `W` loaded and capacity 64. -/
def withW (w : List Nat) : State := loaded 64 w []

/-- The operation answers a next state of which `p` holds. -/
def leaves (i : Instr) (s : State) (p : State → Bool) : Bool :=
  match exec i s with
  | .next t => p t
  | .fault _ => false
  | .refused _ => false

/-- The operation answers exactly this next state. -/
def leads (i : Instr) (s t : State) : Bool := leaves i s fun u => decide (u = t)

theorem eq_of_leads {i : Instr} {s t : State} (h : leads i s t = true) : exec i s = .next t := by
  revert h
  unfold leads leaves
  cases exec i s <;> simp

/-- The operation raises the error of code `e` as the operation of opcode `op`, and nothing else changes. -/
def raises (i : Instr) (s : State) (e op : Byte) : Bool := leads i s { s with err := e, eop := op }

/-- The operation answers a state with these valid bytes of `W`. -/
def leavesW (i : Instr) (s : State) (w : List Nat) : Bool :=
  leaves i s fun t => decide (t.wBytes = bytesOf w)

/-- The key `00 01 … 0F` (95_test_vectors.md, "Keys used"). -/
def k128 : List Nat := [0, 1, 2, 3, 4, 5, 6, 7, 8, 9, 10, 11, 12, 13, 14, 15]

/-- The key `00 01 … 1F`. -/
def k256 : List Nat :=
  k128 ++ [16, 17, 18, 19, 20, 21, 22, 23, 24, 25, 26, 27, 28, 29, 30, 31]

/-- The plaintext of V20 and V21. -/
def plainBlock : List Nat :=
  [0x00, 0x11, 0x22, 0x33, 0x44, 0x55, 0x66, 0x77,
   0x88, 0x99, 0xAA, 0xBB, 0xCC, 0xDD, 0xEE, 0xFF]

/-- The ciphertext of V20. -/
def cipherBlock128 : List Nat :=
  [0x69, 0xC4, 0xE0, 0xD8, 0x6A, 0x7B, 0x04, 0x30,
   0xD8, 0xCD, 0xB7, 0x80, 0x70, 0xB4, 0xC5, 0x5A]

/-- The ciphertext of V21. -/
def cipherBlock256 : List Nat :=
  [0x8E, 0xA2, 0xB7, 0xCA, 0x51, 0x67, 0x45, 0xBF,
   0xEA, 0xFC, 0x49, 0x90, 0x4B, 0x49, 0x60, 0x89]

/-- The padded frame of V23. -/
def paddedFrame : List Nat := [0x43, 0x47, 0x32, 0, 0, 0xBC, 0, 0, 0, 0, 0, 0, 0, 0, 0, 9]

/-- Its ciphertext under `k128` (V23). -/
def sealedFrame : List Nat :=
  [0xD8, 0x95, 0x8D, 0x88, 0x42, 0x8A, 0x4F, 0x64,
   0x2B, 0xCE, 0x5B, 0x02, 0xA6, 0xC4, 0x9D, 0x57]

/-- The plain frame of V34 and V41. -/
def plainFrame : List Nat := [0x43, 0x47, 0x31, 0x03, 0x00, 0x1A, 0x08, 0x55, 0x35, 0x01]

/-- The escaped frame of V41. -/
def escapedFrame : List Nat :=
  [0x27, 0x03, 0x00, 0xAA, 0x43, 0xBB, 0x43, 0x47, 0x31, 0x03, 0x00, 0xAA, 0xBB, 0x55, 0x35, 0x01]

/-- The buffer of V61 to V63. -/
def fieldBytes : List Nat := [0xF5, 0x2F, 0xF2, 0x80, 0xFF, 0xFE]

/-! ### Well-formedness -/

theorem test_wellFormed_refuses_fldU_width_0 : ¬(Instr.fldU .big 0#24 0#24).WellFormed := by decide
theorem test_wellFormed_refuses_fldU_width_5 : ¬(Instr.fldU .big 0#24 5#24).WellFormed := by decide
theorem test_wellFormed_refuses_fldS_width_0 : ¬(Instr.fldS .little 0#24 0#24).WellFormed := by decide
theorem test_wellFormed_refuses_fldS_width_257 : ¬(Instr.fldS .little 0#24 257#24).WellFormed := by
  decide
theorem test_wellFormed_takes_fldS_width_4 : (Instr.fldS .little 0xFFFFFF#24 4#24).WellFormed := by
  decide

/-! ### Decoding: a word of every operation, written out from 30_encoding.md R70 to R74 -/

theorem test_decode_housekeeping :
    decode 0x0000000000000000#64 = .ok .nop ∧ decode 0x0100000000000000#64 = .ok .rst ∧
    decode 0x0200000000000000#64 = .ok .stClr ∧ decode 0x0300000000000000#64 = .ok .bufClr ∧
    decode 0x0400000000000047#64 = .ok (.bufPush 0x47#8) ∧
    decode 0x0600000000000000#64 = .ok .keyClr ∧
    decode 0x070000000000000F#64 = .ok (.keyPush 0x0F#8) :=
  ⟨rfl, rfl, rfl, rfl, rfl, rfl, rfl⟩

/-- `KEY.PUSH 0xA5`: op 0000_0111, m 0, len 0, off 16 zeros and 1010_0101. -/
theorem test_decode_housekeeping_bits :
    decode 0b0000011100000000000000000000000000000000000000000000000010100101#64
      = .ok (.keyPush 0xA5#8) := rfl

theorem test_decode_sum_check :
    decode 0x1000000000000000#64 = .ok .sumClr ∧
    decode 0x11000000000000FF#64 = .ok (.sumByte 0xFF#8) ∧
    decode 0x120000000000000A#64 = .ok (.sumRng 10#24 0#24) ∧
    decode 0x1300000002000008#64 = .ok (.sumChk 8#24 2#24) ∧
    decode 0x1400000000000003#64 = .ok (.sumApp 3#24) :=
  ⟨rfl, rfl, rfl, rfl, rfl⟩

/-- `SUM.RNG 1, 2^23`: op 0001_0010, m 0, the top bit of len, the low bit of off. -/
theorem test_decode_sum_check_bits :
    decode 0b0001001000000000100000000000000000000000000000000000000000000001#64
      = .ok (.sumRng 1#24 0x800000#24) := rfl

theorem test_decode_crc :
    decode 0x2000000000000000#64 = .ok .crcInit ∧
    decode 0x2100000000000031#64 = .ok (.crcByte 0x31#8) ∧
    decode 0x2200000002000027#64 = .ok (.crcRng 39#24 2#24) ∧
    decode 0x2300000029000000#64 = .ok (.crcChk 0#24 41#24) ∧
    decode 0x2400000000800000#64 = .ok (.crcApp 0x800000#24) :=
  ⟨rfl, rfl, rfl, rfl, rfl⟩

/-- `CRC.CHK 2^23, 1`: op 0010_0011, m 0, the low bit of len, the top bit of off. -/
theorem test_decode_crc_bits :
    decode 0b0010001100000000000000000000000000000001100000000000000000000000#64
      = .ok (.crcChk 0x800000#24 1#24) := rfl

theorem test_decode_cipher :
    decode 0x3000000000000001#64 = .ok (.aesEncb 1#24) ∧
    decode 0x3100000000000010#64 = .ok (.aesDecb 16#24) ∧
    decode 0x3200000020000000#64 = .ok (.aesEnc 0#24 32#24) ∧
    decode 0x3300000010000004#64 = .ok (.aesDec 4#24 16#24) ∧
    decode 0x3400000000000002#64 = .ok (.aesPad 2#24) ∧
    decode 0x3500000000000008#64 = .ok (.aesUnpad 8#24) ∧
    decode 0x3600000000FFFFFF#64 = .ok (.mrkTst 0xFFFFFF#24) ∧
    decode 0x3700000010000005#64 = .ok (.aesDecc 5#24 16#24) :=
  ⟨rfl, rfl, rfl, rfl, rfl, rfl, rfl, rfl⟩

/-- `AES.DECC 3, 16`: op 0011_0111, m 0, len 1_0000, off 11. -/
theorem test_decode_cipher_bits :
    decode 0b0011011100000000000000000000000000010000000000000000000000000011#64
      = .ok (.aesDecc 3#24 16#24) := rfl

theorem test_decode_unescaper :
    decode 0x4000000000000000#64 = .ok .uneClr ∧ decode 0x4100000000000003#64 = .ok (.uneMap 3#24) ∧
    decode 0x420000000A000006#64 = .ok (.uneSub 6#24 10#24) ∧
    decode 0x4300000000000000#64 = .ok .uneRun :=
  ⟨rfl, rfl, rfl, rfl⟩

/-- `UNE.SUB 6, 10`: op 0100_0010, m 0, len 1010, off 0110. -/
theorem test_decode_unescaper_bits :
    decode 0b0100001000000000000000000000000000001010000000000000000000000110#64
      = .ok (.uneSub 6#24 10#24) := rfl

theorem test_decode_unpacker :
    decode 0x5000000000000008#64 = .ok (.unpTh .big 8#24) ∧
    decode 0x5001000000000008#64 = .ok (.unpTh .little 8#24) ∧
    decode 0x51002FF2F5000000#64 = .ok (.pckTh .big 0x2FF#12 0x2F5#12) ∧
    decode 0x51012FF2F5000000#64 = .ok (.pckTh .little 0x2FF#12 0x2F5#12) ∧
    decode 0x5201000002000003#64 = .ok (.fldU .little 3#24 2#24) ∧
    decode 0x5300000002000004#64 = .ok (.fldS .big 4#24 2#24) :=
  ⟨rfl, rfl, rfl, rfl, rfl, rfl⟩

/-- `PCK.TH.LE 0x801, 0x002`: op 0101_0001, m 1, T 1000_0000_0001, H 0000_0000_0010, off 0. -/
theorem test_decode_unpacker_bits :
    decode 0b0101000100000001100000000001000000000010000000000000000000000000#64
      = .ok (.pckTh .little 0x801#12 0x002#12) := rfl

/-- The illegal words of V70, with the check each fails. -/
theorem test_decode_refuses_v70 :
    decode 0x0500000000000000#64 = .error .unassignedOpcode ∧
    decode 0xFF00000000000000#64 = .error .unassignedOpcode ∧
    decode 0x0000000000000001#64 = .error .unusedFieldNotZero ∧
    decode 0x0100000000000001#64 = .error .unusedFieldNotZero ∧
    decode 0x0201000000000000#64 = .error .unusedFieldNotZero ∧
    decode 0x0400000000000100#64 = .error .unusedFieldNotZero ∧
    decode 0x2001000000000000#64 = .error .unusedFieldNotZero ∧
    decode 0x1400000001000000#64 = .error .unusedFieldNotZero ∧
    decode 0x4300000000000001#64 = .error .unusedFieldNotZero ∧
    decode 0x5002000000000000#64 = .error .unusedFieldNotZero ∧
    decode 0x5200000005000000#64 = .error .widthNotLegal ∧
    decode 0x5200000000000000#64 = .error .widthNotLegal ∧
    decode 0x5101000000000001#64 = .error .unusedFieldNotZero :=
  ⟨rfl, rfl, rfl, rfl, rfl, rfl, rfl, rfl, rfl, rfl, rfl, rfl, rfl⟩

theorem test_decodeTableWord :
    decodeTableWord 64 0x51002FF2F5000000 = some (.pckTh .big 0x2FF#12 0x2F5#12) ∧
    decodeTableWord 64 0x0500000000000000 = none := ⟨rfl, rfl⟩

/-! ### Housekeeping and the dispatch -/

theorem test_nop : leads .nop (withW [1]) (withW [1]) = true := by decide

/-- V72: after `RST` from a state with an error the registers have their reset values. -/
theorem test_rst :
    leads .rst { loaded 64 [1] [1, 2, 3] with sum := 5#16, crc := 1#16, err := 8#8, eop := 0xFF#8 }
      { State.reset with w := [(0, 1#8)], k := [(0, 1#8), (1, 2#8), (2, 3#8)], wcap := 64#24 }
      = true := by decide

/-- V71, its last line. -/
theorem test_stClr :
    leads .stClr { withW [1] with err := 8#8, eop := 5#8 } (withW [1]) = true := by decide

theorem test_bufClr : leavesW .bufClr (withW [1, 2]) [] = true := by decide

/-- V74, the two pushes that fit and the one that does not. -/
theorem test_bufPush : leavesW (.bufPush 2#8) (loaded 2 [1] []) [1, 2] = true := by decide
theorem test_bufPush_full : raises (.bufPush 3#8) (loaded 2 [1, 2] []) 7#8 0x04#8 = true := by
  decide

theorem test_keyClr : leaves .keyClr (loaded 64 [] [1, 2]) (fun t => t.klen = 0#6) = true := by
  decide

/-- V75: the thirty-second byte fits and the next does not. -/
theorem test_keyPush :
    leaves (.keyPush 0x1F#8) (loaded 64 [] (k256.take 31))
      (fun t => t.kBytes = bytesOf k256 && t.klen = 32#6) = true := by decide
theorem test_keyPush_full : raises (.keyPush 0#8) (loaded 64 [] k256) 7#8 0x07#8 = true := by
  decide

/-- V70 and V71: an illegal word raises code 8 with its top byte. -/
theorem test_step_illegal :
    step (State.reset.withFetchWord 64 0xFF00000000000000)
      = .next { State.reset with err := 8#8, eop := 0xFF#8 } := rfl

/-- V71: while an error is pending an illegal word with `RST`'s top byte is ignored. -/
theorem test_step_blocked :
    step (({ State.reset with err := 8#8, eop := 5#8 } : State).withFetchWord 64 0x0100000000000001)
      = .next { State.reset with err := 8#8, eop := 5#8 } := rfl

/-- From reset, the word placed by `withFetchWord` is what the next step runs. -/
theorem test_step_runs_fetched :
    step (State.reset.withFetchWord 64 0x1100000000000007)
      = .next { State.reset with sum := 7#16 } := rfl

/-! ### The sum-check -/

theorem test_sumClr :
    leads .sumClr { withW [] with sum := 0x135#16 } (withW []) = true := by decide

/-- V31: FFFF and 01 wrap to 0000. -/
theorem test_sumByte_wraps :
    leads (.sumByte 1#8) { withW [] with sum := 0xFFFF#16 } (withW []) = true := by decide

/-- V32: 0135 over the body, and an empty range past `WLEN`. -/
theorem test_sumRng :
    leads (.sumRng 0#24 8#24) (withW plainFrame) { withW plainFrame with sum := 0x135#16 } = true := by
  decide
theorem test_sumRng_past_end : raises (.sumRng 11#24 0#24) (withW plainFrame) 3#8 0x12#8 = true := by
  decide

/-- V34: success, and the mismatch of the 9-byte range. -/
theorem test_sumChk :
    leads (.sumChk 0#24 10#24) (withW plainFrame) { withW plainFrame with sum := 0x135#16 } = true := by
  decide
theorem test_sumChk_mismatch : raises (.sumChk 0#24 9#24) (withW plainFrame) 1#8 0x13#8 = true := by
  decide

/-- V35, and V33: `need` is tested before `room`. -/
theorem test_sumApp :
    leaves (.sumApp 0#24) (withW [0x43, 0x47, 0x32, 3, 0, 0xAA, 0xBB, 0xCC]) (fun t =>
      t.wBytes = bytesOf [0x43, 0x47, 0x32, 3, 0, 0xAA, 0xBB, 0xCC, 0xF0, 0x02] &&
      t.sum = 0x2F0#16) = true := by decide
theorem test_sumApp_order : raises (.sumApp 3#24) (loaded 2 [1, 2] []) 3#8 0x14#8 = true := by decide

/-! ### The CRC-16 -/

theorem test_crcInit :
    leads .crcInit { withW [] with crc := 0#16 } (withW []) = true := by decide

/-- V13. -/
theorem test_crcByte_01 : leads (.crcByte 1#8) (withW []) { withW [] with crc := 0x807E#16 } = true := by
  decide
theorem test_crcByte_00 : leads (.crcByte 0#8) (withW []) { withW [] with crc := 0x40BF#16 } = true := by
  decide

/-- V11. -/
theorem test_crcRng :
    leaves (.crcRng 0#24 9#24) (withW [0x31, 0x32, 0x33, 0x34, 0x35, 0x36, 0x37, 0x38, 0x39])
      (fun t => t.crc = 0x4B37#16) = true := by decide +kernel
theorem test_crcRng_past_end : raises (.crcRng 0#24 2#24) (withW [1]) 3#8 0x22#8 = true := by decide

/-- V2: the frame of scenario B. -/
theorem test_crcChk :
    leaves (.crcChk 0#24 21#24) (withW [0x01, 0x41, 0x10, 0x01, 0x69, 0x00, 0x3A, 0x21, 0x2B, 0xF1,
      0x8A, 0x02, 0x45, 0x57, 0x31, 0x2E, 0x33, 0x2E, 0x34, 0xD8, 0xE7])
      (fun t => t.crc = 0#16 && t.err = 0#8) = true := by decide +kernel
/-- V17: the empty range. -/
theorem test_crcChk_empty : raises (.crcChk 0#24 0#24) (withW []) 1#8 0x23#8 = true := by decide

/-- V16, and V17 on the empty buffer. -/
theorem test_crcApp :
    leaves (.crcApp 0#24) (withW [0x2F, 0xF2, 0xF5, 0xF5, 0xF2, 0x2F]) (fun t =>
      t.wBytes = bytesOf [0x2F, 0xF2, 0xF5, 0xF5, 0xF2, 0x2F, 0x19, 0x13] && t.crc = 0x1319#16)
      = true := by decide +kernel
theorem test_crcApp_empty : leavesW (.crcApp 0#24) (withW []) [0xFF, 0xFF] = true := by decide

/-! ### The unescaper -/

theorem test_uneClr :
    leads .uneClr { withW [] with smap :=
      { e0 := { valid := true, key := 1#8 }, e1 := { valid := false, key := 0x43#8 },
        e2 := { valid := true, key := 2#8 } } } (withW []) = true := by decide

/-- V54: `MV` = [1, 0, 1], `MK` = [AA, 43, BB]; and two equal keys. -/
theorem test_uneMap :
    leads (.uneMap 3#24) (withW escapedFrame) { withW escapedFrame with smap :=
      { e0 := { valid := true, key := 0xAA#8 }, e1 := { valid := false, key := 0x43#8 },
        e2 := { valid := true, key := 0xBB#8 } } } = true := by decide
theorem test_uneMap_duplicate : raises (.uneMap 0#24) (withW [0xAA, 0xAA, 0x43]) 4#8 0x41#8 = true := by
  decide

/-- V54. -/
theorem test_uneSub :
    leavesW (.uneSub 6#24 10#24) { withW escapedFrame with smap :=
      { e0 := { valid := true, key := 0xAA#8 }, e1 := { valid := false, key := 0x43#8 },
        e2 := { valid := true, key := 0xBB#8 } } } (escapedFrame.take 6 ++ plainFrame) = true := by
  decide

/-- V44 (a key per fragment) and V48 (a key cut short in the header). -/
theorem test_uneRun_split :
    leavesW .uneRun (withW [0x01, 0x02, 0x27, 0x03, 0x00, 0xAA, 0x43, 0x43, 0x26, 0x03, 0x00, 0x01, 0x02,
      0x04, 0x43, 0x47, 0x31, 0xAA, 0x27, 0x03, 0x00, 0x43, 0x43, 0xCC, 0x26, 0x03, 0x00, 0x02, 0x02, 0x03,
      0xCC, 0x01, 0x02, 0x99]) [0x43, 0x47, 0x31, 0x1A, 0x08, 0x01, 0x02] = true := by decide
theorem test_uneRun_short_key :
    raises .uneRun (withW [1, 2, 0x27, 3, 0, 0x26, 3, 0, 1, 2, 1, 0x55]) 3#8 0x43#8 = true := by
  decide

/-! ### The unpacker -/

/-- V61. -/
theorem test_unpTh_le :
    leads (.unpTh .little 0#24) (withW fieldBytes)
      { withW fieldBytes with tr := 0xF22#12, hr := 0xFF5#12 } = true := by decide
theorem test_unpTh_be :
    leads (.unpTh .big 0#24) (withW fieldBytes)
      { withW fieldBytes with tr := 0xF52#12, hr := 0xFF2#12 } = true := by decide

/-- V64. -/
theorem test_pckTh_be :
    leavesW (.pckTh .big 0x2FF#12 0x2F5#12) (withW []) [0x2F, 0xF2, 0xF5] = true := by decide
theorem test_pckTh_le :
    leavesW (.pckTh .little 0x2FF#12 0x2F5#12) (withW [1]) [1, 0xF5, 0xF2, 0x2F] = true := by decide

/-- V62. -/
theorem test_fldU_be :
    leads (.fldU .big 3#24 3#24) (withW fieldBytes) { withW fieldBytes with fv := 0x80FFFE#32 } = true := by
  decide
theorem test_fldU_le :
    leads (.fldU .little 2#24 4#24) (withW fieldBytes) { withW fieldBytes with fv := 0xFEFF80F2#32 }
      = true := by decide

/-- V63. -/
theorem test_fldS_be :
    leads (.fldS .big 3#24 1#24) (withW fieldBytes) { withW fieldBytes with fv := 0xFFFFFF80#32 }
      = true := by decide
theorem test_fldS_le :
    leads (.fldS .little 0#24 2#24) (withW fieldBytes) { withW fieldBytes with fv := 0x2FF5#32 }
      = true := by decide

/-! ### The views and the host's sequences -/

/-- V19, V60 (`1F 40 00`), and R184 at its corners. -/
theorem test_views :
    ({ State.reset with crc := 0x05EA#16 } : State).crcsw = 0xEA05#16 ∧
    ({ State.reset with tr := 0x1F4#12 } : State).tx10 = 0 ∧
    ({ State.reset with tr := 0#12 } : State).tx10 = -500 ∧
    rawOfTenths (-500) = some 0#12 ∧ rawOfTenths 3595 = some 0xFFF#12 ∧ rawOfTenths 3596 = none := by
  decide

/-- R184 for the humidity at its corners; and V1's reading, 26.7 degrees and 75.7 percent, whose pack is
`2F F2 F5`. -/
theorem test_packReading :
    rawOfPercentTenths 0 = some 0#12 ∧ rawOfPercentTenths 4095 = some 0xFFF#12 ∧
    rawOfPercentTenths 4096 = none ∧ rawOfPercentTenths (-1) = none ∧ rawOfTenths (-501) = none ∧
    packReading .big 267 757 = some (.pckTh .big 0x2FF#12 0x2F5#12) ∧
    packReading .big 267 4096 = none := by decide

/-- What a call of the host answers, and the error register it leaves. -/
def answers {α : Type} [DecidableEq α] (o : Host.Outcome (α × State) Fault Refusal) (a : α) : Bool :=
  match o with
  | .next (b, t) => decide (b = a) && decide (t.err = 0#8)
  | .fault _ => false
  | .refused _ => false

/-- P2: the frame of an empty payload, with the command unset (R203: 0x32) and set. -/
theorem test_hostEncode_default :
    ((hostEncodeCall none [] .stClr State.reset).map fun o =>
      answers o (.ok (bytesOf [0x43, 0x47, 0x32, 0, 0, 0xBC, 0]))) = some true := by decide
theorem test_hostEncode_command :
    ((hostEncodeCall (some 0x31#8) [] .rst State.reset).map fun o =>
      answers o (.ok (bytesOf [0x43, 0x47, 0x31, 0, 0, 0xBB, 0]))) = some true := by decide

/-- V41 then V34, through the decode sequence from a state with an error and stale bytes, both starts. -/
theorem test_hostDecode_clear :
    answers (hostDecodeCall .clear true (bytesOf escapedFrame) [] .stClr
      { withW [9, 9] with err := 1#8, eop := 0x13#8 }) (.ok (bytesOf plainFrame)) = true := by decide
theorem test_hostDecode_rst :
    answers (hostDecodeCall .rst false (bytesOf escapedFrame) [] .stClr
      { withW [9, 9] with err := 1#8, eop := 0x13#8 }) (.ok (bytesOf plainFrame)) = true := by decide

/-- V34 (a frame that passes, one that does not, one too short) as the source's `sum_check`. -/
theorem test_hostSumCheck :
    answers (hostSumCheck (bytesOf plainFrame) 10#24 .stClr State.reset) (.ok true) = true ∧
    answers (hostSumCheck (bytesOf plainFrame) 9#24 .stClr State.reset) (.ok false) = true ∧
    answers (hostSumCheck (bytesOf plainFrame) 11#24 .rst State.reset)
      (.error { error := some .bufferUnderrun, stage := 0x13#8 }) = true := by decide

/-- V17 as the source's `crc16_arc`: `FF FF` passes and the empty frame does not. -/
theorem test_hostCrc16 :
    answers (hostCrc16 (bytesOf [0xFF, 0xFF]) .stClr State.reset) (.ok true) = true ∧
    answers (hostCrc16 [] .stClr State.reset) (.ok false) = true := by decide +kernel

/-- V29 as the source's `unpad`: one that strips, and one that "returns no data". -/
theorem test_hostUnpad :
    answers (hostUnpad (bytesOf [1, 2, 3, 3]) .stClr State.reset) (.ok (bytesOf [1])) = true ∧
    answers (hostUnpad (bytesOf [1]) .stClr State.reset)
      (.error { error := some .paddingInvalid, stage := 0x35#8 }) = true := by decide

/-- V25 as the source's `encrypt`: without a key it fails. -/
theorem test_hostEncrypt_no_key :
    answers (hostEncrypt (bytesOf plainBlock) [] .stClr State.reset)
      (.error { error := some .cipherLengthInvalid, stage := 0x30#8 }) = true := by decide

/-- A block cut short under a key of 16 bytes (R143, log entry 20). -/
theorem test_hostDecrypt_short :
    answers (hostDecrypt (bytesOf [1, 2]) (bytesOf k128) .stClr State.reset)
      (.error { error := some .bufferUnderrun, stage := 0x31#8 }) = true := by decide

/-! ### Witnesses: for each statement with hypotheses, states and operands that meet them, each clause at a
boundary of its range -/

/-- Four bytes in a buffer of five. -/
def four : State := loaded 5 [1, 2, 3, 4] []

/-- A full buffer of two bytes. -/
def full : State := loaded 2 [1, 2] []

/-- An empty buffer of capacity one. -/
def tiny : State := loaded 1 [] []

/-- A state past its capacity: sixteen valid bytes, capacity one, a key of 16 bytes. -/
def beyond : State := loaded 1 plainBlock k128

/-- One block under a 16-byte key, the buffer full. -/
def oneBlock : State := loaded 16 plainBlock k128

theorem witness_InvariantHoldsAtReset : 1 ≤ (1#24 : Index).toNat := by decide

theorem witness_EveryStepKeepsTheInvariant :
    ((full.issue 0x0400000000000007#64).Inv) ∧
      step (full.issue 0x0400000000000007#64) = .next { full with err := 7#8, eop := 4#8 } :=
  ⟨by decide, rfl⟩

theorem witness_NoRunFromALegalStateStops : (tiny.issue 0xFF00000000000000#64).Inv := by decide

theorem witness_StepRunsTheDecodedCommand :
    ((tiny.issue 0x0400000000000007#64).cmds = 0x0400000000000007#64 :: [] ∧
      (tiny.issue 0x0400000000000007#64).err = 0#8 ∧
      decode 0x0400000000000007#64 = .ok (.bufPush 7#8)) ∧ tiny.cmds = [] :=
  ⟨⟨rfl, rfl, rfl⟩, rfl⟩

theorem witness_DispatchFollowsItsOrder_pending :
    ({ tiny.issue 0x0100000000000001#64 with err := 1#8 } : State).err ≠ 0#8 ∧
      ({ tiny.issue 0x0100000000000001#64 with err := 1#8 } : State).cmds
        = 0x0100000000000001#64 :: [] ∧
      (0x0100000000000001#64 : CmdWord) ≠ 0x0100000000000000#64 ∧
      (0x0100000000000001#64 : CmdWord) ≠ 0x0200000000000000#64 := by decide

theorem witness_DispatchFollowsItsOrder_clearing :
    (∃ s : State, s.cmds = 0x0100000000000000#64 :: [] ∧ s.err ≠ 0#8) ∧
      ∃ s : State, s.cmds = 0x0200000000000000#64 :: [] ∧ s.err ≠ 0#8 :=
  ⟨⟨{ tiny.issue 0x0100000000000000#64 with err := 1#8 }, by decide⟩,
    ⟨{ tiny.issue 0x0200000000000000#64 with err := 8#8 }, by decide⟩⟩

theorem witness_DispatchFollowsItsOrder_noError :
    tiny.err = 0#8 ∧ (∀ i, decode 0x0100000000000001#64 ≠ .ok i) ∧
      decode 0x0100000000000000#64 = .ok .rst := by
  refine ⟨rfl, fun i => ?_, rfl⟩
  rw [show decode 0x0100000000000001#64 = .error .unusedFieldNotZero from rfl]
  exact fun h => nomatch h

theorem witness_BlockedSequencesChangeNothing :
    ({ tiny with err := 8#8 } : State).err ≠ 0#8 ∧
      ∀ w ∈ [0x0100000000000001#64, 0x0400000000000007#64],
        w ≠ 0x0100000000000000#64 ∧ w ≠ 0x0200000000000000#64 := by simp

theorem witness_ARaiseChangesOnlyErrAndEop :
    (full.err = 0#8 ∧ exec (.bufPush 7#8) full = .next { full with err := 7#8, eop := 4#8 } ∧
      ({ full with err := 7#8, eop := 4#8 } : State).err ≠ 0#8) ∧
    full.err = 0#8 ∧ ∀ i, decode 0x5200000005000000#64 ≠ .ok i := by
  refine ⟨⟨rfl, rfl, by decide⟩, rfl, fun i => ?_⟩
  rw [show decode 0x5200000005000000#64 = .error .widthNotLegal from rfl]
  exact fun h => nomatch h

theorem witness_OperationsRaiseOnlyTheirListedErrors :
    ((Instr.bufPush 7#8).WellFormed ∧ full.err = 0#8 ∧
      exec (.bufPush 7#8) full = .next { full with err := 7#8, eop := 4#8 } ∧
      ({ full with err := 7#8, eop := 4#8 } : State).err ≠ 0#8) ∧
    ((Instr.fldU .big 1#24 1#24).WellFormed ∧ full.err = 0#8 ∧
      exec (.fldU .big 1#24 1#24) full = .next { full with fv := 2#32 } ∧
      ({ full with fv := 2#32 } : State).err = 0#8) :=
  ⟨⟨rfl, rfl, rfl, by decide⟩, ⟨rfl, rfl, rfl, rfl⟩⟩

theorem witness_OperationsWriteOnlyTheirListedTargets :
    exec (.bufPush 7#8) tiny = .next { tiny with w := [(0, 7#8)], wlen := 1#24 } ∧
      Target.klen ∉ writesOf (.bufPush 7#8) := ⟨rfl, by decide⟩

theorem witness_WholeFunctionsIgnoreTheDataRegisters :
    wholeFunction .uneRun = true ∧ full.err = 0#8 ∧
      SameButData full { full with sum := 9#16, plain := true } ∧
      full ≠ { full with sum := 9#16, plain := true } := by decide

theorem witness_StaleBytesAreNotObservable :
    four.MemoryOk ∧ ({ four with w := four.w.write 4 9#8 } : State).MemoryOk ∧
      SameButStale four { four with w := four.w.write 4 9#8 } ∧
      four ≠ { four with w := four.w.write 4 9#8 } := by decide

theorem witness_KeyBytesReachOnlyTheCipher :
    SameButKeyBytes oneBlock { oneBlock with k := [] } ∧ oneBlock ≠ { oneBlock with k := [] } ∧
      readsKey (.aesPad 0#24) = false := by decide

theorem witness_IndicesOutsideTheMemoriesFault_ranges :
    beyond.wcap.toNat < 0 + 16 ∧ 0 + 16 ≤ beyond.wlen.toNat ∧ beyond.klen.toNat = 16 ∧
      16 % 16 = 0 ∧ ¬(beyond.w.read 0 = 0x43#8 ∧ beyond.w.read 1 = 0x47#8) ∧
      beyond.wcap.toNat < 12 + 4 ∧ 12 + 4 ≤ beyond.wlen.toNat ∧ legalWidth 4#24 = true := by
  decide

theorem witness_IndicesOutsideTheMemoriesFault_others :
    (beyond.wcap.toNat < 13 + 3 ∧ 13 + 3 ≤ beyond.wlen.toNat) ∧
      (beyond.wcap.toNat < 0 + 2 ∧ 0 + 2 ≤ beyond.wlen.toNat) ∧
      (beyond.wcap.toNat < beyond.wlen.toNat ∧ 15 < beyond.wlen.toNat) ∧
      32 < ({ tiny with klen := 33#6 } : State).klen.toNat := by decide

theorem witness_DecodeReadsBackEveryEncoding :
    (Instr.fldS .little 0xFFFFFF#24 4#24).WellFormed ∧ (Instr.fldU .big 0#24 1#24).WellFormed := by
  decide

theorem witness_EncodeRebuildsEveryLegalWord :
    decode 0x5201000004FFFFFF#64 = .ok (.fldU .little 0xFFFFFF#24 4#24) := rfl

theorem witness_BufPushAppendsItsByte :
    (tiny.Inv ∧ tiny.wlen.toNat < tiny.wcap.toNat) ∧ full.Inv ∧ full.wlen.toNat = full.wcap.toNat := by
  decide

theorem witness_KeyPushAppendsItsByte :
    ((loaded 1 [] (k256.take 31)).Inv ∧ (loaded 1 [] (k256.take 31)).klen.toNat = 31) ∧
      (loaded 1 [] k256).Inv ∧ (loaded 1 [] k256).klen.toNat = 32 := by decide

theorem witness_SumRngAddsItsRange :
    full.Inv ∧ 1 + 1 ≤ full.wlen.toNat ∧ 2 + 0 ≤ full.wlen.toNat ∧ full.wlen.toNat < 2 + 1 := by decide

theorem witness_SumChkComparesTheLittleEndianSum :
    full.Inv ∧ (loaded 2 [0, 0] []).Inv ∧ (tiny.Inv ∧ (1#24 : Index).toNat < 2) := by decide

theorem witness_SumAppAppendsTheSum :
    (full.Inv ∧ full.wlen.toNat < 3) ∧ (four.Inv ∧ 4 ≤ four.wlen.toNat ∧ four.wcap.toNat < 4 + 2) ∧
      (loaded 6 [1, 2, 3, 4] []).Inv ∧ 4 ≤ (loaded 6 [1, 2, 3, 4] []).wlen.toNat ∧
      4 + 2 ≤ (loaded 6 [1, 2, 3, 4] []).wcap.toNat := by decide

theorem witness_SumChkAcceptsWhatSumAppBuilt :
    (loaded 6 [1, 2, 3, 4] []).Inv ∧ (4#24 : Index).toNat ≤ (loaded 6 [1, 2, 3, 4] []).wlen.toNat ∧
      (loaded 6 [1, 2, 3, 4] []).wlen.toNat + 2 ≤ (loaded 6 [1, 2, 3, 4] []).wcap.toNat := by decide

theorem witness_SumChkDetectsEveryOneByteChange :
    (loaded 3 [5, 5, 0] []).Inv ∧ (loaded 3 [5, 5, 0] []).err = 0#8 ∧
      exec (.sumChk 0#24 3#24) (loaded 3 [5, 5, 0] [])
        = .next { loaded 3 [5, 5, 0] [] with sum := 5#16 } ∧
      0#8 ≠ (loaded 3 [5, 5, 0] []).w.read 0 ∧ 1#8 ≠ (loaded 3 [5, 5, 0] []).w.read 2 :=
  ⟨by decide, rfl, eq_of_leads (by decide), by decide, by decide⟩

theorem witness_CrcRngFoldsItsRange :
    full.Inv ∧ 1 + 1 ≤ full.wlen.toNat ∧ 2 + 0 ≤ full.wlen.toNat ∧ full.wlen.toNat < 2 + 1 := by decide

theorem witness_CrcChkAcceptsZeroResidue :
    (loaded 2 [0xFF, 0xFF] []).Inv ∧
      crcFold 0xFFFF#16 ((loaded 2 [0xFF, 0xFF] []).range 0 2) = 0#16 ∧
      crcFold 0xFFFF#16 ((loaded 2 [0xFF, 0xFF] []).range 0 1) ≠ 0#16 := by decide +kernel

theorem witness_CrcChkIsComputeAndCompare :
    (loaded 2 [0xFF, 0xFF] []).Inv ∧ (loaded 2 [0xFF, 0xFF] []).err = 0#8 ∧
      0 + 2 ≤ (loaded 2 [0xFF, 0xFF] []).wlen.toNat := by decide

theorem witness_CrcAppAppendsTheCrc :
    (full.Inv ∧ full.wlen.toNat < 3) ∧ (four.Inv ∧ 4 ≤ four.wlen.toNat ∧ four.wcap.toNat < 4 + 2) ∧
      (loaded 6 [1, 2, 3, 4] []).Inv ∧ 4 ≤ (loaded 6 [1, 2, 3, 4] []).wlen.toNat ∧
      4 + 2 ≤ (loaded 6 [1, 2, 3, 4] []).wcap.toNat := by decide

theorem witness_CrcChkAcceptsWhatCrcAppBuilt :
    (loaded 6 [1, 2, 3, 4] []).Inv ∧ (4#24 : Index).toNat ≤ (loaded 6 [1, 2, 3, 4] []).wlen.toNat ∧
      (loaded 6 [1, 2, 3, 4] []).wlen.toNat + 2 ≤ (loaded 6 [1, 2, 3, 4] []).wcap.toNat := by decide

theorem witness_CrcChkDetectsEveryOneByteChange :
    (loaded 2 [0xFF, 0xFF] []).Inv ∧ (loaded 2 [0xFF, 0xFF] []).err = 0#8 ∧
      exec (.crcChk 0#24 2#24) (loaded 2 [0xFF, 0xFF] [])
        = .next { loaded 2 [0xFF, 0xFF] [] with crc := 0#16 } ∧
      0#8 ≠ (loaded 2 [0xFF, 0xFF] []).w.read 0 ∧ 0#8 ≠ (loaded 2 [0xFF, 0xFF] []).w.read 1 :=
  ⟨by decide, rfl, eq_of_leads (by decide +kernel), by decide, by decide⟩

theorem witness_DecryptionInvertsEncryption :
    (bytesOf k128).length = 16 ∧ (bytesOf k256).length = 32 ∧ (bytesOf plainBlock).length = 16 := by
  decide

theorem witness_BlockOperationsReplaceOneBlock :
    (four.Inv ∧ four.klen.toNat ≠ 16 ∧ four.klen.toNat ≠ 32) ∧
      (oneBlock.Inv ∧ oneBlock.klen.toNat = 16 ∧ oneBlock.wlen.toNat < 1 + 16) ∧
      (loaded 17 (0 :: plainBlock) k256).Inv ∧ (loaded 17 (0 :: plainBlock) k256).klen.toNat = 32 ∧
      1 + 16 ≤ (loaded 17 (0 :: plainBlock) k256).wlen.toNat := by decide

theorem witness_RangeOperationsReplaceEachBlock :
    (four.Inv ∧ four.klen.toNat ≠ 16 ∧ four.klen.toNat ≠ 32) ∧ (oneBlock.Inv ∧ 15 % 16 ≠ 0) ∧
      (oneBlock.klen.toNat = 16 ∧ 32 % 16 = 0 ∧ oneBlock.wlen.toNat < 0 + 32) ∧
      0 + 16 ≤ oneBlock.wlen.toNat ∧ 16 + 0 ≤ oneBlock.wlen.toNat := by decide

theorem witness_RangeDecryptionRestoresTheState :
    oneBlock.Inv ∧ oneBlock.klen.toNat = 16 ∧ 16 % 16 = 0 ∧ 0 + 16 ≤ oneBlock.wlen.toNat := by
  decide

theorem witness_PadAppendsZerosAndTheCount :
    (full.Inv ∧ full.wlen.toNat < 3) ∧
      ((loaded 15 [1] []).Inv ∧ 0 ≤ (loaded 15 [1] []).wlen.toNat ∧
        (loaded 15 [1] []).wcap.toNat < (loaded 15 [1] []).wlen.toNat + (16 - (1 - 0) % 16)) ∧
      (loaded 16 [1] []).Inv ∧
        (loaded 16 [1] []).wlen.toNat + (16 - (1 - 0) % 16) ≤ (loaded 16 [1] []).wcap.toNat := by decide

theorem witness_UnpadStripsTheCountOfTheLastByte :
    full.Inv ∧ full.wlen.toNat < 3 ∧ full.wlen.toNat - 0 ≤ (full.w.read (full.wlen.toNat - 1)).toNat ∧
      (loaded 3 [7, 7, 2] []).Inv ∧ ¬3 - 0 ≤ ((loaded 3 [7, 7, 2] []).w.read 2).toNat := by decide

theorem witness_UnpadUndoesPadOfNonemptyData :
    (loaded 16 [1] []).Inv ∧ (0 < (loaded 16 [1] []).wlen.toNat) ∧
      (loaded 16 [1] []).wlen.toNat + (16 - ((loaded 16 [1] []).wlen.toNat - 0) % 16)
        ≤ (loaded 16 [1] []).wcap.toNat ∧
      (loaded 17 [1] []).Inv ∧ (loaded 17 [1] []).wlen.toNat = 1 ∧
      (loaded 17 [1] []).wlen.toNat + (16 - ((loaded 17 [1] []).wlen.toNat - 1) % 16)
        ≤ (loaded 17 [1] []).wcap.toNat := by decide

theorem witness_MarkerTestSetsPlain :
    (loaded 2 [0x43, 0x47] []).Inv ∧ 0 + 2 ≤ (loaded 2 [0x43, 0x47] []).wlen.toNat ∧
      (loaded 2 [0x43, 0x47] []).wlen.toNat < 1 + 2 := by decide

theorem witness_ConditionalDecryptionSkipsMarkedFrames :
    (full.Inv ∧ (1#24 : Index).toNat < 2 ∧ full.wlen.toNat < 0 + 3) ∧
      ((loaded 2 [0x43, 0x47] []).Inv ∧ (loaded 2 [0x43, 0x47] []).w.read 0 = 0x43#8 ∧
        (loaded 2 [0x43, 0x47] []).w.read 1 = 0x47#8) ∧
      (full.klen.toNat ≠ 16 ∧ full.klen.toNat ≠ 32 ∧ full.w.read 0 ≠ 0x43#8) ∧
      oneBlock.Inv ∧ oneBlock.klen.toNat = 16 ∧ 16 % 16 = 0 ∧ 0 + 16 ≤ oneBlock.wlen.toNat ∧
        oneBlock.w.read 0 ≠ 0x43#8 := by decide

theorem witness_FindIsTheLeastMark :
    [0x27#8, 0x03#8, 0x00#8].length = 3 ∧
      findMark [0x27#8, 0x03#8, 0x00#8] [0x27#8, 0x27#8, 0x03#8, 0x00#8] = some 1 ∧
      findMark [0x27#8, 0x03#8, 0x00#8] [0x27#8, 0x03#8] = none := by decide

theorem witness_UnsplitBuffersAreSubstitutedAfterTheKey_clean :
    (AfterStepOne [0x43#8] [0x43#8] ∧ findMark [0x26#8, 0x03#8, 0x00#8] [0x43#8] = none ∧
      findMark [0x27#8, 0x03#8, 0x00#8] [0x43#8] = none) ∧
    (AfterStepOne [0x27#8, 0x27#8, 0x27#8] [0x27#8, 0x27#8] ∧
      findMark [0x26#8, 0x03#8, 0x00#8] [0x27#8, 0x27#8] = none ∧
      findMark [0x27#8, 0x03#8, 0x00#8] [0x27#8, 0x27#8] = none) ∧
    ([] : List Byte).take 1 ≠ [0x27#8] := by decide

/-- Two key bytes after the mark, and, after a doubled first byte, three with two equal. -/
theorem witness_UnsplitBuffersAreSubstitutedAfterTheKey_marked :
    (AfterStepOne [0x27#8, 0x03#8, 0x00#8, 1#8, 2#8] ([] ++ [0x27#8, 0x03#8, 0x00#8] ++ [1#8, 2#8]) ∧
      findMark [0x26#8, 0x03#8, 0x00#8] ([] ++ [0x27#8, 0x03#8, 0x00#8] ++ [1#8, 2#8]) = none ∧
      findMark [0x27#8, 0x03#8, 0x00#8] ([] ++ [0x27#8, 0x03#8, 0x00#8] ++ [1#8, 2#8]) = some 0 ∧
      [1#8, 2#8].length < 3) ∧
    (AfterStepOne [0x27#8, 0x27#8, 0x27#8, 0x03#8, 0x00#8, 1#8, 2#8, 2#8]
        ([0x27#8] ++ [0x27#8, 0x03#8, 0x00#8] ++ [1#8, 2#8, 2#8]) ∧
      findMark [0x26#8, 0x03#8, 0x00#8] ([0x27#8] ++ [0x27#8, 0x03#8, 0x00#8] ++ [1#8, 2#8, 2#8]) = none ∧
      findMark [0x27#8, 0x03#8, 0x00#8] ([0x27#8] ++ [0x27#8, 0x03#8, 0x00#8] ++ [1#8, 2#8, 2#8])
        = some 1 ∧ DuplicateKey 1#8 2#8 2#8) := by decide

theorem witness_FragmentsAreJoinedUnderThePreviousKey_key :
    findMark [0x27#8, 0x03#8, 0x00#8] [0x27#8, 0x03#8] = none ∧
    (findMark [0x27#8, 0x03#8, 0x00#8] ([9#8] ++ [0x27#8, 0x03#8, 0x00#8] ++ [1#8, 2#8]) = some 1 ∧
      [1#8, 2#8].length < 3) ∧
    findMark [0x27#8, 0x03#8, 0x00#8] ([] ++ [0x27#8, 0x03#8, 0x00#8] ++ [1#8, 2#8, 1#8]) = some 0 ∧
    DuplicateKey 1#8 2#8 1#8 := by decide

/-- The header and the two fragments of V44, and an empty header with one fragment of no content. -/
theorem witness_FragmentsAreJoinedUnderThePreviousKey_joined :
    (AfterStepOne ([0x26#8, 0x03#8, 0x00#8].intercalate [bytesOf [1, 2, 0x27, 3, 0, 0xAA, 0x43, 0x43],
        bytesOf [1, 2, 4, 0x43, 0x47, 0x31, 0xAA, 0x27, 3, 0, 0x43, 0x43, 0xCC],
        bytesOf [2, 2, 3, 0xCC, 1, 2, 0x99]])
        ([0x26#8, 0x03#8, 0x00#8].intercalate [bytesOf [1, 2, 0x27, 3, 0, 0xAA, 0x43, 0x43],
        bytesOf [1, 2, 4, 0x43, 0x47, 0x31, 0xAA, 0x27, 3, 0, 0x43, 0x43, 0xCC],
        bytesOf [2, 2, 3, 0xCC, 1, 2, 0x99]])) ∧
    (∀ p ∈ [bytesOf [1, 2, 0x27, 3, 0, 0xAA, 0x43, 0x43],
        bytesOf [1, 2, 4, 0x43, 0x47, 0x31, 0xAA, 0x27, 3, 0, 0x43, 0x43, 0xCC],
        bytesOf [2, 2, 3, 0xCC, 1, 2, 0x99]], findMark [0x26#8, 0x03#8, 0x00#8] p = none) ∧
    FragmentGives (bytesOf [1, 2, 0x27, 3, 0, 0xAA, 0x43, 0x43])
      (bytesOf [1, 2, 4, 0x43, 0x47, 0x31, 0xAA, 0x27, 3, 0, 0x43, 0x43, 0xCC])
      (bytesOf [0x43, 0x47, 0x31, 0x1A]) ∧
    FragmentGives (bytesOf [1, 2, 4, 0x43, 0x47, 0x31, 0xAA, 0x27, 3, 0, 0x43, 0x43, 0xCC])
      (bytesOf [2, 2, 3, 0xCC, 1, 2, 0x99]) (bytesOf [8, 1, 2]) ∧
    AfterStepOne ([0x26#8, 0x03#8, 0x00#8].intercalate [[], bytesOf [0, 0, 0]])
      ([0x26#8, 0x03#8, 0x00#8].intercalate [[], bytesOf [0, 0, 0]]) ∧
    FragmentGives [] (bytesOf [0, 0, 0]) [] :=
  ⟨by decide, by decide, ⟨_, rfl, by decide, by decide⟩, ⟨_, rfl, by decide, by decide⟩, by decide,
    ⟨_, rfl, by decide, by decide⟩⟩

/-- A header with two equal keys before a fragment too short, so that the key's failure is the one met; a key
cut short; and a fragment one byte short of
its content, after a header without a key (V46). -/
theorem witness_FragmentsAreJoinedUnderThePreviousKey_fails :
    (AfterStepOne ([0x26#8, 0x03#8, 0x00#8].intercalate [bytesOf [0x27, 3, 0, 0xAA, 0xAA, 0x43], bytesOf [1]])
        ([0x26#8, 0x03#8, 0x00#8].intercalate [bytesOf [0x27, 3, 0, 0xAA, 0xAA, 0x43], bytesOf [1]]) ∧
      FragmentFails (bytesOf [0x27, 3, 0, 0xAA, 0xAA, 0x43]) (bytesOf [1]) .malformedInput) ∧
    FragmentFails (bytesOf [0x27, 3, 0, 0xAA, 0x43]) (bytesOf [1, 2, 0]) .bufferUnderrun ∧
    FragmentFails (bytesOf [1, 2]) (bytesOf [1, 2, 5, 0x43, 0x47, 0x31, 0x32]) .bufferUnderrun ∧
    FragmentFails [] (bytesOf [1, 2]) .bufferUnderrun :=
  ⟨⟨by decide, .inl rfl⟩, .inl rfl, .inr ⟨⟨_, rfl⟩, by decide, rfl⟩, .inr ⟨⟨_, rfl⟩, by decide, rfl⟩⟩

theorem witness_UnescapeNeverLengthens :
    unescape (bytesOf escapedFrame) = .ok (bytesOf plainFrame) := by decide

theorem witness_UneMapLoadsThreeKeys :
    four.Inv ∧ 1 + 3 ≤ four.wlen.toNat ∧ four.wlen.toNat < 2 + 3 := by decide

/-- One byte of each of the four clauses: two keys, a third, and a byte that is no key. -/
theorem witness_UneSubSubstitutesItsRangeOnce :
    ({ four with smap :=
      { e0 := { valid := true, key := 1#8 }, e1 := { valid := true, key := 2#8 },
        e2 := { valid := true, key := 3#8 } } } : State).Inv ∧
      0 + 4 ≤ four.wlen.toNat ∧ four.wlen.toNat < 1 + 4 ∧ 1#8 = four.w.read 0 ∧ 2#8 = four.w.read 1 ∧
      3#8 = four.w.read 2 ∧ ∀ k ∈ [1#8, 2#8, 3#8], k ≠ four.w.read 3 := by decide

theorem witness_UneRunReplacesTheBuffer :
    ((loaded 16 escapedFrame []).Inv ∧
      unescape (loaded 16 escapedFrame []).wBytes = .ok (bytesOf plainFrame)) ∧
    ((loaded 3 [0x26, 3, 0] []).Inv ∧
      unescape (loaded 3 [0x26, 3, 0] []).wBytes = .error .bufferUnderrun) :=
  ⟨⟨by decide, by decide⟩, ⟨by decide, by decide⟩⟩

theorem witness_UnpThSplitsThePack :
    four.Inv ∧ 1 + 3 ≤ four.wlen.toNat ∧ four.wlen.toNat < 2 + 3 := by decide

theorem witness_PckThAppendsThePack :
    (four.Inv ∧ four.wcap.toNat < four.wlen.toNat + 3) ∧ (loaded 3 [] []).Inv ∧
      (loaded 3 [] []).wlen.toNat + 3 ≤ (loaded 3 [] []).wcap.toNat ∧
      (0xFF#8 : Byte).toNat * 65536 + (0xFF#8 : Byte).toNat * 256 + (0xFF#8 : Byte).toNat =
        (0xFFF#12 : Raw12).toNat * 4096 + (0xFFF#12 : Raw12).toNat := by decide

theorem witness_UnpThUndoesPckTh :
    (loaded 3 [] []).Inv ∧ (loaded 3 [] []).wlen.toNat + 3 ≤ (loaded 3 [] []).wcap.toNat ∧
      packReading .little (-500) 4095 = some (.pckTh .little 0#12 0xFFF#12) ∧
      packReading .big 3595 0 = some (.pckTh .big 0xFFF#12 0#12) := by decide

theorem witness_FieldsAreReadWithTheirSign :
    four.Inv ∧ 1 ≤ (1#24 : Index).toNat ∧ (4#24 : Index).toNat ≤ 4 ∧ 0 + 4 ≤ four.wlen.toNat ∧
      3 + 1 ≤ four.wlen.toNat ∧ four.wlen.toNat < 1 + 4 := by decide

/-! ### The cipher (last, because the kernel takes longest here) -/

/-- The examples of R148. -/
theorem test_field_arithmetic :
    xtime 0x57#8 = 0xAE#8 ∧ gfMul 0x57#8 0x13#8 = 0xFE#8 ∧ gfMul 0x57#8 0x83#8 = 0xC1#8 := by
  decide

/-- R134: for every byte `b` the table's preimage of `b ^ rotl(b,1) ^ … ^ 0x63` is the inverse of `b`. -/
theorem test_sbox_is_its_formula :
    ((List.range 256).all fun n =>
      let b := BitVec.ofNat 8 n
      let v := b ^^^ b.rotateLeft 1 ^^^ b.rotateLeft 2 ^^^ b.rotateLeft 3 ^^^ b.rotateLeft 4 ^^^ 0x63#8
      decide (sbox (isbox v) = v) &&
        if n = 0 then decide (isbox v = 0#8) else decide (gfMul (isbox v) b = 1#8)) = true := by
  decide +kernel

/-- R135: "`ISBOX[SBOX[a]] = a`". -/
theorem test_isbox_inverts_sbox :
    ((List.range 256).all fun n => decide (isbox (sbox (BitVec.ofNat 8 n)) = BitVec.ofNat 8 n))
      = true := by decide +kernel

/-- The factors of R136 may stand on either side: on the one-bit bytes, of which every byte is a sum. -/
theorem test_gfMul_commutes_for_the_factors :
    ([2, 3, 9, 11, 13, 14].all fun c => [1, 2, 4, 8, 16, 32, 64, 128].all fun n =>
      decide (gfMul (BitVec.ofNat 8 n) (BitVec.ofNat 8 c) =
        gfMul (BitVec.ofNat 8 c) (BitVec.ofNat 8 n))) = true := by decide

/-- V20. -/
theorem test_aesEncb : leavesW (.aesEncb 0#24) (loaded 64 plainBlock k128) cipherBlock128 = true := by
  decide +kernel
/-- V25: no key. -/
theorem test_aesEncb_no_key : raises (.aesEncb 0#24) (withW plainBlock) 6#8 0x30#8 = true := by
  decide

/-- V21, the other way: a 32-byte key. -/
theorem test_aesDecb :
    leavesW (.aesDecb 0#24) (loaded 64 cipherBlock256 k256) plainBlock = true := by decide +kernel

/-- V24: two blocks, each on its own. -/
theorem test_aesEnc :
    leavesW (.aesEnc 0#24 32#24) (loaded 64 (k256.map (· + 0x20)) k128)
      [0x5B, 0xE8, 0x7E, 0x2E, 0x5B, 0x44, 0x7C, 0x94, 0x4B, 0x21, 0xC9, 0xAF, 0x77, 0x56, 0xC0, 0xD8,
       0x03, 0xF2, 0xC3, 0xBD, 0xCA, 0x82, 0x6B, 0xF0, 0x82, 0xD7, 0xCF, 0xB0, 0x35, 0xCD, 0xB8, 0xC1]
      = true := by decide +kernel
/-- V25: a length that is no multiple of 16. -/
theorem test_aesEnc_length : raises (.aesEnc 0#24 15#24) (loaded 64 plainBlock k128) 6#8 0x32#8 = true := by
  decide

/-- V23, the other way. -/
theorem test_aesDec :
    leavesW (.aesDec 0#24 16#24) (loaded 64 sealedFrame k128) paddedFrame = true := by decide +kernel
theorem test_aesDec_length : raises (.aesDec 0#24 7#24) (loaded 64 sealedFrame k128) 6#8 0x33#8 = true := by
  decide

/-- V23, and V28 with an offset. -/
theorem test_aesPad :
    leavesW (.aesPad 0#24) (withW [0x43, 0x47, 0x32, 0, 0, 0xBC, 0]) paddedFrame = true := by
  decide
theorem test_aesPad_offset :
    leavesW (.aesPad 2#24) (withW [1, 0x41, 1, 2, 3, 4, 5])
      [1, 0x41, 1, 2, 3, 4, 5, 0, 0, 0, 0, 0, 0, 0, 0, 0, 0, 11] = true := by decide

/-- V29: the removed bytes are not inspected; a count that reaches the length is refused. -/
theorem test_aesUnpad : leavesW (.aesUnpad 0#24) (withW [1, 2, 3, 3]) [1] = true := by decide
theorem test_aesUnpad_too_long : raises (.aesUnpad 0#24) (withW [1]) 2#8 0x35#8 = true := by decide

/-- P2 step 10, and both bytes must match. -/
theorem test_mrkTst : leaves (.mrkTst 0#24) (withW plainFrame) (fun t => t.plain) = true := by decide
theorem test_mrkTst_second_byte :
    leaves (.mrkTst 0#24) { withW [0x43, 0x48] with plain := true } (fun t => !t.plain) = true := by
  decide

/-- V26: without a key a marked frame passes; P3 step 21: an unmarked one is decrypted. -/
theorem test_aesDecc_plain :
    leads (.aesDecc 0#24 2#24) (withW [0x43, 0x47]) { withW [0x43, 0x47] with plain := true } = true := by
  decide
theorem test_aesDecc_sealed :
    leavesW (.aesDecc 0#24 16#24) (loaded 64 sealedFrame k128) paddedFrame = true := by decide +kernel

end Sys2Proof.Tests
end

section
/-! The invariant along every operation, step and run (00_scope.md R17): from a legal state each operation answers
a next state, legal again and with the same capacity. One rule per shared operation, then the operations by these
rules, then the dispatch, the step and the run. -/

namespace Sys2Proof.Machine

/-- The outcome of an operation begun in `s` is a next state, which is legal and has the capacity of `s`: no
fault, no refusal. -/
def KeepsInv (s : State) (o : Out) : Prop := ∃ t : State, o = .next t ∧ t.Inv ∧ t.wcap = s.wcap

theorem KeepsInv.next {s t : State} (ht : t.Inv) (hcap : t.wcap = s.wcap) : KeepsInv s (.next t) :=
  ⟨t, rfl, ht, hcap⟩

/-! ### What the invariant bounds -/

theorem State.Inv.wlen_le {s : State} (hs : s.Inv) : s.wlen.toNat ≤ s.wcap.toNat := by
  obtain ⟨⟨-, hw, -⟩, -⟩ := hs
  exact hw

theorem State.Inv.klen_le {s : State} (hs : s.Inv) : s.klen.toNat ≤ 32 := by
  obtain ⟨⟨-, -, hk⟩, -⟩ := hs
  exact hk

/-! ### The invariant after each write -/

/-- Every error the block raises is a legal status (60_exceptions.md R221); code 5 is the host's. -/
theorem State.Inv.raised {s : State} (hs : s.Inv) {e : ErrCode} (he : e ≠ .unsupportedTag) (op : Byte) :
    (s.setStatus e.code op).Inv := by
  obtain ⟨hlen, hmap, -, hmem⟩ := hs
  have hcode : e.code ≠ ErrCode.unsupportedTag.code := fun h => he (ErrCode.code_injective h)
  exact ⟨hlen, hmap, ⟨e.code_le, hcode, fun h => absurd h e.code_ne_zero⟩, hmem⟩

theorem statusOk_of_no_error {s : State} (herr : s.err = 0#8) (heop : s.eop = 0#8) : s.StatusOk := by
  simp [State.StatusOk, herr, heop]

theorem State.Inv.clearStatus {s : State} (hs : s.Inv) : s.clearStatus.Inv := by
  obtain ⟨hlen, hmap, -, hmem⟩ := hs
  exact ⟨hlen, hmap, statusOk_of_no_error rfl rfl, hmem⟩

theorem State.Inv.resetRegs {s : State} (hs : s.Inv) : s.resetRegs.Inv := by
  obtain ⟨⟨hcap, -, -⟩, -, -, hmem⟩ := hs
  exact ⟨⟨hcap, Nat.zero_le _, Nat.zero_le _⟩, rfl, statusOk_of_no_error rfl rfl, hmem⟩

theorem State.Inv.setMap {s : State} (hs : s.Inv) {m : SubstMap} (hm : m.distinct = true) :
    (s.setMap m).Inv := by
  obtain ⟨hlen, -, hst, hmem⟩ := hs
  exact ⟨hlen, hm, hst, hmem⟩

theorem State.Inv.setWlen {s : State} (hs : s.Inv) {v : Index} (hv : v.toNat ≤ s.wcap.toNat) :
    (s.setWlen v).Inv := by
  obtain ⟨⟨hcap, -, hk⟩, hrest⟩ := hs
  exact ⟨⟨hcap, hv, hk⟩, hrest⟩

theorem State.Inv.setKlen {s : State} (hs : s.Inv) {v : BitVec 6} (hv : v.toNat ≤ 32) :
    (s.setKlen v).Inv := by
  obtain ⟨⟨hcap, hw, -⟩, hrest⟩ := hs
  exact ⟨⟨hcap, hw, hv⟩, hrest⟩

theorem State.Inv.writeK {s : State} (hs : s.Inv) {a : Nat} (ha : a < 32) (v : Byte) :
    (s.setK (s.k.write a v)).Inv := by
  obtain ⟨hlen, hmap, hst, hw, hk, hwb, hkb⟩ := hs
  exact ⟨hlen, hmap, hst, hw, Memory.write_wf hk a v, hwb, Memory.write_below v ha hkb⟩

theorem State.Inv.putW {s : State} (hs : s.Inv) {a : Nat} {bytes : List Byte}
    (h : a + bytes.length ≤ s.wcap.toNat) : (s.putW a bytes).Inv := by
  obtain ⟨hlen, hmap, hst, hw, hk, hwb, hkb⟩ := hs
  exact ⟨hlen, hmap, hst, Memory.writeRange_wf hw a bytes, hk, Memory.writeRange_below h hwb, hkb⟩

theorem State.Inv.mapBlocksW {s : State} (hs : s.Inv) {f : List Byte → List Byte}
    (hf : ∀ b, (f b).length = 16) {a len : Nat} (hvalid : a + len ≤ s.wlen.toNat) :
    (s.mapBlocksW f a len).Inv := by
  have hcap := hs.wlen_le
  have hfit : a + 16 * (len / 16) ≤ s.wcap.toNat := by omega
  obtain ⟨hlen, hmap, hst, hw, hk, hwb, hkb⟩ := hs
  exact ⟨hlen, hmap, hst, mapBlocks_wf f a _ hw, hk, mapBlocks_below f hf a _ _ hfit hwb, hkb⟩

theorem State.Inv.appendW {s : State} (hs : s.Inv) {bytes : List Byte}
    (h : s.wlen.toNat + bytes.length ≤ s.wcap.toNat) : (s.appendW bytes).Inv := by
  have hlen : (s.wlen + BitVec.ofNat 24 bytes.length).toNat ≤ s.wcap.toNat :=
    (s.appendW_wlen_toNat bytes h).trans_le h
  exact (hs.putW h).setWlen hlen

theorem State.Inv.replaceW {s : State} (hs : s.Inv) {bytes : List Byte}
    (h : bytes.length ≤ s.wcap.toNat) : (s.replaceW bytes).Inv := by
  have hlen : (BitVec.ofNat 24 bytes.length).toNat ≤ s.wcap.toNat := by
    rw [BitVec.toNat_ofNat]
    exact (Nat.mod_le _ _).trans h
  exact (hs.putW (by omega)).setWlen hlen

/-! ### One rule per check and per access -/

section Checks
variable {s : State} {op : Byte} {rest : Out}

theorem raise_keepsInv (hs : s.Inv) {e : ErrCode} (he : e ≠ .unsupportedTag) :
    KeepsInv s (raise e op s) := .next (hs.raised he op) rfl

/-- A check either takes its error or leaves the rest of the operation with its condition refuted. -/
theorem raiseIf_keepsInv {c : Prop} [Decidable c] (hs : s.Inv) {e : ErrCode} (he : e ≠ .unsupportedTag)
    (h : ¬c → KeepsInv s rest) : KeepsInv s (if c then raise e op s else rest) := by
  split
  · exact raise_keepsInv hs he
  · next hc => exact h hc

theorem need_keepsInv {a n : Nat} (hs : s.Inv) (h : a + n ≤ s.wlen.toNat → KeepsInv s rest) :
    KeepsInv s (need op a n s rest) :=
  raiseIf_keepsInv hs (by decide) fun hc => h (Nat.not_lt.1 hc)

theorem room_keepsInv {n : Nat} (hs : s.Inv) (h : s.wlen.toNat + n ≤ s.wcap.toNat → KeepsInv s rest) :
    KeepsInv s (room op n s rest) :=
  raiseIf_keepsInv hs (by decide) fun hc => h (Nat.not_lt.1 hc)

theorem keyOk_keepsInv (hs : s.Inv) (h : KeepsInv s rest) : KeepsInv s (keyOk op s rest) :=
  raiseIf_keepsInv hs (by decide) fun _ => h

theorem wholeBlocks_keepsInv {len : Nat} (hs : s.Inv) (h : KeepsInv s rest) :
    KeepsInv s (wholeBlocks op len s rest) :=
  raiseIf_keepsInv hs (by decide) fun _ => h

theorem widthOk_keepsInv {n : Index} (hs : s.Inv) (h : KeepsInv s rest) :
    KeepsInv s (widthOk op n s rest) := by
  unfold widthOk
  split
  · exact h
  · exact raise_keepsInv hs (by decide)

/-- An access to valid bytes of a legal state meets no fault: `WLEN` is within the capacity. -/
theorem accessW_keepsInv {a n : Nat} (hs : s.Inv) (hvalid : a + n ≤ s.wlen.toNat) (h : KeepsInv s rest) :
    KeepsInv s (accessW a n s rest) := by
  rw [accessW_pass (hvalid.trans hs.wlen_le)]
  exact h

theorem readW_keepsInv {a n : Nat} {rest : List Byte → Out} (hs : s.Inv) (hvalid : a + n ≤ s.wlen.toNat)
    (h : KeepsInv s (rest (s.w.readRange a n))) : KeepsInv s (readW a n s rest) :=
  accessW_keepsInv hs hvalid h

/-- The opening of most operations: the range is checked, then read. -/
theorem needRead_keepsInv {a n : Nat} {rest : List Byte → Out} (hs : s.Inv)
    (h : a + n ≤ s.wlen.toNat → KeepsInv s (rest (s.w.readRange a n))) :
    KeepsInv s (need op a n s (readW a n s rest)) :=
  need_keepsInv hs fun hvalid => readW_keepsInv hs hvalid (h hvalid)

end Checks

/-! ### Appended bytes -/

theorem packBytes_length (e : ByteOrder) (t h : Raw12) : (packBytes e t h).length = 3 := by cases e <;> rfl

theorem padLength_pos (n : Nat) : 1 ≤ padLength n := by
  have := Nat.mod_lt n (show 0 < 16 by decide)
  simp only [padLength, Config.block]
  omega

theorem padBytes_length {k : Nat} (hk : 1 ≤ k) : (padBytes k).length = k := by
  simp only [padBytes, List.length_append, List.length_replicate, List.length_singleton]
  omega

/-! ### The map built from key bytes (44_unescaper.md R163) -/

theorem buildMap_ok {k0 k1 k2 : Byte} {m : SubstMap} (h : buildMap k0 k1 k2 = .ok m) :
    m.distinct = true := by
  simp only [buildMap] at h
  split at h
  · next hd =>
    cases h
    exact hd
  · cases h

theorem buildMap_error {k0 k1 k2 : Byte} {e : ErrCode} (h : buildMap k0 k1 k2 = .error e) :
    e = .malformedInput := by
  simp only [buildMap] at h
  split at h
  · cases h
  · cases h
    rfl

/-! ### The errors of `unescape` (44_unescaper.md R169) -/

/-- The two errors of the unescaper. -/
def IsUnescapeError (e : ErrCode) : Prop := e = .bufferUnderrun ∨ e = .malformedInput

theorem IsUnescapeError.ne_unsupportedTag {e : ErrCode} (h : IsUnescapeError e) :
    e ≠ .unsupportedTag := by
  rcases h with rfl | rfl <;> decide

theorem keyOfFragment_error {prev : List Byte} {e : ErrCode} (h : keyOfFragment prev = .error e) :
    IsUnescapeError e := by
  unfold keyOfFragment at h
  split at h
  · cases h
  · split at h
    · cases h
      exact .inl rfl
    · exact .inr (buildMap_error h)

theorem contentOfFragment_error {m : SubstMap} {f : List Byte} {e : ErrCode}
    (h : contentOfFragment m f = .error e) : e = .bufferUnderrun := by
  unfold contentOfFragment at h
  split at h
  · cases h
    rfl
  · split at h
    · cases h
      rfl
    · cases h

theorem joinFragments_error {prev : List Byte} {fs : List (List Byte)} {e : ErrCode}
    (h : joinFragments prev fs = .error e) : IsUnescapeError e := by
  induction fs generalizing prev with
  | nil => cases h
  | cons f fs ih =>
    unfold joinFragments at h
    split at h
    · next hkey =>
      cases h
      exact keyOfFragment_error hkey
    · split at h
      · next hcontent =>
        cases h
        exact .inl (contentOfFragment_error hcontent)
      · split at h
        · next hrest =>
          cases h
          exact ih hrest
        · cases h

theorem unescapeUnsplit_error {b : List Byte} {e : ErrCode} (h : unescapeUnsplit b = .error e) :
    IsUnescapeError e := by
  unfold unescapeUnsplit at h
  split at h
  · cases h
  · split at h
    · cases h
      exact .inl rfl
    · split at h
      · next hmap =>
        cases h
        exact .inr (buildMap_error hmap)
      · cases h

theorem unescape_error {raw : List Byte} {e : ErrCode} (h : unescape raw = .error e) :
    IsUnescapeError e := by
  simp only [unescape] at h
  split at h
  · exact joinFragments_error h
  · exact unescapeUnsplit_error h

/-! ### The length of `unescape`'s output (44_unescaper.md R169) -/

theorem dropDoubled_length_le (s : List Byte) : (dropDoubled s).length ≤ s.length := by
  unfold dropDoubled
  split
  · split
    · exact Nat.le_succ _
    · exact Nat.le_refl _
  · exact Nat.le_refl _

theorem flatten_consPiece (b : Byte) (fs : List (List Byte)) :
    (consPiece b fs).flatten = b :: fs.flatten := by
  cases fs <;> rfl

/-- Splitting adds no byte: the pieces hold the sequence without its marks. -/
theorem splitMarks_flatten_length_le (s : List Byte) : (splitMarks s).flatten.length ≤ s.length := by
  induction s using splitMarks.induct with
  | case1 a b c s hmark ih =>
    rw [splitMarks, if_pos hmark]
    simp only [List.flatten_cons, List.nil_append, List.length_cons]
    omega
  | case2 a b c s hmark ih =>
    rw [splitMarks, if_neg hmark, flatten_consPiece]
    exact Nat.succ_le_succ ih
  | case3 s hshort =>
    rw [splitMarks]
    · simp
    · exact hshort

theorem contentOfFragment_length_le {m : SubstMap} {f out : List Byte}
    (h : contentOfFragment m f = .ok out) : out.length ≤ f.length := by
  unfold contentOfFragment at h
  split at h
  · cases h
  · split at h
    · cases h
    · cases h
      simp only [applyMap, List.length_map, List.length_take, List.length_drop]
      omega

theorem joinFragments_length_le {prev out : List Byte} {fs : List (List Byte)}
    (h : joinFragments prev fs = .ok out) : out.length ≤ fs.flatten.length := by
  induction fs generalizing prev out with
  | nil =>
    cases h
    exact Nat.le_refl _
  | cons f fs ih =>
    unfold joinFragments at h
    split at h
    · cases h
    · split at h
      · cases h
      · next hcontent =>
        split at h
        · cases h
        · next hrest =>
          cases h
          have hf := contentOfFragment_length_le hcontent
          have hfs := ih hrest
          simp only [List.length_append, List.flatten_cons]
          omega

theorem unescapeUnsplit_length_le {b out : List Byte} (h : unescapeUnsplit b = .ok out) :
    out.length ≤ b.length := by
  unfold unescapeUnsplit at h
  split at h
  · cases h
    exact Nat.le_refl _
  · split at h
    · cases h
    · split at h
      · cases h
      · cases h
        simp only [applyMap, List.length_map, List.length_drop]
        omega

/-- R169: the output is never longer than the input. -/
theorem unescape_length_le {raw out : List Byte} (h : unescape raw = .ok out) :
    out.length ≤ raw.length := by
  have hdrop := dropDoubled_length_le raw
  simp only [unescape] at h
  split at h
  · next header f fs hsplit =>
    have hjoin := joinFragments_length_le h
    have hpieces := splitMarks_flatten_length_le (dropDoubled raw)
    rw [hsplit, List.flatten_cons, List.length_append] at hpieces
    omega
  · have hunsplit := unescapeUnsplit_length_le h
    omega

/-! ### The operations -/

section Operations
variable {s : State}

theorem execBufPush_keepsInv (hs : s.Inv) (imm : Byte) : KeepsInv s (execBufPush imm s) :=
  room_keepsInv hs fun hroom => .next (hs.appendW hroom) rfl

theorem execKeyPush_keepsInv (hs : s.Inv) (imm : Byte) : KeepsInv s (execKeyPush imm s) := by
  have hk := hs.klen_le
  refine raiseIf_keepsInv hs (by decide) fun hfull => ?_
  have hlt : s.klen.toNat < 32 := Nat.lt_of_le_of_ne hk hfull
  rw [if_neg (Nat.not_lt.2 hk)]
  have hnext : (s.klen + 1#6).toNat ≤ 32 := by
    simp only [BitVec.toNat_add, BitVec.toNat_ofNat]
    omega
  exact .next ((hs.writeK hlt imm).setKlen hnext) rfl

theorem execSumRng_keepsInv (hs : s.Inv) (off len : Index) : KeepsInv s (execSumRng off len s) :=
  needRead_keepsInv hs fun _ => .next hs rfl

theorem execSumChk_keepsInv (hs : s.Inv) (off len : Index) : KeepsInv s (execSumChk off len s) :=
  raiseIf_keepsInv hs (by decide) fun _ =>
  need_keepsInv hs fun _ =>
  readW_keepsInv hs (by omega) <|
  readW_keepsInv hs (by omega) <|
  raiseIf_keepsInv hs (by decide) fun _ => .next hs rfl

theorem execSumApp_keepsInv (hs : s.Inv) (off : Index) : KeepsInv s (execSumApp off s) :=
  need_keepsInv hs fun _ =>
  room_keepsInv hs fun hroom =>
  readW_keepsInv hs (by omega) <| .next (hs.appendW hroom) rfl

theorem execCrcRng_keepsInv (hs : s.Inv) (off len : Index) : KeepsInv s (execCrcRng off len s) :=
  needRead_keepsInv hs fun _ => .next hs rfl

theorem execCrcChk_keepsInv (hs : s.Inv) (off len : Index) : KeepsInv s (execCrcChk off len s) :=
  needRead_keepsInv hs fun _ =>
  raiseIf_keepsInv hs (by decide) fun _ => .next hs rfl

theorem execCrcApp_keepsInv (hs : s.Inv) (off : Index) : KeepsInv s (execCrcApp off s) :=
  need_keepsInv hs fun _ =>
  room_keepsInv hs fun hroom =>
  readW_keepsInv hs (by omega) <| .next (hs.appendW hroom) rfl

/-- A block put back where a range of 16 valid bytes was read. -/
theorem putBlock_keepsInv (hs : s.Inv) {a : Nat} {block : List Byte} (hlen : block.length = 16)
    (hvalid : a + 16 ≤ s.wlen.toNat) : KeepsInv s (.next (s.putW a block)) :=
  .next (hs.putW (by have := hs.wlen_le; omega)) rfl

theorem execAesEncb_keepsInv (hs : s.Inv) (off : Index) : KeepsInv s (execAesEncb off s) :=
  keyOk_keepsInv hs <| needRead_keepsInv hs (putBlock_keepsInv hs (cipher_length _ _))

theorem execAesDecb_keepsInv (hs : s.Inv) (off : Index) : KeepsInv s (execAesDecb off s) :=
  keyOk_keepsInv hs <| needRead_keepsInv hs (putBlock_keepsInv hs (invCipher_length _ _))

theorem execAesEnc_keepsInv (hs : s.Inv) (off len : Index) : KeepsInv s (execAesEnc off len s) :=
  keyOk_keepsInv hs <|
  wholeBlocks_keepsInv hs <|
  need_keepsInv hs fun hvalid =>
  accessW_keepsInv hs hvalid <|
  .next (hs.mapBlocksW (cipher_length _) hvalid) rfl

theorem execAesDec_keepsInv (hs : s.Inv) (off len : Index) : KeepsInv s (execAesDec off len s) :=
  keyOk_keepsInv hs <|
  wholeBlocks_keepsInv hs <|
  need_keepsInv hs fun hvalid =>
  accessW_keepsInv hs hvalid <|
  .next (hs.mapBlocksW (invCipher_length _) hvalid) rfl

theorem execAesPad_keepsInv (hs : s.Inv) (off : Index) : KeepsInv s (execAesPad off s) :=
  need_keepsInv hs fun _ =>
  room_keepsInv hs fun hroom =>
  .next (hs.appendW (by rwa [padBytes_length (padLength_pos _)])) rfl

theorem execAesUnpad_keepsInv (hs : s.Inv) (off : Index) : KeepsInv s (execAesUnpad off s) :=
  need_keepsInv hs fun _ =>
  raiseIf_keepsInv hs (by decide) fun _ =>
  readW_keepsInv hs (by omega) <|
  raiseIf_keepsInv hs (by decide) fun _ =>
  .next (hs.setWlen (by have := hs.wlen_le; rw [BitVec.toNat_ofNat]; omega)) rfl

theorem execMrkTst_keepsInv (hs : s.Inv) (off : Index) : KeepsInv s (execMrkTst off s) :=
  needRead_keepsInv hs fun _ => .next hs rfl

theorem execAesDecc_keepsInv (hs : s.Inv) (off len : Index) : KeepsInv s (execAesDecc off len s) := by
  refine raiseIf_keepsInv hs (by decide) fun _ => need_keepsInv hs fun hvalid =>
    readW_keepsInv hs (by omega) ?_
  split
  · exact .next hs rfl
  · exact keyOk_keepsInv hs <| wholeBlocks_keepsInv hs <| accessW_keepsInv hs hvalid <|
      .next (hs.mapBlocksW (invCipher_length _) hvalid) rfl

theorem execUneMap_keepsInv (hs : s.Inv) (off : Index) : KeepsInv s (execUneMap off s) := by
  refine needRead_keepsInv hs fun _ => ?_
  split
  · next e herr => exact raise_keepsInv hs (by rw [buildMap_error herr]; decide)
  · next m hok => exact .next (hs.setMap (buildMap_ok hok)) rfl

theorem execUneSub_keepsInv (hs : s.Inv) (off len : Index) : KeepsInv s (execUneSub off len s) :=
  needRead_keepsInv hs fun hvalid => .next (hs.putW (by simpa [applyMap] using hvalid.trans hs.wlen_le)) rfl

theorem execUneRun_keepsInv (hs : s.Inv) : KeepsInv s (execUneRun s) := by
  refine readW_keepsInv hs (Nat.zero_add _).le ?_
  split
  · next e herr => exact raise_keepsInv hs (unescape_error herr).ne_unsupportedTag
  · next r hok =>
    have hlen := unescape_length_le hok
    rw [Memory.readRange_length] at hlen
    exact .next (hs.replaceW (hlen.trans hs.wlen_le)) rfl

theorem execUnpTh_keepsInv (hs : s.Inv) (e : ByteOrder) (off : Index) : KeepsInv s (execUnpTh e off s) :=
  needRead_keepsInv hs fun _ => .next hs rfl

theorem execPckTh_keepsInv (hs : s.Inv) (e : ByteOrder) (t h : Raw12) :
    KeepsInv s (execPckTh e t h s) :=
  room_keepsInv hs fun hroom => .next (hs.appendW (by rwa [packBytes_length])) rfl

theorem execFldU_keepsInv (hs : s.Inv) (e : ByteOrder) (off n : Index) :
    KeepsInv s (execFldU e off n s) :=
  widthOk_keepsInv hs <| needRead_keepsInv hs fun _ => .next hs rfl

theorem execFldS_keepsInv (hs : s.Inv) (e : ByteOrder) (off n : Index) :
    KeepsInv s (execFldS e off n s) :=
  widthOk_keepsInv hs <| needRead_keepsInv hs fun _ => .next hs rfl

/-- Every operation from a legal state answers a legal next state. -/
theorem exec_keepsInv (hs : s.Inv) (i : Instr) : KeepsInv s (exec i s) := by
  cases i with
  | nop => exact .next hs rfl
  | rst => exact .next hs.resetRegs rfl
  | stClr => exact .next hs.clearStatus rfl
  | bufClr => exact .next (hs.setWlen (Nat.zero_le _)) rfl
  | bufPush imm => exact execBufPush_keepsInv hs imm
  | keyClr => exact .next (hs.setKlen (Nat.zero_le _)) rfl
  | keyPush imm => exact execKeyPush_keepsInv hs imm
  | sumClr => exact .next hs rfl
  | sumByte imm => exact .next hs rfl
  | sumRng off len => exact execSumRng_keepsInv hs off len
  | sumChk off len => exact execSumChk_keepsInv hs off len
  | sumApp off => exact execSumApp_keepsInv hs off
  | crcInit => exact .next hs rfl
  | crcByte imm => exact .next hs rfl
  | crcRng off len => exact execCrcRng_keepsInv hs off len
  | crcChk off len => exact execCrcChk_keepsInv hs off len
  | crcApp off => exact execCrcApp_keepsInv hs off
  | aesEncb off => exact execAesEncb_keepsInv hs off
  | aesDecb off => exact execAesDecb_keepsInv hs off
  | aesEnc off len => exact execAesEnc_keepsInv hs off len
  | aesDec off len => exact execAesDec_keepsInv hs off len
  | aesPad off => exact execAesPad_keepsInv hs off
  | aesUnpad off => exact execAesUnpad_keepsInv hs off
  | mrkTst off => exact execMrkTst_keepsInv hs off
  | aesDecc off len => exact execAesDecc_keepsInv hs off len
  | uneClr => exact .next (hs.setMap rfl) rfl
  | uneMap off => exact execUneMap_keepsInv hs off
  | uneSub off len => exact execUneSub_keepsInv hs off len
  | uneRun => exact execUneRun_keepsInv hs
  | unpTh e off => exact execUnpTh_keepsInv hs e off
  | pckTh e t h => exact execPckTh_keepsInv hs e t h
  | fldU e off n => exact execFldU_keepsInv hs e off n
  | fldS e off n => exact execFldS_keepsInv hs e off n

end Operations

/-! ### Commands, steps and runs -/

/-- The dispatch (60_exceptions.md R224), for any word: blocked, illegal, or an operation. -/
theorem runCommand_keepsInv {s : State} (hs : s.Inv) (cmd : CmdWord) : KeepsInv s (runCommand cmd s) := by
  unfold runCommand
  split
  · split
    · exact exec_keepsInv hs .rst
    · split
      · exact exec_keepsInv hs .stClr
      · exact .next hs rfl
  · split
    · exact raise_keepsInv hs (by decide)
    · next i _ => exact exec_keepsInv hs i

theorem step_nil {s : State} (h : s.cmds = []) : step s = .next s := by
  simp only [step, fetch, h]

theorem step_cons {s : State} {cmd : CmdWord} {rest : List CmdWord} (h : s.cmds = cmd :: rest) :
    step s = runCommand cmd (s.setCmds rest) := by
  simp only [step, fetch, h]

/-- One step from a legal state answers a legal next state. -/
theorem step_keepsInv {s : State} (hs : s.Inv) : KeepsInv s (step s) := by
  cases h : s.cmds with
  | nil =>
    rw [step_nil h]
    exact .next hs rfl
  | cons cmd rest =>
    have hrest : (s.setCmds rest).Inv := hs
    rw [step_cons h]
    exact runCommand_keepsInv hrest cmd

theorem run_succ_of_step {M : Host.Core} {s t : M.State} (h : M.step s = .next t) (n : Nat) :
    M.run (n + 1) s = M.run n t := by
  simp only [Host.Core.run, h]

/-- Any number of steps from a legal state answers a legal next state. -/
theorem run_keepsInv (n : Nat) {s : State} (hs : s.Inv) : KeepsInv s (Sys2Proof.core.run n s) := by
  induction n generalizing s with
  | zero => exact .next hs rfl
  | succ n ih =>
    obtain ⟨t, hstep, ht, hcap⟩ := step_keepsInv hs
    obtain ⟨u, hrun, hu, hcap'⟩ := ih ht
    exact ⟨u, (run_succ_of_step (M := Sys2Proof.core) hstep n).trans hrun, hu, hcap'.trans hcap⟩

/-- Settles O4, by induction on the number of steps: each keeps the invariant and meets no stop. -/
theorem noRunFromALegalStateStops : Obligations.NoRunFromALegalStateStops := by
  intro n s hs
  obtain ⟨t, hrun, ht, -⟩ := run_keepsInv n hs
  exact ⟨t, hrun, ht⟩

end Sys2Proof.Machine
end

section
/-! The state of the block as a whole (10_state.md): its reset column, the invariant, what each operation may write
(R33), and that a whole-function operation reads no data register. -/

namespace Sys2Proof.Machine

/-! ### Reset, the invariant and the view `CRCSW` -/

/-- Settles O3: a step from a legal state answers one next state, legal and with the same capacity. -/
theorem everyStepKeepsTheInvariant : Obligations.EveryStepKeepsTheInvariant := by
  intro s t hs hstep
  obtain ⟨u, hu, hinv, hcap⟩ := step_keepsInv hs
  obtain rfl : u = t := Host.Outcome.next.inj (hu.symm.trans hstep)
  exact ⟨hinv, hcap⟩

theorem State.wBytes_of_wlen_zero {s : State} (h : s.wlen = 0#24) : s.wBytes = [] := by
  simp [State.wBytes, h, Memory.readRange]

theorem State.kBytes_of_klen_zero {s : State} (h : s.klen = 0#6) : s.kBytes = [] := by
  simp [State.kBytes, h, Memory.readRange]

/-- Settles O1: both columns are the fields of `State.reset` and of `State.resetRegs`, and with both lengths 0 no
byte is valid. -/
theorem resetAndRstGiveTheResetColumn : Obligations.ResetAndRstGiveTheResetColumn :=
  ⟨⟨rfl, rfl, rfl, rfl, rfl, rfl, rfl, rfl, rfl, rfl, rfl,
      State.wBytes_of_wlen_zero rfl, State.kBytes_of_klen_zero rfl⟩,
    fun s => ⟨s.resetRegs, rfl, rfl, State.wBytes_of_wlen_zero rfl, State.kBytes_of_klen_zero rfl⟩⟩

/-- Settles O2: at reset both lengths are 0, the map is empty, no error is pending and both memories list nothing. -/
theorem invariantHoldsAtReset : Obligations.InvariantHoldsAtReset := by
  intro cap hcap
  have hlen : State.LengthsOk { State.reset with wcap := cap } := ⟨hcap, Nat.zero_le _, Nat.zero_le _⟩
  have hmem : State.MemoryOk { State.reset with wcap := cap } := ⟨rfl, rfl, rfl, rfl⟩
  exact ⟨hlen, rfl, statusOk_of_no_error rfl rfl, hmem⟩

/-- The byte swap on exact numbers: the low byte becomes the high one (10_state.md R21). -/
theorem byteSwap_toNat (r : Half) : (byteSwap r).toNat = r.toNat % 256 * 256 + r.toNat / 256 := by
  have hlow : (r.extractLsb' 0 8).toNat = r.toNat % 256 := by simp
  have hhigh : (r.extractLsb' 8 8).toNat = r.toNat / 256 := by
    have := r.isLt
    rw [BitVec.extractLsb'_toNat, Nat.shiftRight_eq_div_pow]
    omega
  rw [byteSwap, BitVec.toNat_append, ← Nat.shiftLeft_add_eq_or_of_lt (BitVec.isLt _), hlow, hhigh,
    Nat.shiftLeft_eq]

theorem byteSwap_eq_zero_iff (r : Half) : byteSwap r = 0#16 ↔ r = 0#16 := by
  rw [← BitVec.toNat_inj, ← BitVec.toNat_inj, byteSwap_toNat, BitVec.toNat_ofNat]
  omega

/-- Settles O39: the view is the byte swap of the register. -/
theorem crcSwIsTheSwappedRegister : Obligations.CrcSwIsTheSwappedRegister :=
  fun s => ⟨byteSwap_toNat s.crc, byteSwap_eq_zero_iff s.crc⟩

/-! ### What an operation may write (10_state.md R33) -/

/-- `t` differs from `s` at most in the targets `l` and in the status registers. -/
def DiffersOnlyIn (l : List Target) (s t : State) : Prop :=
  (∀ g : Target, g ∉ l → sameTarget s t g) ∧ t.wcap = s.wcap ∧ t.cmds = s.cmds

theorem sameTarget_refl (s : State) (g : Target) : sameTarget s s g := by
  cases g <;> simp [sameTarget]

theorem sameTarget_trans {s t u : State} {g : Target} (h : sameTarget s t g) (h' : sameTarget t u g) :
    sameTarget s u g := by
  cases g <;> simp_all [sameTarget]

section Writes
variable {l l' : List Target} {s t u : State}

theorem DiffersOnlyIn.refl (l : List Target) (s : State) : DiffersOnlyIn l s s :=
  ⟨fun g _ => sameTarget_refl s g, rfl, rfl⟩

theorem DiffersOnlyIn.trans (h : DiffersOnlyIn l s t) (h' : DiffersOnlyIn l' t u) :
    DiffersOnlyIn (l ++ l') s u := by
  obtain ⟨hsame, hcap, hcmds⟩ := h
  obtain ⟨hsame', hcap', hcmds'⟩ := h'
  refine ⟨fun g hg => ?_, hcap'.trans hcap, hcmds'.trans hcmds⟩
  obtain ⟨hl, hl'⟩ := not_or.1 (mt List.mem_append.2 hg)
  exact sameTarget_trans (hsame g hl) (hsame' g hl')

theorem DiffersOnlyIn.mono (hsub : l ⊆ l') (h : DiffersOnlyIn l s t) : DiffersOnlyIn l' s t := by
  obtain ⟨hsame, hkept⟩ := h
  exact ⟨fun g hg => hsame g (mt (@hsub g) hg), hkept⟩

/-! One rule per register write: it writes its own target. -/

theorem setCrc_differsOnlyIn (s : State) (v : Half) : DiffersOnlyIn [.crc] s (s.setCrc v) :=
  ⟨fun g hg => by cases g <;> simp [sameTarget] at hg ⊢, rfl, rfl⟩

theorem setSum_differsOnlyIn (s : State) (v : Half) : DiffersOnlyIn [.sum] s (s.setSum v) :=
  ⟨fun g hg => by cases g <;> simp [sameTarget] at hg ⊢, rfl, rfl⟩

theorem setTH_differsOnlyIn (s : State) (v w : Raw12) : DiffersOnlyIn [.trHr] s (s.setTH v w) :=
  ⟨fun g hg => by cases g <;> simp [sameTarget] at hg ⊢, rfl, rfl⟩

theorem setFv_differsOnlyIn (s : State) (v : Word32) : DiffersOnlyIn [.fv] s (s.setFv v) :=
  ⟨fun g hg => by cases g <;> simp [sameTarget] at hg ⊢, rfl, rfl⟩

theorem setMap_differsOnlyIn (s : State) (m : SubstMap) : DiffersOnlyIn [.map] s (s.setMap m) :=
  ⟨fun g hg => by cases g <;> simp [sameTarget] at hg ⊢, rfl, rfl⟩

theorem setPlain_differsOnlyIn (s : State) (p : Bool) : DiffersOnlyIn [.plain] s (s.setPlain p) :=
  ⟨fun g hg => by cases g <;> simp [sameTarget] at hg ⊢, rfl, rfl⟩

theorem setWlen_differsOnlyIn (s : State) (v : Index) : DiffersOnlyIn [.wlen] s (s.setWlen v) :=
  ⟨fun g hg => by cases g <;> simp [sameTarget] at hg ⊢, rfl, rfl⟩

theorem setKlen_differsOnlyIn (s : State) (v : BitVec 6) : DiffersOnlyIn [.klen] s (s.setKlen v) :=
  ⟨fun g hg => by cases g <;> simp [sameTarget] at hg ⊢, rfl, rfl⟩

theorem setW_differsOnlyIn (s : State) (m : Memory) : DiffersOnlyIn [.wMem] s (s.setW m) :=
  ⟨fun g hg => by cases g <;> simp [sameTarget] at hg ⊢, rfl, rfl⟩

theorem setK_differsOnlyIn (s : State) (m : Memory) : DiffersOnlyIn [.kMem] s (s.setK m) :=
  ⟨fun g hg => by cases g <;> simp [sameTarget] at hg ⊢, rfl, rfl⟩

theorem setStatus_differsOnlyIn (l : List Target) (s : State) (e op : Byte) :
    DiffersOnlyIn l s (s.setStatus e op) :=
  ⟨fun g _ => by cases g <;> simp [sameTarget], rfl, rfl⟩

theorem resetRegs_differsOnlyIn (s : State) :
    DiffersOnlyIn [.crc, .sum, .trHr, .fv, .map, .plain, .wlen, .klen] s s.resetRegs :=
  ⟨fun g hg => by cases g <;> simp [sameTarget] at hg ⊢, rfl, rfl⟩

theorem appendW_differsOnlyIn (s : State) (bytes : List Byte) :
    DiffersOnlyIn [.wMem, .wlen] s (s.appendW bytes) :=
  (setW_differsOnlyIn s _).trans (setWlen_differsOnlyIn _ _)

theorem replaceW_differsOnlyIn (s : State) (bytes : List Byte) :
    DiffersOnlyIn [.wMem, .wlen] s (s.replaceW bytes) :=
  (setW_differsOnlyIn s _).trans (setWlen_differsOnlyIn _ _)

end Writes

/-- If the outcome of an operation begun in `s` is a next state, it differs from `s` at most in the targets `l`. -/
def WritesOnly (l : List Target) (s : State) (o : Out) : Prop := ∀ t : State, o = .next t → DiffersOnlyIn l s t

section WriteRules
variable {l : List Target} {s : State} {op : Byte} {rest : Out}

theorem WritesOnly.next {t : State} (h : DiffersOnlyIn l s t) : WritesOnly l s (.next t) :=
  fun _ heq => Host.Outcome.next.inj heq ▸ h

theorem raise_writesOnly (l : List Target) (e : ErrCode) (op : Byte) (s : State) :
    WritesOnly l s (raise e op s) := .next (setStatus_differsOnlyIn l s _ _)

theorem fault_writesOnly (l : List Target) (s : State) (r : Fault) : WritesOnly l s (.fault r) :=
  fun _ heq => nomatch heq

theorem ite_writesOnly {c : Prop} [Decidable c] {o o' : Out} (h : WritesOnly l s o) (h' : WritesOnly l s o') :
    WritesOnly l s (if c then o else o') := by
  split
  · exact h
  · exact h'

/-- A check writes nothing: it takes its error or leaves the rest of the operation. -/
theorem raiseIf_writesOnly {c : Prop} [Decidable c] {e : ErrCode} (h : WritesOnly l s rest) :
    WritesOnly l s (if c then raise e op s else rest) :=
  ite_writesOnly (raise_writesOnly l e op s) h

theorem need_writesOnly {a n : Nat} (h : WritesOnly l s rest) : WritesOnly l s (need op a n s rest) :=
  raiseIf_writesOnly h

theorem room_writesOnly {n : Nat} (h : WritesOnly l s rest) : WritesOnly l s (room op n s rest) :=
  raiseIf_writesOnly h

theorem keyOk_writesOnly (h : WritesOnly l s rest) : WritesOnly l s (keyOk op s rest) :=
  raiseIf_writesOnly h

theorem wholeBlocks_writesOnly {len : Nat} (h : WritesOnly l s rest) :
    WritesOnly l s (wholeBlocks op len s rest) :=
  raiseIf_writesOnly h

theorem widthOk_writesOnly {n : Index} (h : WritesOnly l s rest) : WritesOnly l s (widthOk op n s rest) :=
  ite_writesOnly h (raise_writesOnly l _ op s)

theorem accessW_writesOnly {a n : Nat} (h : WritesOnly l s rest) : WritesOnly l s (accessW a n s rest) :=
  ite_writesOnly (fault_writesOnly l s _) h

theorem readW_writesOnly {a n : Nat} {rest : List Byte → Out}
    (h : ∀ bytes, WritesOnly l s (rest bytes)) : WritesOnly l s (readW a n s rest) :=
  accessW_writesOnly (h _)

/-- The opening of most operations: the range is checked, then read. -/
theorem needRead_writesOnly {a n : Nat} {rest : List Byte → Out}
    (h : ∀ bytes, WritesOnly l s (rest bytes)) : WritesOnly l s (need op a n s (readW a n s rest)) :=
  need_writesOnly (readW_writesOnly h)

end WriteRules

/-! The operations with a choice of their own, then all of them. -/

theorem execKeyPush_writesOnly (imm : Byte) (s : State) :
    WritesOnly [.kMem, .klen] s (execKeyPush imm s) :=
  raiseIf_writesOnly <| ite_writesOnly (fault_writesOnly _ s _) <|
    .next ((setK_differsOnlyIn s _).trans (setKlen_differsOnlyIn _ _))

theorem execSumChk_writesOnly (off len : Index) (s : State) : WritesOnly [.sum] s (execSumChk off len s) :=
  raiseIf_writesOnly <| need_writesOnly <| readW_writesOnly fun _ => readW_writesOnly fun _ =>
    raiseIf_writesOnly <| .next (setSum_differsOnlyIn s _)

theorem execAesUnpad_writesOnly (off : Index) (s : State) : WritesOnly [.wlen] s (execAesUnpad off s) :=
  need_writesOnly <| raiseIf_writesOnly <| readW_writesOnly fun _ =>
    raiseIf_writesOnly <| .next (setWlen_differsOnlyIn s _)

/-- A marked frame is left as it is, so only `PLAIN` is written; else the blocks are replaced too. -/
theorem execAesDecc_writesOnly (off len : Index) (s : State) :
    WritesOnly [.plain, .wMem] s (execAesDecc off len s) := by
  have hmarked : DiffersOnlyIn [.plain, .wMem] s (s.setPlain true) :=
    (setPlain_differsOnlyIn s true).mono (by simp)
  have hdecrypted : DiffersOnlyIn [.plain, .wMem] s
      ((s.mapBlocksW (invCipher s.kBytes) off.toNat len.toNat).setPlain false) :=
    ((setW_differsOnlyIn s _).trans (setPlain_differsOnlyIn _ false)).mono (by simp)
  exact raiseIf_writesOnly <| need_writesOnly <| readW_writesOnly fun _ =>
    ite_writesOnly (.next hmarked) <| keyOk_writesOnly <| wholeBlocks_writesOnly <|
      accessW_writesOnly <| .next hdecrypted

theorem execUneMap_writesOnly (off : Index) (s : State) : WritesOnly [.map] s (execUneMap off s) := by
  refine needRead_writesOnly fun key => ?_
  split
  · exact raise_writesOnly _ _ _ s
  · exact .next (setMap_differsOnlyIn s _)

theorem execUneRun_writesOnly (s : State) : WritesOnly [.wMem, .wlen] s (execUneRun s) := by
  refine readW_writesOnly fun bytes => ?_
  split
  · exact raise_writesOnly _ _ _ s
  · exact .next (replaceW_differsOnlyIn s _)

/-- Every operation writes at most its row of the writes column. -/
theorem exec_writesOnly (i : Instr) (s : State) : WritesOnly (writesOf i) s (exec i s) := by
  cases i with
  | nop => exact .next (.refl _ s)
  | rst => exact .next (resetRegs_differsOnlyIn s)
  | stClr => exact .next (setStatus_differsOnlyIn _ s _ _)
  | bufClr => exact .next (setWlen_differsOnlyIn s _)
  | bufPush imm => exact room_writesOnly <| .next (appendW_differsOnlyIn s _)
  | keyClr => exact .next (setKlen_differsOnlyIn s _)
  | keyPush imm => exact execKeyPush_writesOnly imm s
  | sumClr => exact .next (setSum_differsOnlyIn s _)
  | sumByte imm => exact .next (setSum_differsOnlyIn s _)
  | sumRng off len => exact needRead_writesOnly fun _ => .next (setSum_differsOnlyIn s _)
  | sumChk off len => exact execSumChk_writesOnly off len s
  | sumApp off =>
    exact need_writesOnly <| room_writesOnly <| readW_writesOnly fun _ =>
      .next ((appendW_differsOnlyIn s _).trans (setSum_differsOnlyIn _ _))
  | crcInit => exact .next (setCrc_differsOnlyIn s _)
  | crcByte imm => exact .next (setCrc_differsOnlyIn s _)
  | crcRng off len => exact needRead_writesOnly fun _ => .next (setCrc_differsOnlyIn s _)
  | crcChk off len =>
    exact needRead_writesOnly fun _ => raiseIf_writesOnly <| .next (setCrc_differsOnlyIn s _)
  | crcApp off =>
    exact need_writesOnly <| room_writesOnly <| readW_writesOnly fun _ =>
      .next ((appendW_differsOnlyIn s _).trans (setCrc_differsOnlyIn _ _))
  | aesEncb off => exact keyOk_writesOnly <| needRead_writesOnly fun _ => .next (setW_differsOnlyIn s _)
  | aesDecb off => exact keyOk_writesOnly <| needRead_writesOnly fun _ => .next (setW_differsOnlyIn s _)
  | aesEnc off len =>
    exact keyOk_writesOnly <| wholeBlocks_writesOnly <| need_writesOnly <| accessW_writesOnly <|
      .next (setW_differsOnlyIn s _)
  | aesDec off len =>
    exact keyOk_writesOnly <| wholeBlocks_writesOnly <| need_writesOnly <| accessW_writesOnly <|
      .next (setW_differsOnlyIn s _)
  | aesPad off => exact need_writesOnly <| room_writesOnly <| .next (appendW_differsOnlyIn s _)
  | aesUnpad off => exact execAesUnpad_writesOnly off s
  | mrkTst off => exact needRead_writesOnly fun _ => .next (setPlain_differsOnlyIn s _)
  | aesDecc off len => exact execAesDecc_writesOnly off len s
  | uneClr => exact .next (setMap_differsOnlyIn s _)
  | uneMap off => exact execUneMap_writesOnly off s
  | uneSub off len => exact needRead_writesOnly fun _ => .next (setW_differsOnlyIn s _)
  | uneRun => exact execUneRun_writesOnly s
  | unpTh e off => exact needRead_writesOnly fun _ => .next (setTH_differsOnlyIn s _ _)
  | pckTh e t h => exact room_writesOnly <| .next (appendW_differsOnlyIn s _)
  | fldU e off n =>
    exact widthOk_writesOnly <| needRead_writesOnly fun _ => .next (setFv_differsOnlyIn s _)
  | fldS e off n =>
    exact widthOk_writesOnly <| needRead_writesOnly fun _ => .next (setFv_differsOnlyIn s _)

/-- Settles O10: checks and accesses write nothing, and each operation ends in writes of its listed targets. -/
theorem operationsWriteOnlyTheirListedTargets : Obligations.OperationsWriteOnlyTheirListedTargets :=
  fun i s => exec_writesOnly i s

/-! ### Whole-function operations read no data register (the opening of 10_state.md) -/

/-- The state `s` with the data registers, the map and the flag of `d`. -/
def State.withData (s d : State) : State :=
  { s with crc := d.crc, sum := d.sum, tr := d.tr, hr := d.hr, fv := d.fv, smap := d.smap, plain := d.plain }

theorem SameButData.eq_withData {s s' : State} (h : SameButData s s') : s' = s.withData s' := by
  have hdata := congrArg (State.withData · s') h
  exact hdata

/-- What a whole-function operation determines of its next state: the working buffer, its length, the status and,
when no error was taken, the targets `l`. -/
def SameResult (l : List Target) (t t' : State) : Prop :=
  t'.w = t.w ∧ t'.wlen = t.wlen ∧ t'.err = t.err ∧ t'.eop = t.eop ∧
    (t.err = 0#8 → ∀ g ∈ l, sameTarget t t' g)

/-- Two outcomes of one kind, with the same result. -/
abbrev EndAlike (l : List Target) (o o' : Out) : Prop := outcomeRel (SameResult l) o o'

section Alike
variable {l : List Target} {s d : State} {op : Byte} {rest rest' : Out}

/-- Two next states that differ only in data registers end alike when they agree on those among the targets. -/
theorem EndAlike.next (h : ∀ g ∈ l, sameTarget s (s.withData d) g) :
    EndAlike l (.next s) (.next (s.withData d)) :=
  ⟨rfl, rfl, rfl, rfl, fun _ => h⟩

/-- The buffer and its length are no data registers, so they agree in any case. -/
theorem EndAlike.buffers (s d : State) : EndAlike [.wMem, .wlen] (.next s) (.next (s.withData d)) :=
  .next (by simp [sameTarget, State.withData])

theorem EndAlike.mono {l' : List Target} {t t' : State} (hsub : l' ⊆ l) (h : EndAlike l (.next t) (.next t')) :
    EndAlike l' (.next t) (.next t') := by
  obtain ⟨hw, hwlen, herr, heop, hsame⟩ := h
  exact ⟨hw, hwlen, herr, heop, fun h0 g hg => hsame h0 g (hsub hg)⟩

theorem raise_alike (l : List Target) (e : ErrCode) (op : Byte) (s d : State) :
    EndAlike l (raise e op s) (raise e op (s.withData d)) :=
  ⟨rfl, rfl, rfl, rfl, fun h => absurd h e.code_ne_zero⟩

theorem ite_alike {c : Prop} [Decidable c] {o o' : Out} (h : EndAlike l o o') (h' : EndAlike l rest rest') :
    EndAlike l (if c then o else rest) (if c then o' else rest') := by
  split
  · exact h
  · exact h'

theorem raiseIf_alike {c : Prop} [Decidable c] {e : ErrCode} (h : EndAlike l rest rest') :
    EndAlike l (if c then raise e op s else rest) (if c then raise e op (s.withData d) else rest') :=
  ite_alike (raise_alike l e op s d) h

theorem need_alike {a n : Nat} (h : EndAlike l rest rest') :
    EndAlike l (need op a n s rest) (need op a n (s.withData d) rest') := raiseIf_alike h

theorem room_alike {n : Nat} (h : EndAlike l rest rest') :
    EndAlike l (room op n s rest) (room op n (s.withData d) rest') := raiseIf_alike h

theorem keyOk_alike (h : EndAlike l rest rest') :
    EndAlike l (keyOk op s rest) (keyOk op (s.withData d) rest') := raiseIf_alike h

theorem wholeBlocks_alike {len : Nat} (h : EndAlike l rest rest') :
    EndAlike l (wholeBlocks op len s rest) (wholeBlocks op len (s.withData d) rest') := raiseIf_alike h

theorem widthOk_alike {n : Index} (h : EndAlike l rest rest') :
    EndAlike l (widthOk op n s rest) (widthOk op n (s.withData d) rest') :=
  ite_alike h (raise_alike l _ op s d)

theorem accessW_alike {a n : Nat} (h : EndAlike l rest rest') :
    EndAlike l (accessW a n s rest) (accessW a n (s.withData d) rest') :=
  ite_alike rfl h

theorem readW_alike {a n : Nat} {rest rest' : List Byte → Out}
    (h : ∀ bytes, EndAlike l (rest bytes) (rest' bytes)) :
    EndAlike l (readW a n s rest) (readW a n (s.withData d) rest') :=
  accessW_alike (h _)

theorem needRead_alike {a n : Nat} {rest rest' : List Byte → Out}
    (h : ∀ bytes, EndAlike l (rest bytes) (rest' bytes)) :
    EndAlike l (need op a n s (readW a n s rest))
      (need op a n (s.withData d) (readW a n (s.withData d) rest')) :=
  need_alike (readW_alike h)

/-! The last write of an operation: the data register it leaves has one value in both states. -/

theorem setSum_alike (s d : State) (v : Half) :
    EndAlike [.wMem, .wlen, .sum] (.next (s.setSum v)) (.next ((s.withData d).setSum v)) :=
  .next (s := s.setSum v) (d := d.setSum v) (by simp [sameTarget, State.withData])

theorem setCrc_alike (s d : State) (v : Half) :
    EndAlike [.wMem, .wlen, .crc] (.next (s.setCrc v)) (.next ((s.withData d).setCrc v)) :=
  .next (s := s.setCrc v) (d := d.setCrc v) (by simp [sameTarget, State.withData])

theorem setPlain_alike (s d : State) (p : Bool) :
    EndAlike [.plain, .wMem] (.next (s.setPlain p)) (.next ((s.withData d).setPlain p)) :=
  .next (s := s.setPlain p) (d := d.setPlain p) (by simp [sameTarget, State.withData])

theorem setTH_alike (s d : State) (v w : Raw12) :
    EndAlike [.trHr] (.next (s.setTH v w)) (.next ((s.withData d).setTH v w)) :=
  .next (s := s.setTH v w) (d := d.setTH v w) (by simp [sameTarget, State.withData])

theorem setFv_alike (s d : State) (v : Word32) :
    EndAlike [.fv] (.next (s.setFv v)) (.next ((s.withData d).setFv v)) :=
  .next (s := s.setFv v) (d := d.setFv v) (by simp [sameTarget, State.withData])

/-- A write of `W` alone. -/
theorem setW_alike (s d : State) (m : Memory) :
    EndAlike [.wMem] (.next (s.setW m)) (.next ((s.withData d).setW m)) :=
  (EndAlike.buffers (s.setW m) d).mono (by simp)

end Alike

theorem execSumChk_alike (off len : Index) (s d : State) :
    EndAlike [.sum] (execSumChk off len s) (execSumChk off len (s.withData d)) :=
  raiseIf_alike <| need_alike <| readW_alike fun body => readW_alike fun check =>
    raiseIf_alike <| (setSum_alike s d (sum16 body)).mono (by simp)

theorem execSumApp_alike (off : Index) (s d : State) :
    EndAlike [.wMem, .wlen, .sum] (execSumApp off s) (execSumApp off (s.withData d)) :=
  need_alike <| room_alike <| readW_alike fun body =>
    setSum_alike (s.appendW (checkBytes (sum16 body))) d (sum16 body)

theorem execCrcChk_alike (off len : Index) (s d : State) :
    EndAlike [.crc] (execCrcChk off len s) (execCrcChk off len (s.withData d)) :=
  needRead_alike fun bytes => raiseIf_alike <| (setCrc_alike s d (crc16 bytes)).mono (by simp)

theorem execCrcApp_alike (off : Index) (s d : State) :
    EndAlike [.wMem, .wlen, .crc] (execCrcApp off s) (execCrcApp off (s.withData d)) :=
  need_alike <| room_alike <| readW_alike fun body =>
    setCrc_alike (s.appendW (checkBytes (crc16 body))) d (crc16 body)

theorem execAesUnpad_alike (off : Index) (s d : State) :
    EndAlike [.wlen] (execAesUnpad off s) (execAesUnpad off (s.withData d)) :=
  need_alike <| raiseIf_alike <| readW_alike fun _ => raiseIf_alike <|
    (EndAlike.buffers (s.setWlen _) d).mono (by simp)

theorem execAesDecc_alike (off len : Index) (s d : State) :
    EndAlike [.plain, .wMem] (execAesDecc off len s) (execAesDecc off len (s.withData d)) :=
  raiseIf_alike <| need_alike <| readW_alike fun _ =>
    ite_alike (setPlain_alike s d true) <| keyOk_alike <| wholeBlocks_alike <| accessW_alike <|
      setPlain_alike (s.mapBlocksW (invCipher s.kBytes) off.toNat len.toNat) d false

theorem execUneRun_alike (s d : State) :
    EndAlike [.wMem, .wlen] (execUneRun s) (execUneRun (s.withData d)) := by
  refine readW_alike fun bytes => ?_
  cases unescape bytes with
  | error e => exact raise_alike _ e _ s d
  | ok r => exact EndAlike.buffers (s.replaceW r) d

/-- A whole-function operation ends alike whatever the data registers, the map and the flag hold. -/
theorem exec_alike {i : Instr} (hi : wholeFunction i = true) (s d : State) :
    EndAlike (writesOf i) (exec i s) (exec i (s.withData d)) := by
  cases i with
  | sumChk off len => exact execSumChk_alike off len s d
  | sumApp off => exact execSumApp_alike off s d
  | crcChk off len => exact execCrcChk_alike off len s d
  | crcApp off => exact execCrcApp_alike off s d
  | aesEncb off => exact keyOk_alike <| needRead_alike fun _ => setW_alike s d _
  | aesDecb off => exact keyOk_alike <| needRead_alike fun _ => setW_alike s d _
  | aesEnc off len =>
    exact keyOk_alike <| wholeBlocks_alike <| need_alike <| accessW_alike <| setW_alike s d _
  | aesDec off len =>
    exact keyOk_alike <| wholeBlocks_alike <| need_alike <| accessW_alike <| setW_alike s d _
  | aesPad off => exact need_alike <| room_alike <| .buffers (s.appendW _) d
  | aesUnpad off => exact execAesUnpad_alike off s d
  | aesDecc off len => exact execAesDecc_alike off len s d
  | uneRun => exact execUneRun_alike s d
  | unpTh e off => exact needRead_alike fun _ => setTH_alike s d _ _
  | fldU e off n => exact widthOk_alike <| needRead_alike fun _ => setFv_alike s d _
  | fldS e off n => exact widthOk_alike <| needRead_alike fun _ => setFv_alike s d _
  | nop | rst | stClr | bufClr | bufPush | keyClr | keyPush | sumClr | sumByte | sumRng | crcInit | crcByte
  | crcRng | mrkTst | uneClr | uneMap | uneSub | pckTh => exact absurd hi (by simp [wholeFunction])

/-- Settles O11: the second state is the first with other data registers, which no whole-function operation reads. -/
theorem wholeFunctionsIgnoreTheDataRegisters : Obligations.WholeFunctionsIgnoreTheDataRegisters := by
  intro i s s' hi _ hsame
  rw [SameButData.eq_withData hsame]
  exact exec_alike hi s s'

end Sys2Proof.Machine
end

section
/-! The two memories (20_memory.md): which of their bytes can reach an outcome (R51, R52), and the model's own stops
past the capacities (log entry 6). R51 and R52 are one unwinding over the operations, for any pair of relations on
the memories that reads and writes of valid bytes respect. -/

namespace Sys2Proof.Machine

/-! ### The model's own stops (log entry 6) -/

section Stops
variable {s : State}

/-- A range that passes its length check but runs past the capacity stops at its access. -/
theorem needAccess_fault {op : Byte} {a n : Nat} {rest : Out} (hvalid : a + n ≤ s.wlen.toNat)
    (hpast : s.wcap.toNat < a + n) :
    need op a n s (accessW a n s rest) = .fault (.outsideWorkingBuffer a n) :=
  (need_pass hvalid).trans (accessW_fail hpast)

theorem needRead_fault {op : Byte} {a n : Nat} {rest : List Byte → Out} (hvalid : a + n ≤ s.wlen.toNat)
    (hpast : s.wcap.toNat < a + n) :
    need op a n s (readW a n s rest) = .fault (.outsideWorkingBuffer a n) :=
  needAccess_fault hvalid hpast

/-- A read either lies past the capacity, and stops, or leaves the rest of the operation. -/
theorem readW_faults {a n : Nat} {rest : List Byte → Out}
    (h : a + n ≤ s.wcap.toNat → ∃ r, rest (s.w.readRange a n) = .fault r) :
    ∃ r, readW a n s rest = .fault r := by
  rcases Nat.lt_or_ge s.wcap.toNat (a + n) with hpast | hin
  · exact ⟨_, readW_fail hpast⟩
  · rw [readW_pass hin]
    exact h hin

/-- One of the two reads of `SUM.CHK`, the body's or the check value's, runs past the capacity. -/
theorem execSumChk_faults {off len : Index} (hvalid : off.toNat + len.toNat ≤ s.wlen.toNat)
    (hpast : s.wcap.toNat < off.toNat + len.toNat) (hlen : 2 ≤ len.toNat) :
    ∃ r, execSumChk off len s = .fault r := by
  rw [execSumChk, if_neg (Nat.not_lt.2 hlen), need_pass hvalid]
  exact readW_faults fun _ => readW_faults fun hin => absurd hin (by omega)

theorem plainFlag_readRange (m : Memory) (a : Nat) :
    plainFlag (m.readRange a 2) = true ↔ m.read a = 0x43#8 ∧ m.read (a + 1) = 0x47#8 := by
  simp [plainFlag, Memory.readRange, Config.plainMark]

/-- Without the marker `AES.DECC` goes on past the two bytes it tests, to the whole range. -/
theorem execAesDecc_faults {off len : Index} (hvalid : off.toNat + len.toNat ≤ s.wlen.toNat)
    (hpast : s.wcap.toNat < off.toNat + len.toNat) (hkey : s.klen.toNat = 16 ∨ s.klen.toNat = 32)
    (hblocks : len.toNat % 16 = 0) (hlen : 2 ≤ len.toNat)
    (hplain : ¬(s.w.read off.toNat = 0x43#8 ∧ s.w.read (off.toNat + 1) = 0x47#8)) :
    ∃ r, execAesDecc off len s = .fault r := by
  rw [execAesDecc, if_neg (Nat.not_lt.2 hlen), need_pass hvalid]
  refine readW_faults fun _ => ⟨.outsideWorkingBuffer off.toNat len.toNat, ?_⟩
  rw [if_neg (mt (plainFlag_readRange _ _).1 hplain), keyOk_pass hkey, wholeBlocks_pass hblocks,
    accessW_fail hpast]

/-- The last valid byte, the pad length of `AES.UNPAD`, lies past the capacity when `WLEN` does. -/
theorem execAesUnpad_fault {off : Index} (hoff : off.toNat < s.wlen.toNat)
    (hpast : s.wcap.toNat < s.wlen.toNat) :
    execAesUnpad off s = .fault (.outsideWorkingBuffer (s.wlen.toNat - 1) 1) := by
  rw [execAesUnpad, need_pass (by omega)]
  exact (if_neg (by omega)).trans (readW_fail (by omega))

theorem execUneRun_fault (hpast : s.wcap.toNat < s.wlen.toNat) :
    execUneRun s = .fault (.outsideWorkingBuffer 0 s.wlen.toNat) :=
  readW_fail (by omega)

theorem execKeyPush_fault {imm : Byte} (hpast : 32 < s.klen.toNat) :
    execKeyPush imm s = .fault (.outsideKeyBuffer s.klen.toNat) :=
  (if_neg (Nat.ne_of_gt hpast)).trans (if_pos hpast)

end Stops

/-- Settles O14: each operation's checks pass, and its access is the first thing to fail. -/
theorem indicesOutsideTheMemoriesFault : Obligations.IndicesOutsideTheMemoriesFault := by
  intro s off len e imm
  simp only [List.forall_mem_cons, List.not_mem_nil, false_implies, implies_true, and_true]
  refine ⟨fun hpast hvalid => ⟨?ranges, fun hwidth => ?fields, execSumChk_faults hvalid hpast,
    fun hkey hblocks => ?blocks, fun hkey hblocks hlen => execAesDecc_faults hvalid hpast hkey hblocks hlen⟩,
    fun hpast hvalid hkey => ?block, fun hpast hvalid => ?threeBytes,
    fun hpast hvalid => needRead_fault hvalid hpast,
    fun hpast => ⟨execUneRun_fault hpast, fun hoff => execAesUnpad_fault hoff hpast⟩, execKeyPush_fault⟩
  case ranges =>
    exact ⟨needRead_fault hvalid hpast, needRead_fault hvalid hpast, needRead_fault hvalid hpast,
      needRead_fault hvalid hpast⟩
  case fields =>
    exact ⟨(widthOk_pass hwidth).trans (needRead_fault hvalid hpast),
      (widthOk_pass hwidth).trans (needRead_fault hvalid hpast)⟩
  case blocks =>
    exact ⟨(keyOk_pass hkey).trans <| (wholeBlocks_pass hblocks).trans <| needAccess_fault hvalid hpast,
      (keyOk_pass hkey).trans <| (wholeBlocks_pass hblocks).trans <| needAccess_fault hvalid hpast⟩
  case block =>
    exact ⟨(keyOk_pass hkey).trans (needRead_fault hvalid hpast),
      (keyOk_pass hkey).trans (needRead_fault hvalid hpast)⟩
  case threeBytes => exact ⟨needRead_fault hvalid hpast, needRead_fault hvalid hpast⟩

/-! ### Relations between two memories at a number of valid bytes -/

/-- The relation is kept when fewer bytes are valid, and by a write of one byte, which may be the first after the
valid ones and then is valid too. -/
structure WriteStable (R : Nat → Memory → Memory → Prop) : Prop where
  shrink : ∀ {n n' : Nat} {m m' : Memory}, R n m m' → n' ≤ n → R n' m m'
  write : ∀ {n a : Nat} {m m' : Memory} (v : Byte), R n m m' → a ≤ n →
    R (max n (a + 1)) (m.write a v) (m'.write a v)

/-- Related memories read the same at every valid index. -/
def ReadsAlike (R : Nat → Memory → Memory → Prop) : Prop :=
  ∀ ⦃n a : Nat⦄ ⦃m m' : Memory⦄, R n m m' → a < n → m'.read a = m.read a

section Relations
variable {R : Nat → Memory → Memory → Prop} {n : Nat} {m m' : Memory}

theorem WriteStable.writeRange (hR : WriteStable R) {a : Nat} (bytes : List Byte) (h : R n m m') (ha : a ≤ n) :
    R (max n (a + bytes.length)) (m.writeRange a bytes) (m'.writeRange a bytes) := by
  induction bytes generalizing n a m m' with
  | nil => exact hR.shrink h (by simp [ha])
  | cons v bytes ih =>
    have hrest := ih (hR.write v h ha) (Nat.le_max_right n (a + 1))
    exact hR.shrink hrest (by simp only [List.length_cons]; omega)

/-- A write inside the valid bytes leaves their number. -/
theorem WriteStable.writeRange_inside (hR : WriteStable R) {a : Nat} {bytes : List Byte} (h : R n m m')
    (hin : a + bytes.length ≤ n) : R n (m.writeRange a bytes) (m'.writeRange a bytes) :=
  hR.shrink (hR.writeRange bytes h (by omega)) (Nat.le_max_left _ _)

theorem ReadsAlike.readRange (hread : ReadsAlike R) {a len : Nat} (h : R n m m') (hin : a + len ≤ n) :
    m'.readRange a len = m.readRange a len :=
  Memory.readRange_congr fun _ _ hlt => hread h (by omega)

/-- The block loop inside the valid bytes reads the same blocks and writes the same results. -/
theorem WriteStable.mapBlocks (hR : WriteStable R) (hread : ReadsAlike R) {f : List Byte → List Byte}
    (hf : ∀ b, (f b).length = 16) {a blocks : Nat} (h : R n m m') (hin : a + 16 * blocks ≤ n) :
    R n (mapBlocks f a blocks m) (mapBlocks f a blocks m') := by
  induction blocks generalizing a m m' with
  | zero => exact h
  | succ blocks ih =>
    have hblock : m'.readRange a 16 = m.readRange a 16 := hread.readRange h (by omega)
    simp only [Machine.mapBlocks, Config.block, hblock]
    exact ih (hR.writeRange_inside h (by rw [hf]; omega)) (by omega)

end Relations

/-! ### Operations in states with related memories -/

/-- The state `s` with the memories `w` and `k`. -/
def State.withMemories (s : State) (w k : Memory) : State := (s.setW w).setK k

/-- `t` is `s` but for its memories, which are related at the lengths the two states share. -/
def Indist (Rw Rk : Nat → Memory → Memory → Prop) (s t : State) : Prop :=
  ∃ w k : Memory, t = s.withMemories w k ∧ Rw s.wlen.toNat s.w w ∧ Rk s.klen.toNat s.k k

/-- Two outcomes of one kind, next states again the same but for related memories. -/
abbrev EndIndist (Rw Rk : Nat → Memory → Memory → Prop) (o o' : Out) : Prop := outcomeRel (Indist Rw Rk) o o'

/-- What the operations ask of the relations: `W` is read and written, `K` is written by `KEY.PUSH`. The operations
that read `K` ask more, for themselves. -/
structure Unwinding (Rw Rk : Nat → Memory → Memory → Prop) : Prop where
  wWrites : WriteStable Rw
  wReads : ReadsAlike Rw
  kWrites : WriteStable Rk

theorem outcomeRel.mono {R R' : State → State → Prop} (hsub : ∀ s t, R s t → R' s t) {o o' : Out}
    (h : outcomeRel R o o') : outcomeRel R' o o' := by
  cases o <;> cases o'
  case next.next s t => exact hsub s t h
  all_goals exact h

theorem ite_outcomeRel {R : State → State → Prop} {c : Prop} [Decidable c] {o o' rest rest' : Out}
    (h : c → outcomeRel R o o') (h' : ¬c → outcomeRel R rest rest') :
    outcomeRel R (if c then o else rest) (if c then o' else rest') := by
  split
  · next hc => exact h hc
  · next hc => exact h' hc

section Indistinguishable
variable {Rw Rk : Nat → Memory → Memory → Prop} {s : State} {w k : Memory} {op : Byte} {rest rest' : Out}

/-- Two next states that are the same but for related memories; a write of a register is one on both sides. -/
theorem EndIndist.next (hw : Rw s.wlen.toNat s.w w) (hk : Rk s.klen.toNat s.k k) :
    EndIndist Rw Rk (.next s) (.next (s.withMemories w k)) := ⟨w, k, rfl, hw, hk⟩

theorem wBytes_withMemories (hread : ReadsAlike Rw) (hw : Rw s.wlen.toNat s.w w) :
    (s.withMemories w k).wBytes = s.wBytes :=
  hread.readRange hw (Nat.zero_add _).le

theorem kBytes_withMemories (hread : ReadsAlike Rk) (hk : Rk s.klen.toNat s.k k) :
    (s.withMemories w k).kBytes = s.kBytes :=
  hread.readRange hk (Nat.zero_add _).le

/-- The host reads registers and the valid bytes of `W`, of the memories nothing else. -/
theorem observe_withMemories (h : (s.withMemories w k).wBytes = s.wBytes) :
    s.observe = (s.withMemories w k).observe := by
  simp only [State.observe, h]
  rfl

variable (hU : Unwinding Rw Rk) (hw : Rw s.wlen.toNat s.w w) (hk : Rk s.klen.toNat s.k k)

/-! One rule per check and per access: the registers they test are the same. -/

section Checks
include hw hk

theorem raise_indist (e : ErrCode) (op : Byte) :
    EndIndist Rw Rk (raise e op s) (raise e op (s.withMemories w k)) :=
  .next (s := s.setStatus e.code op) hw hk

theorem raiseIf_indist {c : Prop} [Decidable c] {e : ErrCode} (h : ¬c → EndIndist Rw Rk rest rest') :
    EndIndist Rw Rk (if c then raise e op s else rest) (if c then raise e op (s.withMemories w k) else rest') :=
  ite_outcomeRel (fun _ => raise_indist hw hk e op) h

theorem need_indist {a n : Nat} (h : a + n ≤ s.wlen.toNat → EndIndist Rw Rk rest rest') :
    EndIndist Rw Rk (need op a n s rest) (need op a n (s.withMemories w k) rest') :=
  raiseIf_indist hw hk fun hc => h (Nat.not_lt.1 hc)

theorem room_indist {n : Nat} (h : EndIndist Rw Rk rest rest') :
    EndIndist Rw Rk (room op n s rest) (room op n (s.withMemories w k) rest') :=
  raiseIf_indist hw hk fun _ => h

theorem keyOk_indist (h : EndIndist Rw Rk rest rest') :
    EndIndist Rw Rk (keyOk op s rest) (keyOk op (s.withMemories w k) rest') :=
  raiseIf_indist hw hk fun _ => h

theorem wholeBlocks_indist {len : Nat} (h : EndIndist Rw Rk rest rest') :
    EndIndist Rw Rk (wholeBlocks op len s rest) (wholeBlocks op len (s.withMemories w k) rest') :=
  raiseIf_indist hw hk fun _ => h

theorem widthOk_indist {n : Index} (h : EndIndist Rw Rk rest rest') :
    EndIndist Rw Rk (widthOk op n s rest) (widthOk op n (s.withMemories w k) rest') :=
  ite_outcomeRel (fun _ => h) fun _ => raise_indist hw hk _ op

end Checks

theorem accessW_indist {a n : Nat} (h : EndIndist Rw Rk rest rest') :
    EndIndist Rw Rk (accessW a n s rest) (accessW a n (s.withMemories w k) rest') :=
  ite_outcomeRel (fun _ => rfl) fun _ => h

include hU hw

/-- A read of valid bytes gives both sides the same bytes. -/
theorem readW_indist {a n : Nat} {rest rest' : List Byte → Out} (hvalid : a + n ≤ s.wlen.toNat)
    (h : EndIndist Rw Rk (rest (s.w.readRange a n)) (rest' (s.w.readRange a n))) :
    EndIndist Rw Rk (readW a n s rest) (readW a n (s.withMemories w k) rest') := by
  have hbytes : (s.withMemories w k).w.readRange a n = s.w.readRange a n := hU.wReads.readRange hw hvalid
  unfold readW
  rw [hbytes]
  exact accessW_indist h

/-- The appended bytes are written on both sides, so they may become valid. -/
theorem appendW_related (bytes : List Byte) :
    Rw (s.appendW bytes).wlen.toNat (s.appendW bytes).w (w.writeRange s.wlen.toNat bytes) := by
  refine hU.wWrites.shrink (hU.wWrites.writeRange bytes hw (Nat.le_refl _)) ?_
  simp only [State.appendW_eq, BitVec.toNat_add, BitVec.toNat_ofNat]
  omega

theorem mapBlocksW_related {f : List Byte → List Byte} (hf : ∀ b, (f b).length = 16) {a len : Nat}
    (hvalid : a + len ≤ s.wlen.toNat) :
    Rw s.wlen.toNat (s.mapBlocksW f a len).w (mapBlocks f a (len / 16) w) := by
  have hin : a + 16 * (len / 16) ≤ s.wlen.toNat := by omega
  exact hU.wWrites.mapBlocks hU.wReads hf hw hin

include hk

/-- The opening of most operations: the range is checked, then read. -/
theorem needRead_indist {a n : Nat} {rest rest' : List Byte → Out}
    (h : a + n ≤ s.wlen.toNat → EndIndist Rw Rk (rest (s.w.readRange a n)) (rest' (s.w.readRange a n))) :
    EndIndist Rw Rk (need op a n s (readW a n s rest))
      (need op a n (s.withMemories w k) (readW a n (s.withMemories w k) rest')) :=
  need_indist hw hk fun hvalid => readW_indist hU hw hvalid (h hvalid)

/-! One rule per write of `W` and of its length. -/

theorem setWlen_indist {v : Index} (hv : v.toNat ≤ s.wlen.toNat) :
    EndIndist Rw Rk (.next (s.setWlen v)) (.next ((s.withMemories w k).setWlen v)) :=
  .next (s := s.setWlen v) (hU.wWrites.shrink hw hv) hk

theorem putW_indist {a : Nat} {bytes bytes' : List Byte} (hbytes : bytes' = bytes)
    (hvalid : a + bytes.length ≤ s.wlen.toNat) :
    EndIndist Rw Rk (.next (s.putW a bytes)) (.next ((s.withMemories w k).putW a bytes')) := by
  subst hbytes
  exact .next (s := s.putW a _) (hU.wWrites.writeRange_inside hw hvalid) hk

theorem mapBlocksW_indist {f f' : List Byte → List Byte} (hf' : f' = f) (hf : ∀ b, (f b).length = 16)
    {a len : Nat} (hvalid : a + len ≤ s.wlen.toNat) :
    EndIndist Rw Rk (.next (s.mapBlocksW f a len)) (.next ((s.withMemories w k).mapBlocksW f' a len)) := by
  subst hf'
  exact .next (s := s.mapBlocksW _ a len) (mapBlocksW_related hU hw hf hvalid) hk

theorem appendW_indist (bytes : List Byte) :
    EndIndist Rw Rk (.next (s.appendW bytes)) (.next ((s.withMemories w k).appendW bytes)) :=
  .next (s := s.appendW bytes) (appendW_related hU hw bytes) hk

theorem replaceW_indist (bytes : List Byte) :
    EndIndist Rw Rk (.next (s.replaceW bytes)) (.next ((s.withMemories w k).replaceW bytes)) := by
  refine .next (s := s.replaceW bytes) ?_ hk
  refine hU.wWrites.shrink (hU.wWrites.writeRange bytes hw (Nat.zero_le _)) ?_
  simp only [State.replaceW_eq, BitVec.toNat_ofNat]
  omega

/-! The operations with a choice of their own, then all of them. -/

theorem execKeyPush_indist (imm : Byte) :
    EndIndist Rw Rk (execKeyPush imm s) (execKeyPush imm (s.withMemories w k)) := by
  refine raiseIf_indist hw hk fun _ => ite_outcomeRel (fun _ => rfl) fun _ => ?_
  have hpushed := hU.kWrites.write imm hk (Nat.le_refl _)
  refine EndIndist.next (s := (s.setK (s.k.write s.klen.toNat imm)).setKlen (s.klen + 1#6)) hw
    (hU.kWrites.shrink hpushed ?_)
  simp only [State.setKlen_klen, BitVec.toNat_add, BitVec.toNat_ofNat]
  omega

theorem execSumChk_indist (off len : Index) :
    EndIndist Rw Rk (execSumChk off len s) (execSumChk off len (s.withMemories w k)) :=
  raiseIf_indist hw hk fun _ => need_indist hw hk fun _ =>
    readW_indist hU hw (by omega) <| readW_indist hU hw (by omega) <|
      raiseIf_indist hw hk fun _ => .next (s := s.setSum _) hw hk

theorem execSumApp_indist (off : Index) :
    EndIndist Rw Rk (execSumApp off s) (execSumApp off (s.withMemories w k)) :=
  need_indist hw hk fun _ => room_indist hw hk <| readW_indist hU hw (by omega) <|
    .next (s := (s.appendW _).setSum _) (appendW_related hU hw _) hk

theorem execCrcApp_indist (off : Index) :
    EndIndist Rw Rk (execCrcApp off s) (execCrcApp off (s.withMemories w k)) :=
  need_indist hw hk fun _ => room_indist hw hk <| readW_indist hU hw (by omega) <|
    .next (s := (s.appendW _).setCrc _) (appendW_related hU hw _) hk

theorem execAesUnpad_indist (off : Index) :
    EndIndist Rw Rk (execAesUnpad off s) (execAesUnpad off (s.withMemories w k)) :=
  need_indist hw hk fun _ => raiseIf_indist hw hk fun _ => readW_indist hU hw (by omega) <|
    raiseIf_indist hw hk fun _ => setWlen_indist hU hw hk (by rw [BitVec.toNat_ofNat]; omega)

theorem execAesDecc_indist (hkey : (s.withMemories w k).kBytes = s.kBytes) (off len : Index) :
    EndIndist Rw Rk (execAesDecc off len s) (execAesDecc off len (s.withMemories w k)) := by
  refine raiseIf_indist hw hk fun _ => need_indist hw hk fun hvalid => readW_indist hU hw (by omega) <|
    ite_outcomeRel (fun _ => EndIndist.next (s := s.setPlain true) hw hk) fun _ => keyOk_indist hw hk <|
      wholeBlocks_indist hw hk <| accessW_indist ?_
  rw [hkey]
  exact .next (s := (s.mapBlocksW (invCipher s.kBytes) off.toNat len.toNat).setPlain false)
    (mapBlocksW_related hU hw (invCipher_length _) hvalid) hk

theorem execUneMap_indist (off : Index) :
    EndIndist Rw Rk (execUneMap off s) (execUneMap off (s.withMemories w k)) := by
  refine needRead_indist hU hw hk fun _ => ?_
  cases buildMapOf (s.w.readRange off.toNat 3) with
  | error e => exact raise_indist hw hk e _
  | ok m => exact .next (s := s.setMap m) hw hk

theorem execUneRun_indist : EndIndist Rw Rk (execUneRun s) (execUneRun (s.withMemories w k)) := by
  refine readW_indist hU hw (Nat.zero_add _).le ?_
  cases unescape (s.w.readRange 0 s.wlen.toNat) with
  | error e => exact raise_indist hw hk e _
  | ok r => exact replaceW_indist hU hw hk r

/-- Every operation ends alike from related memories; one that reads `K` does when the valid key bytes are the
same. -/
theorem exec_indist (i : Instr) (hkey : readsKey i = true → (s.withMemories w k).kBytes = s.kBytes) :
    EndIndist Rw Rk (exec i s) (exec i (s.withMemories w k)) := by
  cases i with
  | nop => exact .next hw hk
  | rst =>
    exact .next (s := s.resetRegs) (hU.wWrites.shrink hw (Nat.zero_le _)) (hU.kWrites.shrink hk (Nat.zero_le _))
  | stClr => exact .next (s := s.clearStatus) hw hk
  | bufClr => exact setWlen_indist hU hw hk (Nat.zero_le _)
  | bufPush imm => exact room_indist hw hk (appendW_indist hU hw hk [imm])
  | keyClr => exact .next (s := s.setKlen 0#6) hw (hU.kWrites.shrink hk (Nat.zero_le _))
  | keyPush imm => exact execKeyPush_indist hU hw hk imm
  | sumClr => exact .next (s := s.setSum _) hw hk
  | sumByte imm => exact .next (s := s.setSum _) hw hk
  | sumRng off len => exact needRead_indist hU hw hk fun _ => .next (s := s.setSum _) hw hk
  | sumChk off len => exact execSumChk_indist hU hw hk off len
  | sumApp off => exact execSumApp_indist hU hw hk off
  | crcInit => exact .next (s := s.setCrc _) hw hk
  | crcByte imm => exact .next (s := s.setCrc _) hw hk
  | crcRng off len => exact needRead_indist hU hw hk fun _ => .next (s := s.setCrc _) hw hk
  | crcChk off len =>
    exact needRead_indist hU hw hk fun _ => raiseIf_indist hw hk fun _ => .next (s := s.setCrc _) hw hk
  | crcApp off => exact execCrcApp_indist hU hw hk off
  | aesEncb off =>
    exact keyOk_indist hw hk <| needRead_indist hU hw hk fun hvalid =>
      putW_indist hU hw hk (congrArg (cipher · _) (hkey rfl)) hvalid
  | aesDecb off =>
    exact keyOk_indist hw hk <| needRead_indist hU hw hk fun hvalid =>
      putW_indist hU hw hk (congrArg (invCipher · _) (hkey rfl)) hvalid
  | aesEnc off len =>
    exact keyOk_indist hw hk <| wholeBlocks_indist hw hk <| need_indist hw hk fun hvalid =>
      accessW_indist <| mapBlocksW_indist hU hw hk (congrArg cipher (hkey rfl)) (cipher_length _) hvalid
  | aesDec off len =>
    exact keyOk_indist hw hk <| wholeBlocks_indist hw hk <| need_indist hw hk fun hvalid =>
      accessW_indist <| mapBlocksW_indist hU hw hk (congrArg invCipher (hkey rfl)) (invCipher_length _) hvalid
  | aesPad off => exact need_indist hw hk fun _ => room_indist hw hk (appendW_indist hU hw hk _)
  | aesUnpad off => exact execAesUnpad_indist hU hw hk off
  | mrkTst off => exact needRead_indist hU hw hk fun _ => .next (s := s.setPlain _) hw hk
  | aesDecc off len => exact execAesDecc_indist hU hw hk (hkey rfl) off len
  | uneClr => exact .next (s := s.setMap _) hw hk
  | uneMap off => exact execUneMap_indist hU hw hk off
  | uneSub off len =>
    exact needRead_indist hU hw hk fun hvalid => putW_indist hU hw hk rfl (by simpa [applyMap] using hvalid)
  | uneRun => exact execUneRun_indist hU hw hk
  | unpTh e off => exact needRead_indist hU hw hk fun _ => .next (s := s.setTH _ _) hw hk
  | pckTh e t h => exact room_indist hw hk (appendW_indist hU hw hk _)
  | fldU e off n =>
    exact widthOk_indist hw hk <| needRead_indist hU hw hk fun _ => .next (s := s.setFv _) hw hk
  | fldS e off n =>
    exact widthOk_indist hw hk <| needRead_indist hU hw hk fun _ => .next (s := s.setFv _) hw hk

/-- The dispatch (60_exceptions.md R224) tests a register and the word alone. -/
theorem runCommand_indist (hread : ReadsAlike Rk) (cmd : CmdWord) :
    EndIndist Rw Rk (runCommand cmd s) (runCommand cmd (s.withMemories w k)) := by
  have hexec (i : Instr) : EndIndist Rw Rk (exec i s) (exec i (s.withMemories w k)) :=
    exec_indist hU hw hk i fun _ => kBytes_withMemories hread hk
  refine ite_outcomeRel (fun _ => ?blocked) fun _ => ?_
  case blocked =>
    exact ite_outcomeRel (fun _ => hexec .rst) fun _ => ite_outcomeRel (fun _ => hexec .stClr) fun _ =>
      EndIndist.next hw hk
  cases decode cmd with
  | error _ => exact raise_indist hw hk _ _
  | ok i => exact hexec i

theorem step_indist (hread : ReadsAlike Rk) : EndIndist Rw Rk (step s) (step (s.withMemories w k)) := by
  cases h : s.cmds with
  | nil =>
    rw [step_nil h, step_nil (s := s.withMemories w k) h]
    exact .next hw hk
  | cons cmd rest =>
    rw [step_cons h, step_cons (s := s.withMemories w k) h]
    exact runCommand_indist (s := s.setCmds rest) hU hw hk hread cmd

end Indistinguishable

/-! ### The bytes of `K` (20_memory.md R51) -/

/-- Where `W` is the same on both sides, `K` may hold any bytes. -/
theorem unwinding_keyBytes : Unwinding (fun _ m m' => m' = m) (fun _ _ _ => True) where
  wWrites := { shrink := fun h _ => h, write := fun _ h _ => by rw [h] }
  wReads := fun _ _ _ _ h _ => by rw [h]
  kWrites := { shrink := fun _ _ => trivial, write := fun _ _ _ => trivial }

theorem SameButKeyBytes.eq_withMemories {s t : State} (h : SameButKeyBytes s t) :
    t = s.withMemories s.w t.k := by
  have hmem := congrArg (State.setK · t.k) h
  exact hmem

theorem SameButKeyBytes.of_indist (s t : State) (h : Indist (fun _ m m' => m' = m) (fun _ _ _ => True) s t) :
    SameButKeyBytes s t := by
  obtain ⟨w, k, rfl, rfl, -⟩ := h
  rfl

/-- Settles O13: the second state is the first with other key bytes, and no operation but the cipher's asks that they
be the same. -/
theorem keyBytesReachOnlyTheCipher : Obligations.KeyBytesReachOnlyTheCipher := by
  intro s t hst
  rw [SameButKeyBytes.eq_withMemories hst]
  refine ⟨observe_withMemories rfl, fun i hi => ?_⟩
  exact (exec_indist unwinding_keyBytes rfl trivial i fun hread => absurd hread (by simp [hi])).mono
    SameButKeyBytes.of_indist

/-! ### The bytes past the lengths (20_memory.md R52) -/

/-- Two canonical memories that read the same at every valid index. -/
def SameBelow (n : Nat) (m m' : Memory) : Prop :=
  m.wf = true ∧ m'.wf = true ∧ ∀ a, a < n → m'.read a = m.read a

/-- A write makes its own index the same, whatever it held on the two sides. -/
theorem sameBelow_writeStable : WriteStable SameBelow where
  shrink := by
    rintro n n' m m' ⟨hm, hm', hsame⟩ hle
    exact ⟨hm, hm', fun a ha => hsame a (by omega)⟩
  write := by
    rintro n a m m' v ⟨hm, hm', hsame⟩ ha
    refine ⟨Memory.write_wf hm a v, Memory.write_wf hm' a v, fun b hb => ?_⟩
    by_cases hba : b = a
    · rw [hba, Memory.read_write_self hm, Memory.read_write_self hm']
    · rw [Memory.read_write_of_ne m v hba, Memory.read_write_of_ne m' v hba, hsame b (by omega)]

theorem sameBelow_readsAlike : ReadsAlike SameBelow := by
  rintro n a m m' ⟨-, -, hsame⟩ ha
  exact hsame a ha

theorem unwinding_stale : Unwinding SameBelow SameBelow where
  wWrites := sameBelow_writeStable
  wReads := sameBelow_readsAlike
  kWrites := sameBelow_writeStable

theorem sameBelow_of_readRange {n : Nat} {m m' : Memory} (hm : m.wf = true) (hm' : m'.wf = true)
    (h : m'.readRange 0 n = m.readRange 0 n) : SameBelow n m m' := by
  refine ⟨hm, hm', fun a ha => ?_⟩
  have hbyte := congrArg (·[a]?) h
  simpa [List.getElem?_eq_getElem, Memory.readRange_getElem, ha] using hbyte

theorem SameButStale.eq_withMemories {s t : State} (h : SameButStale s t) : t = s.withMemories t.w t.k := by
  obtain ⟨hregs, -⟩ := h
  have hmem := congrArg (State.withMemories · t.w t.k) hregs
  exact hmem

/-- States that differ in stale bytes alone are the same but for memories that read the same below the lengths. -/
theorem SameButStale.indist {s t : State} (hs : s.MemoryOk) (ht : t.MemoryOk) (h : SameButStale s t) :
    Indist SameBelow SameBelow s t := by
  obtain ⟨w, k, rfl⟩ : ∃ w k, t = s.withMemories w k := ⟨_, _, h.eq_withMemories⟩
  obtain ⟨-, hwBytes, hkBytes⟩ := h
  obtain ⟨hsw, hsk, -⟩ := hs
  obtain ⟨htw, htk, -⟩ := ht
  exact ⟨w, k, rfl, sameBelow_of_readRange hsw htw hwBytes, sameBelow_of_readRange hsk htk hkBytes⟩

theorem SameButStale.of_indist (s t : State) (h : Indist SameBelow SameBelow s t) : SameButStale s t := by
  obtain ⟨w, k, rfl, hw, hk⟩ := h
  exact ⟨rfl, wBytes_withMemories sameBelow_readsAlike hw, kBytes_withMemories sameBelow_readsAlike hk⟩

/-- Settles O12: memories that read the same below the lengths are kept so by every step, and the host reads nothing
past them. -/
theorem staleBytesAreNotObservable : Obligations.StaleBytesAreNotObservable := by
  intro s t hs ht hst
  obtain ⟨w, k, rfl, hw, hk⟩ := SameButStale.indist hs ht hst
  refine ⟨observe_withMemories (wBytes_withMemories sameBelow_readsAlike hw), ?_⟩
  exact (step_indist unwinding_stale hw hk sameBelow_readsAlike).mono SameButStale.of_indist

end Sys2Proof.Machine
end

section
/-! The encoding (30_encoding.md R70 to R75). What a format accepts is said once, as a relation between the fields
below `op` and the instruction; decoding is looking up the format of `op` and meeting that relation. The round trips,
the numbers of the words and the opcode table then follow format by format. -/

namespace Sys2Proof.Machine

/-! ### The fields of a word -/

theorem packFields_inj {op op' m m' : Byte} {len len' off off' : Index} :
    packFields op m len off = packFields op' m' len' off' ↔
      op = op' ∧ m = m' ∧ len = len' ∧ off = off' := by
  refine ⟨fun h => ⟨?_, ?_, ?_, ?_⟩, ?_⟩
  · simpa only [opField_packFields] using congrArg opField h
  · simpa only [mField_packFields] using congrArg mField h
  · simpa only [lenField_packFields] using congrArg lenField h
  · simpa only [offField_packFields] using congrArg offField h
  · rintro ⟨rfl, rfl, rfl, rfl⟩
    rfl

theorem packFields_and (op op' m m' : Byte) (len len' off off' : Index) :
    packFields op m len off &&& packFields op' m' len' off' =
      packFields (op &&& op') (m &&& m') (len &&& len') (off &&& off') := by
  unfold packFields
  refine BitVec.and_append.trans ?_
  rw [BitVec.and_append, BitVec.and_append]

theorem append_toNat_eq_add {n k : Nat} (x : BitVec n) (y : BitVec k) :
    (x ++ y).toNat = x.toNat * 2 ^ k + y.toNat := by
  rw [BitVec.toNat_append, ← Nat.shiftLeft_add_eq_or_of_lt y.isLt, Nat.shiftLeft_eq]

theorem packFields_toNat (op m : Byte) (len off : Index) :
    (packFields op m len off).toNat =
      op.toNat * 2 ^ 56 + m.toNat * 2 ^ 48 + len.toNat * 2 ^ 24 + off.toNat := by
  simp only [packFields, append_toNat_eq_add]
  omega

theorem lenField_toNat (w : CmdWord) : (lenField w).toNat = w.toNat / 2 ^ 24 % 2 ^ 24 := by
  rw [lenField, BitVec.extractLsb'_toNat, Nat.shiftRight_eq_div_pow]

/-! ### The operands inside the fields (R71 to R73) -/

theorem orderOfM_eq_none_or (m : Byte) : orderOfM m = none ∨ ∃ e, m = mOfOrder e := by
  unfold orderOfM
  split_ifs with hbig hlittle
  · exact .inr ⟨.big, hbig⟩
  · exact .inr ⟨.little, hlittle⟩
  · exact .inl rfl

theorem lenOfPair_fields (len : Index) : lenOfPair (tOfLen len) (hOfLen len) = len := by
  apply BitVec.eq_of_getLsbD_eq
  intro i hi
  rw [getLsbD_lenOfPair]
  split_ifs with hlow
  · simp [hOfLen, hlow]
  · simp [tOfLen, show i - 12 < 12 by omega, show 12 + (i - 12) = i by omega]

theorem legalWidth_iff (n : Index) : legalWidth n = true ↔ 1 ≤ n.toNat ∧ n.toNat ≤ 4 := by
  simp only [legalWidth, Bool.or_eq_true, decide_eq_true_eq, ← BitVec.toNat_inj, BitVec.toNat_ofNat]
  omega

/-! ### What a format accepts (R71, R72) -/

/-- The formats of R71: the fields `m`, `len` and `off` of a word of the format, and the instruction it is. -/
inductive Fills : Format → Byte → Index → Index → Instr → Prop
  | z (i : Instr) : Fills (.z i) 0#8 0#24 0#24 i
  | imm (mk : Byte → Instr) (imm : Byte) : Fills (.imm mk) 0#8 0#24 (offOfImm imm) (mk imm)
  | o (mk : Index → Instr) (off : Index) : Fills (.o mk) 0#8 0#24 off (mk off)
  | r (mk : Index → Index → Instr) (off len : Index) : Fills (.r mk) 0#8 len off (mk off len)
  | mo (mk : ByteOrder → Index → Instr) (e : ByteOrder) (off : Index) :
    Fills (.mo mk) (mOfOrder e) 0#24 off (mk e off)
  | mr (mk : ByteOrder → Index → Index → Instr) (e : ByteOrder) (off n : Index)
    (hn : legalWidth n = true) : Fills (.mr mk) (mOfOrder e) n off (mk e off n)
  | mp (mk : ByteOrder → Raw12 → Raw12 → Instr) (e : ByteOrder) (t h : Raw12) :
    Fills (.mp mk) (mOfOrder e) (lenOfPair t h) 0#24 (mk e t h)

theorem ite_ok_eq_ok_iff {c : Prop} [Decidable c] {i j : Instr} {err : DecodeError} :
    (if c then Except.ok i else .error err) = .ok j ↔ c ∧ i = j := by
  split_ifs with hc <;> simp [hc]

theorem ifUnusedZero_eq_ok_iff {ok : Bool} {i j : Instr} :
    ifUnusedZero ok i = .ok j ↔ ok = true ∧ i = j :=
  ite_ok_eq_ok_iff

theorem fillFormat_of_fills {f : Format} {m : Byte} {len off : Index} {i : Instr}
    (h : Fills f m len off i) : fillFormat f m len off = .ok i := by
  cases h with
  | z | o | r => rfl
  | imm mk imm => simp [fillFormat, ifUnusedZero, immOfOff_offOfImm]
  | mo mk e off => simp [fillFormat, ifUnusedZero, orderOfM_mOfOrder]
  | mr mk e off n hn => simp [fillFormat, orderOfM_mOfOrder, hn]
  | mp mk e t h => simp [fillFormat, ifUnusedZero, orderOfM_mOfOrder, tOfLen_lenOfPair, hOfLen_lenOfPair]

theorem fills_of_fillFormat {f : Format} {m : Byte} {len off : Index} {i : Instr}
    (h : fillFormat f m len off = .ok i) : Fills f m len off i := by
  cases f with
  | z | o | r =>
    simp only [fillFormat, ifUnusedZero_eq_ok_iff, Bool.and_eq_true, decide_eq_true_eq] at h
    obtain ⟨hzero, rfl⟩ := h
    simp only [hzero]
    constructor
  | imm mk =>
    simp only [fillFormat, ifUnusedZero_eq_ok_iff, Bool.and_eq_true, decide_eq_true_eq] at h
    obtain ⟨⟨⟨rfl, rfl⟩, hoff⟩, rfl⟩ := h
    nth_rw 1 [hoff]
    exact .imm mk _
  | mo mk =>
    obtain hm | ⟨e, rfl⟩ := orderOfM_eq_none_or m
    · simp [fillFormat, hm] at h
    simp only [fillFormat, orderOfM_mOfOrder, ifUnusedZero_eq_ok_iff, decide_eq_true_eq] at h
    obtain ⟨rfl, rfl⟩ := h
    exact .mo mk e off
  | mr mk =>
    obtain hm | ⟨e, rfl⟩ := orderOfM_eq_none_or m
    · simp [fillFormat, hm] at h
    simp only [fillFormat, orderOfM_mOfOrder, ite_ok_eq_ok_iff] at h
    obtain ⟨hn, rfl⟩ := h
    exact .mr mk e off len hn
  | mp mk =>
    obtain hm | ⟨e, rfl⟩ := orderOfM_eq_none_or m
    · simp [fillFormat, hm] at h
    simp only [fillFormat, orderOfM_mOfOrder, ifUnusedZero_eq_ok_iff, decide_eq_true_eq] at h
    obtain ⟨rfl, rfl⟩ := h
    nth_rw 1 [← lenOfPair_fields len]
    exact .mp mk e _ _

/-- Filling a format with the fields of a word is the relation of R71. -/
theorem fillFormat_eq_ok_iff {f : Format} {m : Byte} {len off : Index} {i : Instr} :
    fillFormat f m len off = .ok i ↔ Fills f m len off i :=
  ⟨fills_of_fillFormat, fillFormat_of_fills⟩

theorem decode_eq_ok_iff {w : CmdWord} {i : Instr} :
    decode w = .ok i ↔
      ∃ f, formatOf (opField w) = some f ∧ Fills f (mField w) (lenField w) (offField w) i := by
  unfold decode
  cases formatOf (opField w) with
  | none => simp
  | some f => simp [fillFormat_eq_ok_iff]

/-! ### The operations by format (R74) -/

/-- Every well-formed instruction stands in the opcode map, under the format its fields fill. -/
theorem exists_format_of_wellFormed (i : Instr) (hi : i.WellFormed) :
    ∃ f, formatOf (opcodeOf i) = some f ∧ Fills f (mFieldOf i) (lenFieldOf i) (offFieldOf i) i := by
  cases i with
  | nop | rst | stClr | bufClr | keyClr | sumClr | crcInit | uneClr | uneRun => exact ⟨_, rfl, .z _⟩
  | bufPush imm | keyPush imm | sumByte imm | crcByte imm => exact ⟨_, rfl, .imm _ imm⟩
  | sumApp off | crcApp off | aesEncb off | aesDecb off | aesPad off | aesUnpad off | mrkTst off
  | uneMap off => exact ⟨_, rfl, .o _ off⟩
  | sumRng off len | sumChk off len | crcRng off len | crcChk off len | aesEnc off len
  | aesDec off len | aesDecc off len | uneSub off len => exact ⟨_, rfl, .r _ off len⟩
  | unpTh e off => exact ⟨_, rfl, .mo _ e off⟩
  | pckTh e t h => exact ⟨_, rfl, .mp _ e t h⟩
  | fldU e off n | fldS e off n => exact ⟨_, rfl, .mr _ e off n hi⟩

/-- Whatever fills the format of an opcode is well formed, and these are the fields of its word. -/
theorem wellFormed_encode_of_fills {op m : Byte} {len off : Index} {f : Format} {i : Instr}
    (hop : formatOf op = some f) (h : Fills f m len off i) :
    i.WellFormed ∧ encode i = packFields op m len off := by
  cases h with
  | z | imm | o | r | mo | mp =>
    unfold formatOf at hop
    split at hop <;> cases hop <;> exact ⟨rfl, rfl⟩
  | mr mk e off n hn =>
    unfold formatOf at hop
    split at hop <;> cases hop <;> exact ⟨hn, rfl⟩

/-! ### The two round trips (R74, R75) -/

/-- Settles O16: the opcode finds the format, and the fields the encoder wrote fill it. -/
theorem decodeReadsBackEveryEncoding : Obligations.DecodeReadsBackEveryEncoding := by
  intro i hi
  obtain ⟨hop, hm, hlen, hoff⟩ := Laws.EncodedFields.of_packFields i
  rw [decode_eq_ok_iff, hop, hm, hlen, hoff]
  exact exists_format_of_wellFormed i hi

/-- Settles O17: the fields of a word that decodes fill its format, so they are the ones the encoder writes. -/
theorem encodeRebuildsEveryLegalWord : Obligations.EncodeRebuildsEveryLegalWord := by
  intro cmd i h
  obtain ⟨f, hop, hfills⟩ := decode_eq_ok_iff.mp h
  obtain ⟨hwf, hword⟩ := wellFormed_encode_of_fills hop hfills
  exact ⟨hwf, hword.trans (packFields_fields cmd)⟩

/-! ### The words as numbers (R70, R71, R74) -/

theorem encode_toNat (i : Instr) :
    (encode i).toNat = (opcodeOf i).toNat * 2 ^ 56 + (mFieldOf i).toNat * 2 ^ 48 +
      (lenFieldOf i).toNat * 2 ^ 24 + (offFieldOf i).toNat :=
  packFields_toNat _ _ _ _

theorem offOfImm_toNat (imm : Byte) : (offOfImm imm).toNat = imm.toNat :=
  BitVec.toNat_setWidth_of_le (by decide)

theorem lenOfPair_toNat (t h : Raw12) : (lenOfPair t h).toNat = t.toNat * 2 ^ 12 + h.toNat :=
  append_toNat_eq_add t h

/-- Settles O15: a word is the weighted sum of its four fields, and format by format they are its operands. -/
theorem wordsAreTheirFields : Obligations.WordsAreTheirFields := by
  intro imm off len t h
  refine ⟨?z, ?imm, ?o, ?r, fun p hp => ?orders⟩
  case z | imm | o | r =>
    simp only [List.forall_mem_cons]
    simp [encode_toNat, opcodeOf, mFieldOf, lenFieldOf, offFieldOf, offOfImm_toNat]
  case orders =>
    have hm : (mOfOrder p.1).toNat = p.2 := by fin_cases hp <;> rfl
    simp only [encode_toNat, opcodeOf, mFieldOf, lenFieldOf, offFieldOf, hm, lenOfPair_toNat,
      BitVec.toNat_ofNat, and_true]
    exact ⟨by omega, by omega⟩

/-! ### The opcode table (spec/opcode_table.json) -/

/-- The bits of `m` a format marks 0 (R71, R73). -/
def zeroM : Format → Byte
  | .z _ | .imm _ | .o _ | .r _ => 0xFF#8
  | .mo _ | .mr _ | .mp _ => 0xFE#8

/-- The bits of `len` a format marks 0 (R71). -/
def zeroLen : Format → Index
  | .z _ | .imm _ | .o _ | .mo _ => 0xFFFFFF#24
  | .r _ | .mr _ | .mp _ => 0#24

/-- The bits of `off` a format marks 0 (R71). -/
def zeroOff : Format → Index
  | .z _ | .mp _ => 0xFFFFFF#24
  | .imm _ => 0xFFFF00#24
  | .o _ | .r _ | .mo _ | .mr _ => 0#24

/-- Whether the format carries a width (R72). -/
def hasWidth : Format → Bool
  | .mr _ => true
  | .z _ | .imm _ | .o _ | .r _ | .mo _ | .mp _ => false

/-- The row that the table should hold for an opcode of the format: `match`, `mask`, and whether `len` is a width.
`rowOf_mem_table` and `exists_rowOf_of_mem_table` say that the table is these rows. -/
def rowOf (op : Byte) (f : Format) : CmdWord × CmdWord × Bool :=
  (packFields op 0#8 0#24 0#24, packFields 0xFF#8 (zeroM f) (zeroLen f) (zeroOff f), hasWidth f)

theorem rowOf_mem_table {op : Byte} {f : Format} (hop : formatOf op = some f) :
    rowOf op f ∈ tableRowsLow ++ tableRowsMid ++ tableRowsHigh := by
  unfold formatOf at hop
  split at hop <;> cases hop <;> decide

theorem exists_rowOf_of_mem_table {row : CmdWord × CmdWord × Bool}
    (hrow : row ∈ tableRowsLow ++ tableRowsMid ++ tableRowsHigh) :
    ∃ op f, formatOf op = some f ∧ rowOf op f = row := by
  have htable : (tableRowsLow ++ tableRowsMid ++ tableRowsHigh).all
      (fun row => (formatOf (opField row.1)).map (rowOf (opField row.1)) = some row) = true := rfl
  have hop := of_decide_eq_true (List.all_eq_true.mp htable row hrow)
  obtain ⟨f, hf, heq⟩ := Option.map_eq_some_iff.mp hop
  exact ⟨_, f, hf, heq⟩

/-- A field `m` carries a byte order when its bits 7:1 are 0 (R73). -/
theorem orderOfM_isSome_iff (m : Byte) : (orderOfM m).isSome = true ↔ m &&& 0xFE#8 = 0#8 := by
  revert m
  decide

/-- A field `off` carries an immediate when its bits 23:8 are 0 (R71). -/
theorem eq_offOfImm_iff (off : Index) : off = offOfImm (immOfOff off) ↔ off &&& 0xFFFF00#24 = 0#24 := by
  have hmask : ∀ i < 24, (0xFFFF00#24).getLsbD i = decide (8 ≤ i) := by decide
  simp only [BitVec.eq_of_getLsbD_eq_iff]
  refine forall₂_congr fun i hi => ?_
  rw [BitVec.getLsbD_and, hmask i hi]
  by_cases hlow : i < 8
  · simp [offOfImm, immOfOff, hi, hlow]
  · simp [offOfImm, immOfOff, show 8 ≤ i by omega]

/-- A format accepts the fields whose unused bits are 0 and, where it carries one, whose width is legal. -/
theorem exists_fills_iff {f : Format} {m : Byte} {len off : Index} :
    (∃ i, Fills f m len off i) ↔
      (m &&& zeroM f = 0#8 ∧ len &&& zeroLen f = 0#24 ∧ off &&& zeroOff f = 0#24) ∧
        (hasWidth f = true → legalWidth len = true) := by
  have hFF (m : Byte) : m &&& 0xFF#8 = m := BitVec.and_allOnes
  have hFFFFFF (x : Index) : x &&& 0xFFFFFF#24 = x := BitVec.and_allOnes
  simp only [← fillFormat_eq_ok_iff]
  cases f with
  | z | imm | o | r =>
    simp [fillFormat, ifUnusedZero_eq_ok_iff, zeroM, zeroLen, zeroOff, hasWidth, hFF, hFFFFFF,
      ← eq_offOfImm_iff, and_assoc]
  | mo | mr | mp =>
    simp only [zeroM, ← orderOfM_isSome_iff]
    cases he : orderOfM m with
    | none => simp [fillFormat, he]
    | some e =>
      simp [fillFormat, he, ifUnusedZero_eq_ok_iff, ite_ok_eq_ok_iff, zeroLen, zeroOff, hasWidth, hFFFFFF]

/-- A row tests field by field: its mask covers `op` and exactly the bits its format marks 0. -/
theorem acceptsRow_rowOf {op : Byte} {f : Format} {w : CmdWord} :
    acceptsRow (rowOf op f) w ↔
      opField w = op ∧ ∃ i, Fills f (mField w) (lenField w) (offField w) i := by
  have hmask : w &&& (rowOf op f).2.1 = (rowOf op f).1 ↔
      opField w = op ∧ mField w &&& zeroM f = 0#8 ∧ lenField w &&& zeroLen f = 0#24 ∧
        offField w &&& zeroOff f = 0#24 := by
    conv_lhs => rw [← packFields_fields w]
    simp only [rowOf, packFields_and, packFields_inj]
    rw [show (0xFF#8 : Byte) = BitVec.allOnes 8 from rfl, BitVec.and_allOnes]
  rw [acceptsRow, hmask, exists_fills_iff, ← lenField_toNat, ← legalWidth_iff]
  exact and_assoc

/-- Settles O18: the row of a word's opcode accepts exactly the fields the format of that opcode accepts. -/
theorem legalWordsAreThoseTheTableAccepts : Obligations.LegalWordsAreThoseTheTableAccepts := by
  intro cmd
  constructor
  · rintro ⟨i, h⟩
    obtain ⟨f, hop, hfills⟩ := decode_eq_ok_iff.mp h
    exact ⟨_, rowOf_mem_table hop, acceptsRow_rowOf.mpr ⟨rfl, i, hfills⟩⟩
  · rintro ⟨row, hrow, haccepts⟩
    obtain ⟨op, f, hop, rfl⟩ := exists_rowOf_of_mem_table hrow
    obtain ⟨rfl, i, hfills⟩ := acceptsRow_rowOf.mp haccepts
    exact ⟨i, decode_eq_ok_iff.mpr ⟨f, hop, hfills⟩⟩

end Sys2Proof.Machine
end

section
/-! The housekeeping operations (40_general_ops.md R90 to R96) and the clearing ones of the other families: each
clear writes one register group, each push appends one byte or takes `BufferOverflow`. -/

namespace Sys2Proof.Machine

/-! ### The clearing operations -/

/-- Settles O20: the meaning of each of the seven is one register write, or none. -/
theorem clearingOperationsClearOneThing : Obligations.ClearingOperationsClearOneThing :=
  fun _ => ⟨rfl, rfl, rfl, rfl, rfl, rfl, rfl⟩

/-! ### The canonical memories of a legal state -/

theorem State.Inv.w_wf {s : State} (hs : s.Inv) : s.w.wf = true := by
  obtain ⟨-, -, -, hw, -⟩ := hs
  exact hw

theorem State.Inv.k_wf {s : State} (hs : s.Inv) : s.k.wf = true := by
  obtain ⟨-, -, -, -, hk, -⟩ := hs
  exact hk

/-! ### Appending to `W` (R94) -/

/-- An append that fits puts its bytes after the valid ones of `W` and stores to no other index. -/
theorem State.Inv.appendW_appendsToW {s : State} (hs : s.Inv) {bytes : List Byte}
    (h : s.wlen.toNat + bytes.length ≤ s.wcap.toNat) : AppendsToW s (s.appendW bytes) bytes :=
  ⟨s.appendW_wBytes bytes hs.w_wf h, fun b hb => Memory.read_writeRange_of_outside s.w _ b bytes hb⟩

/-- Settles O21: the room check decides between the append of one byte and the error. -/
theorem bufPushAppendsItsByte : Obligations.BufPushAppendsItsByte := by
  intro imm s hs
  refine ⟨fun hroom => ⟨s.appendW [imm], room_pass hroom, s.appendW_eq [imm],
    hs.appendW_appendsToW hroom⟩, fun hfull => ?_⟩
  exact room_fail (hfull ▸ Nat.lt_succ_self _)

/-! ### Appending to `K` (R96) -/

/-- `K` with one byte at index `KLEN`, and `KLEN` one more: what `KEY.PUSH` leaves (`execKeyPush_pass`). -/
def State.appendK (s : State) (v : Byte) : State :=
  (s.setK (s.k.write s.klen.toNat v)).setKlen (s.klen + 1#6)

theorem execKeyPush_pass {imm : Byte} {s : State} (h : s.klen.toNat < 32) :
    execKeyPush imm s = .next (s.appendK imm) :=
  (if_neg (Nat.ne_of_lt h)).trans (if_neg (Nat.lt_asymm h))

theorem execKeyPush_full {imm : Byte} {s : State} (h : s.klen.toNat = 32) :
    execKeyPush imm s = .next (s.setStatus ErrCode.bufferOverflow.code 0x07#8) := if_pos h

/-- The append changes `K` and `KLEN` alone. -/
theorem State.appendK_eq (s : State) (v : Byte) :
    s.appendK v = { s with k := s.k.write s.klen.toNat v, klen := s.klen + 1#6 } := rfl

/-- `KLEN` has six bits, so below 32 it does not wrap. -/
theorem State.appendK_klen_toNat {s : State} (v : Byte) (h : s.klen.toNat < 32) :
    (s.appendK v).klen.toNat = s.klen.toNat + 1 := by
  simp only [State.appendK_eq, BitVec.toNat_add, BitVec.toNat_ofNat]
  omega

theorem State.appendK_kBytes {s : State} (v : Byte) (hk : s.k.wf = true) (h : s.klen.toNat < 32) :
    (s.appendK v).kBytes = s.kBytes ++ [v] := by
  have hold : (s.k.write s.klen.toNat v).readRange 0 s.klen.toNat = s.k.readRange 0 s.klen.toNat :=
    Memory.readRange_writeRange_apart s.k s.klen.toNat 0 _ [v] (by omega)
  have hnew : (s.k.write s.klen.toNat v).readRange s.klen.toNat 1 = [v] :=
    Memory.readRange_writeRange_self hk s.klen.toNat [v]
  rw [State.kBytes, State.appendK_klen_toNat v h, Memory.readRange_add, Nat.zero_add, State.appendK_eq,
    hold, hnew, State.kBytes]

/-- Settles O22: below 32 the push is the append, whose bytes need the canonical form of `K`; at 32 it is the error. -/
theorem keyPushAppendsItsByte : Obligations.KeyPushAppendsItsByte := by
  intro imm s hs
  refine ⟨fun hroom => ⟨s.appendK imm, execKeyPush_pass hroom, s.appendK_eq imm,
    s.appendK_kBytes imm hs.k_wf hroom, fun a ha => ?_⟩, execKeyPush_full⟩
  exact Memory.read_write_of_ne s.k imm ha

end Sys2Proof.Machine
end

section
/-! The sum-check (41_sum_check.md R100 to R107): what the fold, the check bytes and the check value are as exact
numbers, then the operations on a legal state, and from these that `SUM.CHK` accepts what `SUM.APP` built and
detects a change of one byte. -/

namespace Sys2Proof.Machine

/-! ### The exact sum of bytes (R100) -/

@[simp] theorem byteSum_nil : byteSum [] = 0 := rfl

@[simp] theorem byteSum_cons (b : Byte) (bytes : List Byte) :
    byteSum (b :: bytes) = b.toNat + byteSum bytes := rfl

@[simp] theorem byteSum_append (b c : List Byte) : byteSum (b ++ c) = byteSum b + byteSum c := by
  simp [byteSum]

@[simp] theorem byteSum_replicate (n : Nat) (b : Byte) :
    byteSum (List.replicate n b) = n * b.toNat := by
  simp [byteSum]

theorem byteSum_perm {b c : List Byte} (h : b.Perm c) : byteSum b = byteSum c :=
  (h.map BitVec.toNat).sum_eq

/-- A write inside a range puts the new byte in the place of the old one in the range's sum. -/
theorem byteSum_readRange_write {m : Memory} (hm : m.wf = true) (v : Byte) {a off n : Nat}
    (hlow : off ≤ a) (hhigh : a < off + n) :
    byteSum ((m.write a v).readRange off n) + (m.read a).toNat =
      byteSum (m.readRange off n) + v.toNat := by
  induction n generalizing off with
  | zero => omega
  | succ n ih =>
    simp only [Memory.readRange, byteSum_cons]
    rcases Nat.eq_or_lt_of_le hlow with rfl | hlt
    · have htail : (m.write off v).readRange (off + 1) n = m.readRange (off + 1) n :=
        Memory.readRange_writeRange_apart m off (off + 1) n [v] (.inr (Nat.le_refl _))
      rw [Memory.read_write_self hm, htail]
      omega
    · have htail := ih (off := off + 1) hlt (by omega)
      rw [Memory.read_write_of_ne m v (Nat.ne_of_lt hlt)]
      omega

/-! ### The fold of 16-bit additions (R100, R106) -/

theorem add16_toNat (a : Half) (b : Byte) : (add16 a b).toNat = (a.toNat + b.toNat) % 65536 := by
  simp only [add16, BitVec.toNat_add, BitVec.toNat_setWidth, Nat.add_mod_mod]

theorem foldl_add16_toNat (bytes : List Byte) (acc : Half) :
    (bytes.foldl add16 acc).toNat = (acc.toNat + byteSum bytes) % 65536 := by
  induction bytes generalizing acc with
  | nil => exact (Nat.mod_eq_of_lt acc.isLt).symm
  | cons b bytes ih =>
    rw [List.foldl_cons, ih, add16_toNat, byteSum_cons, Nat.mod_add_mod, Nat.add_assoc]

theorem sum16_toNat (bytes : List Byte) : (sum16 bytes).toNat = byteSum bytes % 65536 := by
  simp [sum16, foldl_add16_toNat]

theorem sum16_eq_ofNat (bytes : List Byte) : sum16 bytes = BitVec.ofNat 16 (byteSum bytes) :=
  BitVec.eq_of_toNat_eq (sum16_toNat bytes)

/-- Settles O23: every clause is a fact about the exact sum, reduced modulo 65536. -/
theorem sumSixteenIsTheSumModulo65536 : Obligations.SumSixteenIsTheSumModulo65536 := by
  refine ⟨sum16_toNat, fun b c h => ?perm, fun b c => ?append, ?max, ?wrap⟩
  case perm => rw [sum16_eq_ofNat, sum16_eq_ofNat, byteSum_perm h]
  case append => rw [sum16_toNat, sum16_toNat, sum16_toNat, byteSum_append, Nat.add_mod]
  case max | wrap => rw [sum16_eq_ofNat, byteSum_replicate]; rfl

/-! ### The check bytes and the check value (R104, R105) -/

theorem checkBytes_ofNat (n : Nat) :
    checkBytes (BitVec.ofNat 16 n) = [BitVec.ofNat 8 n, BitVec.ofNat 8 (n / 256)] := by
  simp only [checkBytes, List.cons.injEq, and_true, BitVec.toNat_eq, BitVec.extractLsb'_toNat,
    BitVec.toNat_ofNat, Nat.shiftRight_eq_div_pow]
  omega

theorem checkValue_toNat (low high : Byte) :
    (checkValue [low, high]).toNat = low.toNat + 256 * high.toNat := by
  have hvalue : assemble .little [low, high] = low.toNat + 256 * high.toNat := by
    simp only [assemble, bigEndianNat, List.reverse_cons, List.reverse_nil, List.nil_append,
      List.cons_append, List.foldl_cons, List.foldl_nil]
    omega
  rw [checkValue, hvalue, BitVec.toNat_ofNat]
  omega

theorem checkValue_checkBytes (v : Half) : checkValue (checkBytes v) = v := by
  apply BitVec.eq_of_toNat_eq
  simp only [checkBytes, checkValue_toNat, BitVec.extractLsb'_toNat, Nat.shiftRight_eq_div_pow]
  omega

/-! ### Ranges of valid bytes -/

theorem State.range_eq_readRange {s : State} {off len : Nat} (h : off + len ≤ s.wlen.toNat) :
    s.range off len = s.w.readRange off len :=
  s.wBytes_drop_take off len h

/-- The range that ends with the valid bytes is what is left of them from its offset. -/
theorem State.range_to_end (s : State) (off : Nat) :
    s.range off (s.wlen.toNat - off) = s.wBytes.drop off :=
  List.take_of_length_le (by simp)

theorem State.range_two {s : State} {a : Nat} (h : a + 2 ≤ s.wlen.toNat) :
    s.range a 2 = [s.w.read a, s.w.read (a + 1)] :=
  State.range_eq_readRange h

/-- In a legal state a read of valid bytes gives the range to the rest of the operation. -/
theorem State.Inv.readW_valid {s : State} (hs : s.Inv) {a n : Nat} {rest : List Byte → Out}
    (hvalid : a + n ≤ s.wlen.toNat) : readW a n s rest = rest (s.range a n) := by
  rw [readW_pass (hvalid.trans hs.wlen_le), State.range_eq_readRange hvalid]

/-! ### `SUM.BYTE` and `SUM.RNG` (R102, R103) -/

/-- Settles O24: the new `SUM` is one addition of the fold. -/
theorem sumByteAddsItsByte : Obligations.SumByteAddsItsByte :=
  fun imm s => ⟨add16 s.sum imm, rfl, add16_toNat s.sum imm⟩

theorem execSumRng_valid {off len : Index} {s : State} (hs : s.Inv)
    (hvalid : off.toNat + len.toNat ≤ s.wlen.toNat) :
    execSumRng off len s = .next (s.setSum (s.sum + sum16 (s.range off.toNat len.toNat))) := by
  rw [execSumRng, need_pass hvalid, hs.readW_valid hvalid]

/-- Settles O25: the range check decides between the sum of the range and the error. -/
theorem sumRngAddsItsRange : Obligations.SumRngAddsItsRange := by
  refine fun off len s hs => ⟨fun hvalid => ⟨_, execSumRng_valid hs hvalid, ?_⟩, fun hpast => need_fail hpast⟩
  rw [BitVec.toNat_add, sum16_toNat, Nat.add_mod_mod]

/-! ### `SUM.CHK` (R104) -/

/-- The test of `SUM.CHK` in exact numbers: the sum of all but the last two bytes of the range, modulo 65536, is
the little-endian value of those two. -/
def State.SumAgrees (s : State) (off len : Nat) : Prop :=
  byteSum (s.range off (len - 2)) % 65536 =
    (s.w.read (off + len - 2)).toNat + 256 * (s.w.read (off + len - 1)).toNat

/-- The comparison of 16-bit words in `SUM.CHK` is the test in exact numbers. -/
theorem sum16_eq_checkValue_iff {s : State} {off len : Nat} (hlen : 2 ≤ len)
    (hvalid : off + len ≤ s.wlen.toNat) :
    sum16 (s.range off (len - 2)) = checkValue (s.range (off + len - 2) 2) ↔ s.SumAgrees off len := by
  have hlast : off + len - 2 + 1 = off + len - 1 := by omega
  rw [State.range_two (by omega), hlast, ← BitVec.toNat_inj, sum16_toNat, checkValue_toNat]
  rfl

/-- On a valid range of at least two bytes only the test is left of `SUM.CHK`. -/
theorem execSumChk_valid {off len : Index} {s : State} (hs : s.Inv) (hlen : 2 ≤ len.toNat)
    (hvalid : off.toNat + len.toNat ≤ s.wlen.toNat) :
    execSumChk off len s =
      if sum16 (s.range off.toNat (len.toNat - 2)) ≠ checkValue (s.range (off.toNat + len.toNat - 2) 2)
      then .next (s.setStatus ErrCode.checksumMismatch.code 0x13#8)
      else .next (s.setSum (sum16 (s.range off.toNat (len.toNat - 2)))) := by
  rw [execSumChk, if_neg (Nat.not_lt.2 hlen), need_pass hvalid, hs.readW_valid (by omega),
    hs.readW_valid (by omega)]
  rfl

theorem execSumChk_agrees {off len : Index} {s : State} (hs : s.Inv) (hlen : 2 ≤ len.toNat)
    (hvalid : off.toNat + len.toNat ≤ s.wlen.toNat) (hsum : s.SumAgrees off.toNat len.toNat) :
    execSumChk off len s =
      .next (s.setSum (BitVec.ofNat 16 (byteSum (s.range off.toNat (len.toNat - 2))))) := by
  rw [execSumChk_valid hs hlen hvalid, if_neg (not_not.2 ((sum16_eq_checkValue_iff hlen hvalid).2 hsum)),
    sum16_eq_ofNat]

theorem execSumChk_differs {off len : Index} {s : State} (hs : s.Inv) (hlen : 2 ≤ len.toNat)
    (hvalid : off.toNat + len.toNat ≤ s.wlen.toNat) (hsum : ¬s.SumAgrees off.toNat len.toNat) :
    execSumChk off len s = .next (s.setStatus ErrCode.checksumMismatch.code 0x13#8) := by
  rw [execSumChk_valid hs hlen hvalid, if_pos (mt (sum16_eq_checkValue_iff hlen hvalid).1 hsum)]

/-- Settles O26: the checks in their order, then the test in exact numbers. -/
theorem sumChkComparesTheLittleEndianSum : Obligations.SumChkComparesTheLittleEndianSum := by
  intro off len s hs
  change execSumChk off len s = _
  split_ifs with hshort hpast hdiff
  · exact if_pos hshort
  · exact (if_neg hshort).trans (need_fail hpast)
  · exact execSumChk_differs hs (Nat.not_lt.1 hshort) (Nat.not_lt.1 hpast) hdiff
  · exact execSumChk_agrees hs (Nat.not_lt.1 hshort) (Nat.not_lt.1 hpast) (not_not.1 hdiff)

/-- When `SUM.CHK` leaves no error, its range is valid and passes the test. -/
theorem sumAgrees_of_execSumChk {off len : Index} {s t : State} (hs : s.Inv)
    (h : exec (.sumChk off len) s = .next t) (herr : t.err = 0#8) :
    2 ≤ len.toNat ∧ off.toNat + len.toNat ≤ s.wlen.toNat ∧ s.SumAgrees off.toNat len.toNat := by
  have hnext := Host.Outcome.next.inj ((sumChkComparesTheLittleEndianSum off len s hs).symm.trans h)
  split_ifs at hnext with hshort hpast hdiff
  case neg => exact ⟨Nat.not_lt.1 hshort, Nat.not_lt.1 hpast, not_not.1 hdiff⟩
  all_goals
    subst hnext
    cases herr

/-! ### `SUM.APP` (R105) -/

/-- What `SUM.APP` leaves (`execSumApp_pass`): the check bytes of the sum from `off` on appended, and that sum. -/
def State.appendSum (s : State) (off : Nat) : State :=
  (s.appendW (checkBytes (sum16 (s.wBytes.drop off)))).setSum (sum16 (s.wBytes.drop off))

theorem execSumApp_pass {off : Index} {s : State} (hs : s.Inv) (hoff : off.toNat ≤ s.wlen.toNat)
    (hroom : s.wlen.toNat + 2 ≤ s.wcap.toNat) :
    execSumApp off s = .next (s.appendSum off.toNat) := by
  rw [execSumApp, need_pass hoff, room_pass hroom, hs.readW_valid (by omega), State.range_to_end]
  rfl

theorem State.appendSum_eq (s : State) (off : Nat) :
    s.appendSum off =
      { s with
        w := (s.appendSum off).w, wlen := s.wlen + 2#24
        sum := BitVec.ofNat 16 (byteSum (s.wBytes.drop off)) } := by
  rw [← sum16_eq_ofNat]
  rfl

theorem State.Inv.appendSum_appendsToW {s : State} (hs : s.Inv) (off : Nat)
    (hroom : s.wlen.toNat + 2 ≤ s.wcap.toNat) :
    AppendsToW s (s.appendSum off) [BitVec.ofNat 8 (byteSum (s.wBytes.drop off)),
      BitVec.ofNat 8 (byteSum (s.wBytes.drop off) / 256)] := by
  rw [← checkBytes_ofNat, ← sum16_eq_ofNat]
  exact hs.appendW_appendsToW hroom

/-- Settles O27: the two checks in their order, then the append of the check bytes. -/
theorem sumAppAppendsTheSum : Obligations.SumAppAppendsTheSum := by
  refine fun off s hs => ⟨fun hpast => need_fail hpast,
    fun hoff hfull => (need_pass hoff).trans (room_fail hfull), fun hoff hroom => ?_⟩
  exact ⟨_, execSumApp_pass hs hoff hroom, s.appendSum_eq off.toNat, hs.appendSum_appendsToW _ hroom⟩

/-! ### `SUM.CHK` after `SUM.APP` (R105) -/

theorem State.Inv.appendSum {s : State} (hs : s.Inv) (off : Nat)
    (hroom : s.wlen.toNat + 2 ≤ s.wcap.toNat) : (s.appendSum off).Inv :=
  hs.appendW hroom

theorem State.appendSum_wlen_toNat {s : State} (off : Nat) (hroom : s.wlen.toNat + 2 ≤ s.wcap.toNat) :
    (s.appendSum off).wlen.toNat = s.wlen.toNat + 2 :=
  s.appendW_wlen_toNat _ hroom

/-- The body of the frame `SUM.APP` leaves is what was summed. -/
theorem State.Inv.appendSum_range_body {s : State} (hs : s.Inv) {off : Nat} (hoff : off ≤ s.wlen.toNat)
    (hroom : s.wlen.toNat + 2 ≤ s.wcap.toNat) :
    (s.appendSum off).range off (s.wlen.toNat - off) = s.wBytes.drop off := by
  obtain ⟨hbytes, -⟩ := hs.appendSum_appendsToW off hroom
  rw [State.range, hbytes, List.drop_append_of_le_length (by simpa using hoff)]
  exact List.take_left' (by simp)

/-- The last two bytes of the frame `SUM.APP` leaves are the check bytes of the sum. -/
theorem State.Inv.appendSum_range_check {s : State} (hs : s.Inv) (off : Nat)
    (hroom : s.wlen.toNat + 2 ≤ s.wcap.toNat) :
    (s.appendSum off).range s.wlen.toNat 2 = checkBytes (sum16 (s.wBytes.drop off)) := by
  obtain ⟨hbytes, -⟩ := hs.appendSum_appendsToW off hroom
  rw [State.range, hbytes, List.drop_left' s.wBytes_length, sum16_eq_ofNat, checkBytes_ofNat]
  rfl

theorem State.Inv.appendSum_sumAgrees {s : State} (hs : s.Inv) {off : Nat} (hoff : off ≤ s.wlen.toNat)
    (hroom : s.wlen.toNat + 2 ≤ s.wcap.toNat) :
    (s.appendSum off).SumAgrees off (s.wlen.toNat + 2 - off) := by
  have hwlen := State.appendSum_wlen_toNat off hroom
  have hbody : s.wlen.toNat + 2 - off - 2 = s.wlen.toNat - off := by omega
  have hcheck : off + (s.wlen.toNat + 2 - off) - 2 = s.wlen.toNat := by omega
  rw [← sum16_eq_checkValue_iff (by omega) (by omega), hbody, hcheck, hs.appendSum_range_body hoff hroom,
    hs.appendSum_range_check off hroom, checkValue_checkBytes]

/-- Settles O28: the frame passes the test, and the sum that `SUM.CHK` leaves is the one already in `SUM`. -/
theorem sumChkAcceptsWhatSumAppBuilt : Obligations.SumChkAcceptsWhatSumAppBuilt := by
  intro off s hs hoff hroom
  have hwlen := State.appendSum_wlen_toNat off.toNat hroom
  have hlen : ((s.appendSum off.toNat).wlen - off).toNat = s.wlen.toNat + 2 - off.toNat := by
    rw [BitVec.toNat_sub_of_le (BitVec.le_def.2 (by omega)), hwlen]
  have hbody : s.wlen.toNat + 2 - off.toNat - 2 = s.wlen.toNat - off.toNat := by omega
  refine ⟨s.appendSum off.toNat, execSumApp_pass hs hoff hroom, ?_⟩
  refine (execSumChk_agrees (hs.appendSum _ hroom) (by omega) (by omega) ?_).trans ?_
  · rw [hlen]
    exact hs.appendSum_sumAgrees hoff hroom
  · rw [hlen, hbody, hs.appendSum_range_body hoff hroom, ← sum16_eq_ofNat]
    rfl

/-! ### A change of one byte (R107) -/

theorem State.Inv.writeW {s : State} (hs : s.Inv) {a : Nat} (ha : a < s.wcap.toNat) (v : Byte) :
    (s.setW (s.w.write a v)).Inv :=
  hs.putW (bytes := [v]) ha

/-- The test in terms of the memory, where a write shows. -/
theorem State.sumAgrees_iff {s : State} {off len : Nat} (hvalid : off + len ≤ s.wlen.toNat) :
    s.SumAgrees off len ↔ byteSum (s.w.readRange off (len - 2)) % 65536 =
      (s.w.read (off + len - 2)).toNat + 256 * (s.w.read (off + len - 1)).toNat := by
  rw [State.SumAgrees, State.range_eq_readRange (by omega)]

/-- Another byte in the body moves the sum by less than 256 and leaves the check value; in the check value it moves
that and leaves the sum. -/
theorem State.SumAgrees.not_of_write {s : State} {off len a : Nat} {v : Byte}
    (hsum : s.SumAgrees off len) (hw : s.w.wf = true) (hlen : 2 ≤ len)
    (hvalid : off + len ≤ s.wlen.toNat) (hlow : off ≤ a) (hhigh : a < off + len)
    (hv : v ≠ s.w.read a) : ¬(s.setW (s.w.write a v)).SumAgrees off len := by
  have hne : v.toNat ≠ (s.w.read a).toNat := mt BitVec.eq_of_toNat_eq hv
  rw [State.sumAgrees_iff hvalid] at hsum
  rw [State.sumAgrees_iff (s := s.setW (s.w.write a v)) hvalid, State.setW_w]
  rcases Nat.lt_or_ge a (off + len - 2) with hbody | hcheck
  · have hmoved := byteSum_readRange_write hw v hlow (n := len - 2) (by omega)
    rw [Memory.read_write_of_ne _ v (by omega), Memory.read_write_of_ne _ v (by omega)]
    omega
  · have hsame : (s.w.write a v).readRange off (len - 2) = s.w.readRange off (len - 2) :=
      Memory.readRange_writeRange_apart s.w a off _ [v] (by omega)
    rw [hsame]
    rcases (by omega : a = off + len - 2 ∨ a = off + len - 1) with rfl | rfl
    · rw [Memory.read_write_self hw, Memory.read_write_of_ne _ v (by omega)]
      omega
    · rw [Memory.read_write_self hw, Memory.read_write_of_ne _ v (by omega)]
      omega

/-- Settles O29: the range that `SUM.CHK` accepted passes the test, so after the change it does not. -/
theorem sumChkDetectsEveryOneByteChange : Obligations.SumChkDetectsEveryOneByteChange := by
  intro off len s t a v hs _ hexec hnoError hlow hhigh hv
  obtain ⟨hlen, hvalid, hsum⟩ := sumAgrees_of_execSumChk hs hexec hnoError
  have hcap := hs.wlen_le
  exact execSumChk_differs (hs.writeW (by omega) v) hlen hvalid
    (hsum.not_of_write hs.w_wf hlen hvalid hlow hhigh hv)

end Sys2Proof.Machine
end

section
/-! The CRC-16 (42_crc16.md R110 to R119): one iteration is linear and injective, so `n` iterations are a linear
bijection of the registers; two bytes meet the register as one 16-bit word, which gives the zero residue; then the
operations on a legal state, and from these that `CRC.CHK` compares with the CRC of the body, accepts what `CRC.APP`
built and detects a change of one byte. -/

namespace Sys2Proof.Machine

/-! ### The iterations of `crc_step` (R110) -/

theorem getLsbD_zero_iff_odd (r : Half) : r.getLsbD 0 = true ↔ r.toNat % 2 = 1 := by
  rw [BitVec.getLsbD, Nat.testBit_zero, decide_eq_true_eq]

theorem crcBit_of_even {r : Half} (h : r.toNat % 2 = 0) : crcBit r = r >>> 1 :=
  if_neg (by rw [getLsbD_zero_iff_odd]; omega)

theorem crcBit_of_odd {r : Half} (h : r.toNat % 2 = 1) : crcBit r = (r >>> 1) ^^^ 0xA001#16 :=
  if_pos ((getLsbD_zero_iff_odd r).2 h)

/-- One iteration on the register as a number: halve it, and feed back when it was odd. -/
theorem crcBit_eq_halve (r : Half) :
    crcBit r = if r.toNat % 2 = 1 then BitVec.ofNat 16 (r.toNat / 2) ^^^ 0xA001#16
      else BitVec.ofNat 16 (r.toNat / 2) := by
  have hshift : r >>> 1 = BitVec.ofNat 16 (r.toNat / 2) := by bv_omega
  rw [← hshift]
  split
  · next hodd => exact crcBit_of_odd hodd
  · next heven => exact crcBit_of_even (by omega)

theorem crcBits_eq_iterate (n : Nat) : crcBits n = crcBit^[n] := by
  induction n with
  | zero => rfl
  | succ n ih =>
    funext r
    rw [crcBits, ih, Function.iterate_succ_apply]

theorem crcBits_add (m n : Nat) (r : Half) : crcBits n (crcBits m r) = crcBits (n + m) r := by
  simp only [crcBits_eq_iterate, Function.iterate_add_apply]

theorem crcBits_zero (n : Nat) : crcBits n 0#16 = 0#16 := by
  rw [crcBits_eq_iterate]
  exact Function.iterate_fixed (crcBit_of_even rfl) n

/-- Settles O30: the eight iterations are the iterate of one, said on numbers. -/
theorem crcByteRunsEightIterations : Obligations.CrcByteRunsEightIterations := by
  intro imm s
  rw [← funext crcBit_eq_halve, ← crcBits_eq_iterate, BitVec.ofNat_toNat]
  rfl

/-! ### Linearity and bijectivity (R118) -/

/-- The feedback is linear in the bit shifted out. -/
theorem feedback_xor (b b' : Bool) (p : Half) :
    (if (b ^^ b') = true then p else 0#16) = (if b = true then p else 0#16) ^^^ (if b' = true then p else 0#16) := by
  cases b <;> cases b' <;> simp

theorem crcBit_eq_xor (r : Half) :
    crcBit r = (r >>> 1) ^^^ (if r.getLsbD 0 = true then Config.crcPoly else 0#16) := by
  unfold crcBit
  split
  · rfl
  · exact BitVec.xor_zero.symm

theorem crcBit_xor (r r' : Half) : crcBit (r ^^^ r') = crcBit r ^^^ crcBit r' := by
  simp only [crcBit_eq_xor, BitVec.ushiftRight_xor_distrib, BitVec.getLsbD_xor, feedback_xor]
  ac_rfl

theorem crcBits_xor (n : Nat) (r r' : Half) : crcBits n (r ^^^ r') = crcBits n r ^^^ crcBits n r' := by
  induction n generalizing r r' with
  | zero => rfl
  | succ n ih => rw [crcBits, crcBit_xor, ih, crcBits, crcBits]

theorem crcStep_xor (r r' : Half) (b b' : Byte) :
    crcStep (r ^^^ r') (b ^^^ b') = crcStep r b ^^^ crcStep r' b' := by
  have hpair : r ^^^ r' ^^^ (b ^^^ b').setWidth 16 =
      (r ^^^ b.setWidth 16) ^^^ (r' ^^^ b'.setWidth 16) := by
    rw [BitVec.setWidth_xor]
    ac_rfl
  rw [crcStep, hpair, crcBits_xor, crcStep, crcStep]

/-- The top bit of the feedback constant is 1, so the register after an iteration shows the bit shifted out. -/
theorem crcBit_eq_zero {r : Half} (h : crcBit r = 0#16) : r = 0#16 := by
  rcases Nat.mod_two_eq_zero_or_one r.toNat with heven | hodd
  · rw [crcBit_of_even heven] at h
    bv_omega
  · rw [crcBit_of_odd hodd, BitVec.xor_eq_zero_iff] at h
    bv_omega

theorem crcBit_injective : Function.Injective crcBit := fun r r' h =>
  BitVec.xor_eq_zero_iff.1 (crcBit_eq_zero (by rw [crcBit_xor, h, BitVec.xor_self]))

theorem crcBits_bijective (n : Nat) : Function.Bijective (crcBits n) := by
  rw [crcBits_eq_iterate]
  exact (Finite.injective_iff_bijective.1 crcBit_injective).iterate n

theorem crcBits_eq_zero_iff (n : Nat) (r : Half) : crcBits n r = 0#16 ↔ r = 0#16 :=
  (crcBits_bijective n).injective.eq_iff' (crcBits_zero n)

theorem crcStep_bijective (b : Byte) : Function.Bijective fun r : Half => crcStep r b :=
  Finite.injective_iff_bijective.1 fun _ _ h =>
    (BitVec.xor_left_inj _).1 ((crcBits_bijective 8).injective h)

theorem crcStep_injective (r : Half) : Function.Injective fun b : Byte => crcStep r b := by
  intro b b' h
  have hwide := (BitVec.xor_right_inj r).1 ((crcBits_bijective 8).injective h)
  bv_omega

/-! ### The two bytes of a register -/

theorem append_bytes (r : Half) : (r.extractLsb' 8 8 ++ r.extractLsb' 0 8 : Half) = r :=
  BitVec.extractLsb'_append_extractLsb' (w := 8) (len := 8)

theorem append_eq_xor_bytes (high low : Byte) : (high ++ low : Half) = (high ++ 0#8) ^^^ low.setWidth 16 := by
  have hlow : (low.setWidth 16 : Half) = 0#8 ++ low := BitVec.setWidth_eq_append (by decide)
  rw [hlow, BitVec.xor_append, BitVec.xor_zero, BitVec.zero_xor]

theorem append_eq_iff_bytes (high low : Byte) (r : Half) :
    (high ++ low : Half) = r ↔ low = r.extractLsb' 0 8 ∧ high = r.extractLsb' 8 8 := by
  refine ⟨?_, fun ⟨hlow, hhigh⟩ => by rw [hlow, hhigh, append_bytes]⟩
  rintro rfl
  simp only [BitVec.toNat_eq, BitVec.extractLsb'_toNat, append_toNat_eq_add, Nat.shiftRight_eq_div_pow]
  omega

/-- Low byte first, the pairs of bytes are the registers. -/
theorem append_bijective : Function.Bijective fun p : Byte × Byte => (p.2 ++ p.1 : Half) := by
  refine ⟨fun p q h => ?_, fun r => ⟨(r.extractLsb' 0 8, r.extractLsb' 8 8), append_bytes r⟩⟩
  obtain ⟨hlow, hhigh⟩ := (append_eq_iff_bytes _ _ _).1 h
  obtain ⟨hlow', hhigh'⟩ := (append_eq_iff_bytes q.2 q.1 _).1 rfl
  exact Prod.ext (hlow.trans hlow'.symm) (hhigh.trans hhigh'.symm)

/-! ### The table form (R118) -/

/-- While the bits shifted out are 0, the iterations only shift. -/
theorem crcBits_of_dvd (n : Nat) {r : Half} (h : 2 ^ n ∣ r.toNat) : crcBits n r = r >>> n := by
  induction n generalizing r with
  | zero => rfl
  | succ n ih =>
    have heven : r.toNat % 2 = 0 := Nat.mod_eq_zero_of_dvd (dvd_trans (Dvd.intro_left _ rfl) h)
    have hhalf : 2 ^ n ∣ (r >>> 1).toNat := by
      rw [BitVec.toNat_ushiftRight, Nat.shiftRight_one]
      exact Nat.dvd_div_of_mul_dvd (by rwa [Nat.mul_comm, ← Nat.pow_succ])
    rw [crcBits, crcBit_of_even heven, ih hhalf, ← BitVec.shiftRight_add, Nat.add_comm]

theorem crcBits_high (high : Byte) : crcBits 8 (high ++ 0#8) = high.setWidth 16 := by
  have hval : (high ++ 0#8 : Half).toNat = high.toNat * 2 ^ 8 :=
    (append_toNat_eq_add high 0#8).trans (Nat.add_zero _)
  have hdvd : 2 ^ 8 ∣ (high ++ 0#8 : Half).toNat := by
    rw [hval]
    exact Nat.dvd_mul_left _ _
  rw [crcBits_of_dvd 8 hdvd]
  bv_omega

/-- Eight iterations move the high byte down and add the table entry of the low one. -/
theorem crcBits_eight (r : Half) : crcBits 8 r = (r >>> 8) ^^^ crcStep 0#16 (r.setWidth 8) := by
  have hhigh : (r.extractLsb' 8 8).setWidth 16 = r >>> 8 := by
    simp only [BitVec.toNat_eq, BitVec.toNat_setWidth, BitVec.extractLsb'_toNat, BitVec.toNat_ushiftRight,
      Nat.shiftRight_eq_div_pow]
    omega
  have hlow : r.extractLsb' 0 8 = r.setWidth 8 := (BitVec.setWidth_eq_extractLsb' (by decide)).symm
  calc crcBits 8 r
      = crcBits 8 ((r.extractLsb' 8 8 ++ 0#8) ^^^ (r.extractLsb' 0 8).setWidth 16) := by
        rw [← append_eq_xor_bytes, append_bytes]
    _ = (r >>> 8) ^^^ crcStep 0#16 (r.setWidth 8) := by
        rw [crcBits_xor, crcBits_high, hhigh, hlow, crcStep, BitVec.zero_xor]

theorem crcStep_eq_table (r : Half) (b : Byte) :
    crcStep r b = (r >>> 8) ^^^ crcStep 0#16 ((r ^^^ b.setWidth 16).setWidth 8) := by
  have hbyte : (b.setWidth 16 : Half) >>> 8 = 0#16 := by bv_omega
  rw [crcStep, crcBits_eight, BitVec.ushiftRight_xor_distrib, hbyte, BitVec.xor_zero]

/-- Settles O31: the table form, linearity, bijectivity, injectivity and, by evaluation, the listed entries. -/
theorem crcStepIsLinearAndATableLookup : Obligations.CrcStepIsLinearAndATableLookup :=
  ⟨crcStep_eq_table, crcStep_xor, crcStep_bijective, crcStep_injective, rfl, rfl, rfl, rfl, rfl⟩

/-! ### The zero residue (R117) -/

theorem crcFold_append (r : Half) (b c : List Byte) : crcFold r (b ++ c) = crcFold (crcFold r b) c :=
  List.foldl_append

/-- Two bytes enter the register as one word: eight iterations bring the second down from the high byte. -/
theorem crcFold_pair (r : Half) (x y : Byte) : crcFold r [x, y] = crcBits 16 (r ^^^ (y ++ x)) := by
  calc crcFold r [x, y]
      = crcBits 8 (crcBits 8 (r ^^^ x.setWidth 16) ^^^ crcBits 8 (y ++ 0#8)) := by
        rw [crcBits_high]
        rfl
    _ = crcBits 16 (r ^^^ x.setWidth 16 ^^^ (y ++ 0#8)) := by
        rw [← crcBits_xor]
        exact crcBits_add 8 8 _
    _ = crcBits 16 (r ^^^ (y ++ x)) := by
        rw [append_eq_xor_bytes y x, BitVec.xor_assoc, BitVec.xor_comm (x.setWidth 16)]

theorem crcFold_pair_eq_zero_iff (r : Half) (x y : Byte) :
    crcFold r [x, y] = 0#16 ↔ x = r.extractLsb' 0 8 ∧ y = r.extractLsb' 8 8 := by
  rw [crcFold_pair, crcBits_eq_zero_iff, BitVec.xor_eq_zero_iff, eq_comm, append_eq_iff_bytes]

theorem crcFold_pair_bijective (r : Half) : Function.Bijective fun p : Byte × Byte => crcFold r [p.1, p.2] := by
  have hxor : Function.Bijective fun z : Half => r ^^^ z :=
    Finite.injective_iff_bijective.1 fun _ _ => (BitVec.xor_right_inj r).1
  simp only [crcFold_pair]
  exact (crcBits_bijective 16).comp (hxor.comp append_bijective)

theorem crc16_append_pair_eq_zero_iff (b : List Byte) (x y : Byte) :
    crc16 (b ++ [x, y]) = 0#16 ↔ x = (crc16 b).extractLsb' 0 8 ∧ y = (crc16 b).extractLsb' 8 8 := by
  rw [crc16, crcFold_append]
  exact crcFold_pair_eq_zero_iff (crc16 b) x y

/-- Settles O32: a pair gives zero when, as one word, it is the register. -/
theorem checkBytesAreTheOnlyZeroResidue : Obligations.CheckBytesAreTheOnlyZeroResidue :=
  ⟨fun b => (crc16_append_pair_eq_zero_iff b _ _).2 ⟨rfl, rfl⟩,
    fun b x y => (crc16_append_pair_eq_zero_iff b x y).1, crcFold_pair_bijective⟩

/-- Fewer than two bytes leave a register other than zero (R115). -/
theorem two_le_length_of_crc16_eq_zero {bytes : List Byte} (h : crc16 bytes = 0#16) : 2 ≤ bytes.length := by
  match bytes with
  | [] => exact absurd h (by decide)
  | [x] =>
    have hzero : Config.crcInit ^^^ x.setWidth 16 = 0#16 := (crcBits_eq_zero_iff 8 _).1 h
    rw [BitVec.xor_eq_zero_iff, Config.crcInit] at hzero
    bv_omega
  | _ :: _ :: _ => simp

/-! ### `CRC.RNG` (R114) -/

/-- Settles O33: the range check decides between the fold of the range and the error; the fold's equations are its
definition's. -/
theorem crcRngFoldsItsRange : Obligations.CrcRngFoldsItsRange := by
  refine ⟨fun off len s hs => ⟨fun hvalid => ?_, fun hpast => need_fail hpast⟩, fun _ => rfl,
    fun _ _ _ => rfl, fun _ => rfl⟩
  exact (need_pass hvalid).trans (hs.readW_valid hvalid)

/-! ### `CRC.CHK` (R115) -/

theorem execCrcChk_accepts {off len : Index} {s : State} (hs : s.Inv)
    (hvalid : off.toNat + len.toNat ≤ s.wlen.toNat) (hcrc : crc16 (s.range off.toNat len.toNat) = 0#16) :
    execCrcChk off len s = .next (s.setCrc 0#16) := by
  rw [execCrcChk, need_pass hvalid, hs.readW_valid hvalid, hcrc]
  rfl

theorem execCrcChk_refuses {off len : Index} {s : State} (hs : s.Inv)
    (hvalid : off.toNat + len.toNat ≤ s.wlen.toNat) (hcrc : crc16 (s.range off.toNat len.toNat) ≠ 0#16) :
    execCrcChk off len s = .next (s.setStatus ErrCode.checksumMismatch.code 0x23#8) := by
  rw [execCrcChk, need_pass hvalid, hs.readW_valid hvalid]
  exact if_pos (mt (byteSwap_eq_zero_iff _).1 hcrc)

/-- Settles O34: the range check, then the test, which the byte swap does not change. -/
theorem crcChkAcceptsZeroResidue : Obligations.CrcChkAcceptsZeroResidue := by
  intro off len s hs
  change execCrcChk off len s = _
  split_ifs with hpast hdiff
  · exact need_fail hpast
  · exact execCrcChk_refuses hs (Nat.not_lt.1 hpast) hdiff
  · exact execCrcChk_accepts hs (Nat.not_lt.1 hpast) (not_not.1 hdiff)

/-- When `CRC.CHK` leaves no error, its range is valid and has the zero residue. -/
theorem crc16_eq_zero_of_execCrcChk {off len : Index} {s t : State} (hs : s.Inv)
    (h : exec (.crcChk off len) s = .next t) (herr : t.err = 0#8) :
    off.toNat + len.toNat ≤ s.wlen.toNat ∧ crc16 (s.range off.toNat len.toNat) = 0#16 := by
  have hnext := Host.Outcome.next.inj ((crcChkAcceptsZeroResidue off len s hs).symm.trans h)
  split_ifs at hnext with hpast hdiff
  case neg => exact ⟨Nat.not_lt.1 hpast, not_not.1 hdiff⟩
  all_goals
    subst hnext
    cases herr

theorem State.range_length {s : State} {off len : Nat} (h : off + len ≤ s.wlen.toNat) :
    (s.range off len).length = len := by
  rw [State.range_eq_readRange h, Memory.readRange_length]

/-- A range of at least two bytes, with its last two apart. -/
theorem State.range_eq_append_pair {s : State} {off len : Nat} (hlen : 2 ≤ len) (h : off + len ≤ s.wlen.toNat) :
    s.range off len =
      s.range off (len - 2) ++ [s.w.read (off + len - 2), s.w.read (off + len - 1)] := by
  obtain ⟨n, rfl⟩ := Nat.exists_eq_add_of_le' hlen
  rw [State.range_eq_readRange h, State.range_eq_readRange (by omega), Memory.readRange_add]
  rfl

/-- Settles O35: accepted is zero residue, whose last two bytes are the CRC of the body. -/
theorem crcChkIsComputeAndCompare : Obligations.CrcChkIsComputeAndCompare := by
  intro off len s hs herr hvalid
  constructor
  · intro hexec
    obtain ⟨-, hzero⟩ := crc16_eq_zero_of_execCrcChk hs hexec herr
    have hlen : 2 ≤ len.toNat := State.range_length hvalid ▸ two_le_length_of_crc16_eq_zero hzero
    rw [State.range_eq_append_pair hlen hvalid] at hzero
    exact ⟨hlen, (crc16_append_pair_eq_zero_iff _ _ _).1 hzero⟩
  · rintro ⟨hlen, hcheck⟩
    refine execCrcChk_accepts hs hvalid ?_
    rw [State.range_eq_append_pair hlen hvalid]
    exact (crc16_append_pair_eq_zero_iff _ _ _).2 hcheck

/-! ### `CRC.APP` (R116) -/

/-- What `CRC.APP` leaves (`execCrcApp_pass`): the check bytes of the CRC from `off` on appended, and that CRC. -/
def State.appendCrc (s : State) (off : Nat) : State :=
  (s.appendW (checkBytes (crc16 (s.wBytes.drop off)))).setCrc (crc16 (s.wBytes.drop off))

theorem execCrcApp_pass {off : Index} {s : State} (hs : s.Inv) (hoff : off.toNat ≤ s.wlen.toNat)
    (hroom : s.wlen.toNat + 2 ≤ s.wcap.toNat) :
    execCrcApp off s = .next (s.appendCrc off.toNat) := by
  rw [execCrcApp, need_pass hoff, room_pass hroom, hs.readW_valid (by omega), State.range_to_end]
  rfl

theorem State.appendCrc_eq (s : State) (off : Nat) :
    s.appendCrc off =
      { s with w := (s.appendCrc off).w, wlen := s.wlen + 2#24, crc := crc16 (s.wBytes.drop off) } := rfl

theorem State.Inv.appendCrc_appendsToW {s : State} (hs : s.Inv) (off : Nat)
    (hroom : s.wlen.toNat + 2 ≤ s.wcap.toNat) :
    AppendsToW s (s.appendCrc off) (checkBytes (crc16 (s.wBytes.drop off))) :=
  hs.appendW_appendsToW hroom

/-- Settles O36: the two checks in their order, then the append of the check bytes. -/
theorem crcAppAppendsTheCrc : Obligations.CrcAppAppendsTheCrc := by
  refine fun off s hs => ⟨fun hpast => need_fail hpast,
    fun hoff hfull => (need_pass hoff).trans (room_fail hfull), fun hoff hroom => ?_⟩
  exact ⟨_, execCrcApp_pass hs hoff hroom, s.appendCrc_eq off.toNat, hs.appendCrc_appendsToW _ hroom⟩

/-! ### `CRC.CHK` after `CRC.APP` (R116) -/

theorem State.Inv.appendCrc {s : State} (hs : s.Inv) (off : Nat)
    (hroom : s.wlen.toNat + 2 ≤ s.wcap.toNat) : (s.appendCrc off).Inv :=
  hs.appendW hroom

theorem State.appendCrc_wlen_toNat {s : State} (off : Nat) (hroom : s.wlen.toNat + 2 ≤ s.wcap.toNat) :
    (s.appendCrc off).wlen.toNat = s.wlen.toNat + 2 :=
  s.appendW_wlen_toNat _ hroom

/-- The frame `CRC.APP` leaves is what was checked and its check bytes. -/
theorem State.Inv.appendCrc_frame {s : State} (hs : s.Inv) {off : Nat} (hoff : off ≤ s.wlen.toNat)
    (hroom : s.wlen.toNat + 2 ≤ s.wcap.toNat) :
    (s.appendCrc off).wBytes.drop off = s.wBytes.drop off ++ checkBytes (crc16 (s.wBytes.drop off)) := by
  obtain ⟨hbytes, -⟩ := hs.appendCrc_appendsToW off hroom
  rw [hbytes, List.drop_append_of_le_length (by simpa using hoff)]

/-- Settles O37: the frame has the zero residue. -/
theorem crcChkAcceptsWhatCrcAppBuilt : Obligations.CrcChkAcceptsWhatCrcAppBuilt := by
  intro off s hs hoff hroom
  have hwlen := State.appendCrc_wlen_toNat off.toNat hroom
  have hlen : ((s.appendCrc off.toNat).wlen - off).toNat = (s.appendCrc off.toNat).wlen.toNat - off.toNat :=
    BitVec.toNat_sub_of_le (BitVec.le_def.2 (by omega))
  refine ⟨s.appendCrc off.toNat, execCrcApp_pass hs hoff hroom,
    execCrcChk_accepts (hs.appendCrc _ hroom) (by omega) ?_⟩
  rw [hlen, State.range_to_end, hs.appendCrc_frame hoff hroom]
  exact (crc16_append_pair_eq_zero_iff _ _ _).2 ⟨rfl, rfl⟩

/-! ### A change of one byte (R119) -/

theorem crcFold_injective (bytes : List Byte) : Function.Injective fun r : Half => crcFold r bytes := by
  induction bytes with
  | nil => exact Function.injective_id
  | cons b bytes ih => exact ih.comp (crcStep_bijective b).injective

/-- Another byte inside a range moves the register there, and the bytes after it cannot bring it back. -/
theorem crcFold_readRange_write_ne {m : Memory} (hm : m.wf = true) {v : Byte} {a off n : Nat}
    (hlow : off ≤ a) (hhigh : a < off + n) (hv : v ≠ m.read a) (r : Half) :
    crcFold r ((m.write a v).readRange off n) ≠ crcFold r (m.readRange off n) := by
  induction n generalizing off r with
  | zero => omega
  | succ n ih =>
    rcases Nat.eq_or_lt_of_le hlow with rfl | hlt
    · have htail : (m.write off v).readRange (off + 1) n = m.readRange (off + 1) n :=
        Memory.readRange_writeRange_apart m off (off + 1) n [v] (.inr (Nat.le_refl _))
      rw [Memory.readRange, Memory.readRange, htail, Memory.read_write_self hm]
      have hmoved : crcStep r v ≠ crcStep r (m.read off) := (crcStep_injective r).ne hv
      exact (crcFold_injective (m.readRange (off + 1) n)).ne hmoved
    · rw [Memory.readRange, Memory.readRange, Memory.read_write_of_ne m v (Nat.ne_of_lt hlt)]
      exact ih hlt (by omega) _

/-- Settles O38: the range that `CRC.CHK` accepted has the zero residue, so after the change it has another. -/
theorem crcChkDetectsEveryOneByteChange : Obligations.CrcChkDetectsEveryOneByteChange := by
  intro off len s t a v hs _ hexec hnoError hlow hhigh hv
  obtain ⟨hvalid, hzero⟩ := crc16_eq_zero_of_execCrcChk hs hexec hnoError
  have hcap := hs.wlen_le
  have hmoved : crc16 ((s.setW (s.w.write a v)).range off.toNat len.toNat) ≠ 0#16 := by
    rw [← hzero, State.range_eq_readRange (s := s.setW (s.w.write a v)) hvalid,
      State.range_eq_readRange (s := s) hvalid]
    exact crcFold_readRange_write_ne hs.w_wf hlow hhigh hv _
  exact execCrcChk_refuses (hs.writeW (by omega) v) hvalid hmoved

end Sys2Proof.Machine
end

section
/-! The AES algorithm (43_aes_cipher.md R132 to R138): every step of `Cipher` has its inverse, so `InvCipher`
undoes the rounds one by one and `Cipher` undoes those of `InvCipher`; and the steps, the key schedule and the
rounds meet the spec's rules for them. -/

namespace Sys2Proof.Machine

/-! ### Exclusive-or of bytes -/

theorem byteXor_left_comm (a b c : Byte) : a ^^^ (b ^^^ c) = b ^^^ (a ^^^ c) := by ac_rfl

theorem byteXor_cancel_left (a b : Byte) : a ^^^ (a ^^^ b) = b := by
  rw [← BitVec.xor_assoc, BitVec.xor_self, BitVec.zero_xor]

/-! ### Field arithmetic (R148) -/

theorem xtime_eq_xor (a : Byte) :
    xtime a = (a <<< 1) ^^^ (if a.getLsbD 7 = true then 0x1B#8 else 0#8) := by
  unfold xtime
  split
  · rfl
  · exact BitVec.xor_zero.symm

theorem xtime_xor (a b : Byte) : xtime (a ^^^ b) = xtime a ^^^ xtime b := by
  have hreduce (p q : Bool) : (if (p ^^ q) = true then 0x1B#8 else 0#8) =
      (if p = true then 0x1B#8 else 0#8) ^^^ (if q = true then 0x1B#8 else 0#8) := by
    cases p <;> cases q <;> rfl
  simp only [xtime_eq_xor, BitVec.shiftLeft_xor_distrib, BitVec.getLsbD_xor, hreduce]
  ac_rfl

/-! The products with the factors of R136, as sums of iterates of `xtime`. -/

theorem gfMul_two (a : Byte) : gfMul a 2#8 = xtime a := by
  simp [gfMul, gfSum, xtimes]

theorem gfMul_three (a : Byte) : gfMul a 3#8 = a ^^^ xtime a := by
  simp [gfMul, gfSum, xtimes]

theorem gfMul_nine (a : Byte) : gfMul a 9#8 = a ^^^ xtime (xtime (xtime a)) := by
  simp [gfMul, gfSum, xtimes]

theorem gfMul_eleven (a : Byte) : gfMul a 11#8 = a ^^^ xtime a ^^^ xtime (xtime (xtime a)) := by
  simp [gfMul, gfSum, xtimes]

theorem gfMul_thirteen (a : Byte) : gfMul a 13#8 = a ^^^ xtime (xtime a) ^^^ xtime (xtime (xtime a)) := by
  simp [gfMul, gfSum, xtimes]

theorem gfMul_fourteen (a : Byte) :
    gfMul a 14#8 = xtime a ^^^ xtime (xtime a) ^^^ xtime (xtime (xtime a)) := by
  simp [gfMul, gfSum, xtimes]

/-! ### The column mix (R136)

A column is a polynomial modulo `y^4 + 1`, and the mix multiplies it by `p = 3y^3 + y^2 + y + 2`. In characteristic
2 its square has only the terms 5 and `4y^2`, and its fourth power is 1. So mixing twice is `mixTwice`, mixing four
times is the identity, and the inverse mix is the mix after `mixTwice`. -/

/-- One byte of the mixed column, of the bytes of the column from its own place on around. -/
def mixByte (a b c d : Byte) : Byte := xtime a ^^^ (xtime b ^^^ b) ^^^ c ^^^ d

/-- One byte of the column mixed twice, `5 • a ^ 4 • c`, of the byte in its own place and the opposite one. -/
def mixTwiceByte (a c : Byte) : Byte := xtime (xtime (a ^^^ c)) ^^^ a

/-- The column mix applied twice (`mixColumn_mixColumn`). -/
def mixTwice (w : AesWord) : AesWord where
  a0 := mixTwiceByte w.a0 w.a2
  a1 := mixTwiceByte w.a1 w.a3
  a2 := mixTwiceByte w.a2 w.a0
  a3 := mixTwiceByte w.a3 w.a1

theorem mixByte_mixByte (a b c d : Byte) :
    mixByte (mixByte a b c d) (mixByte b c d a) (mixByte c d a b) (mixByte d a b c) = mixTwiceByte a c := by
  simp only [mixByte, mixTwiceByte, xtime_xor, BitVec.xor_assoc, BitVec.xor_comm, byteXor_left_comm,
    byteXor_cancel_left]

theorem mixTwiceByte_mixTwiceByte (a c : Byte) :
    mixTwiceByte (mixTwiceByte a c) (mixTwiceByte c a) = a := by
  simp only [mixTwiceByte, xtime_xor, BitVec.xor_assoc, BitVec.xor_comm, byteXor_left_comm, BitVec.xor_self,
    BitVec.xor_zero]

theorem mixByte_mixTwiceByte (a b c d : Byte) :
    mixByte (mixTwiceByte a c) (mixTwiceByte b d) (mixTwiceByte c a) (mixTwiceByte d b) =
      gfMul a 14#8 ^^^ gfMul b 11#8 ^^^ gfMul c 13#8 ^^^ gfMul d 9#8 := by
  simp only [mixByte, mixTwiceByte, gfMul_nine, gfMul_eleven, gfMul_thirteen, gfMul_fourteen, xtime_xor,
    BitVec.xor_assoc, BitVec.xor_comm, byteXor_left_comm, byteXor_cancel_left]

theorem mixColumn_eq (w : AesWord) :
    mixColumn w = AesWord.mk (mixByte w.a0 w.a1 w.a2 w.a3) (mixByte w.a1 w.a2 w.a3 w.a0)
      (mixByte w.a2 w.a3 w.a0 w.a1) (mixByte w.a3 w.a0 w.a1 w.a2) := by
  simp only [mixColumn, gfMul_two, gfMul_three, mixByte, AesWord.mk.injEq]
  exact ⟨by ac_rfl, by ac_rfl, by ac_rfl, by ac_rfl⟩

theorem mixColumn_mixColumn (w : AesWord) : mixColumn (mixColumn w) = mixTwice w := by
  simp only [mixColumn_eq, mixByte_mixByte, mixTwice]

theorem mixTwice_mixTwice (w : AesWord) : mixTwice (mixTwice w) = w := by
  simp only [mixTwice, mixTwiceByte_mixTwiceByte]

theorem invMixColumn_eq (w : AesWord) : invMixColumn w = mixColumn (mixTwice w) := by
  simp only [invMixColumn, mixColumn_eq, mixTwice, mixByte_mixTwiceByte, AesWord.mk.injEq]
  exact ⟨trivial, by ac_rfl, by ac_rfl, by ac_rfl⟩

theorem invMixColumn_mixColumn (w : AesWord) : invMixColumn (mixColumn w) = w := by
  rw [invMixColumn_eq, ← mixColumn_mixColumn, mixColumn_mixColumn, mixColumn_mixColumn, mixTwice_mixTwice]

theorem mixColumn_invMixColumn (w : AesWord) : mixColumn (invMixColumn w) = w := by
  rw [invMixColumn_eq, mixColumn_mixColumn, mixTwice_mixTwice]

/-! ### The S-box (R134, R135) -/

/-- The affine map of R134, which the S-box applies to the inverse of its argument. -/
def sboxAffine (b : Byte) : Byte :=
  b ^^^ b.rotateLeft 1 ^^^ b.rotateLeft 2 ^^^ b.rotateLeft 3 ^^^ b.rotateLeft 4 ^^^ 0x63#8

theorem isbox_sbox : Function.LeftInverse isbox sbox := fun a => by
  decide +revert +kernel

/-- A left inverse on a finite type is a right inverse. -/
theorem sbox_isbox : Function.RightInverse isbox sbox :=
  isbox_sbox.rightInverse_of_surjective (Finite.injective_iff_surjective.1 isbox_sbox.injective)

/-- The byte that the S-box takes to the affine image of `b` is the field inverse of `b`. -/
theorem isbox_sboxAffine (b : Byte) :
    (isbox (sboxAffine b) = 0#8 ∧ b = 0#8) ∨ gfMul (isbox (sboxAffine b)) b = 1#8 := by
  decide +revert +kernel

/-! ### Each round transformation and its inverse (R136, R138) -/

@[simp] theorem invSubBytes_subBytes (s : AesState) : invSubBytes (subBytes s) = s := by
  simp only [invSubBytes, subBytes, mapColumns, mapWord, isbox_sbox _]

@[simp] theorem subBytes_invSubBytes (s : AesState) : subBytes (invSubBytes s) = s := by
  simp only [invSubBytes, subBytes, mapColumns, mapWord, sbox_isbox _]

@[simp] theorem invShiftRows_shiftRows (s : AesState) : invShiftRows (shiftRows s) = s := rfl

@[simp] theorem shiftRows_invShiftRows (s : AesState) : shiftRows (invShiftRows s) = s := rfl

@[simp] theorem invMixColumns_mixColumns (s : AesState) : invMixColumns (mixColumns s) = s := by
  simp only [invMixColumns, mixColumns, mapColumns, invMixColumn_mixColumn]

@[simp] theorem mixColumns_invMixColumns (s : AesState) : mixColumns (invMixColumns s) = s := by
  simp only [invMixColumns, mixColumns, mapColumns, mixColumn_invMixColumn]

@[simp] theorem addRoundKey_addRoundKey (rk s : AesState) : addRoundKey rk (addRoundKey rk s) = s := by
  simp only [addRoundKey, xorWord, BitVec.xor_assoc, BitVec.xor_self, BitVec.xor_zero]

/-! ### The rounds (R137, R138)

`ShiftRows` and `SubBytes` stand at the start of a round of `Cipher`, and their inverses at the start of one of
`InvCipher`; so a round of the one undoes a round of the other between those two. -/

theorem decRound_encRound (ws : List AesWord) (r : Nat) (s : AesState) :
    decRound ws r (shiftRows (subBytes (encRound ws r s))) = shiftRows (subBytes s) := by
  simp [decRound, encRound]

theorem encRound_decRound (ws : List AesWord) (r : Nat) (s : AesState) :
    encRound ws r (invSubBytes (invShiftRows (decRound ws r s))) = invSubBytes (invShiftRows s) := by
  simp [decRound, encRound]

theorem decRounds_encRounds (ws : List AesWord) (n : Nat) (s : AesState) :
    decRounds ws n (shiftRows (subBytes (encRounds ws n s))) = shiftRows (subBytes s) := by
  induction n with
  | zero => rfl
  | succ n ih => rw [encRounds, decRounds, decRound_encRound, ih]

theorem encRounds_decRounds (ws : List AesWord) (n : Nat) (s : AesState) :
    encRounds ws n (invSubBytes (invShiftRows (decRounds ws n s))) = invSubBytes (invShiftRows s) := by
  induction n generalizing s with
  | zero => rfl
  | succ n ih => rw [encRounds, decRounds, ih, encRound_decRound]

theorem invCipherState_cipherState (ws : List AesWord) (nr : Nat) (s : AesState) :
    invCipherState ws nr (cipherState ws nr s) = s := by
  simp [invCipherState, cipherState, decRounds_encRounds]

theorem cipherState_invCipherState (ws : List AesWord) (nr : Nat) (s : AesState) :
    cipherState ws nr (invCipherState ws nr s) = s := by
  simp [invCipherState, cipherState, encRounds_decRounds]

theorem stateOfBytes_bytesOfState (s : AesState) : stateOfBytes (bytesOfState s) = s := rfl

theorem bytesOfState_stateOfBytes {block : List Byte} (h : block.length = 16) :
    bytesOfState (stateOfBytes block) = block := by
  match block, h with
  | [_, _, _, _, _, _, _, _, _, _, _, _, _, _, _, _], _ => rfl

theorem invCipher_cipher (key : List Byte) {block : List Byte} (h : block.length = 16) :
    invCipher key (cipher key block) = block := by
  rw [invCipher, cipher, stateOfBytes_bytesOfState, invCipherState_cipherState, bytesOfState_stateOfBytes h]

theorem cipher_invCipher (key : List Byte) {block : List Byte} (h : block.length = 16) :
    cipher key (invCipher key block) = block := by
  rw [invCipher, cipher, stateOfBytes_bytesOfState, cipherState_invCipherState, bytesOfState_stateOfBytes h]

/-! ### The rule of the transformations (R132, R134, R136) -/

/-- With the mix in the form of `mixByte`, each of the 16 places holds its formula by computation. -/
theorem roundTransformationsRule : RoundTransformationsRule := by
  refine ⟨fun block h => bytesOfState_stateOfBytes h,
    fun b => ⟨isbox (sboxAffine b), isbox_sboxAffine b, sbox_isbox (sboxAffine b)⟩, fun s rk r c hr hc => ?_⟩
  rw [mixColumns, funext mixColumn_eq]
  interval_cases r <;> interval_cases c <;> exact ⟨rfl, rfl, rfl, rfl⟩

/-! ### The key schedule (R133, R135) -/

theorem keyPrefix_eq_map (key : List Byte) (i n : Nat) :
    keyPrefix key i n = (List.range' i n).map (wordAt key) := by
  induction n generalizing i with
  | zero => rfl
  | succ n ih => rw [keyPrefix, ih, List.range'_succ, List.map_cons]

@[simp] theorem keyPrefix_length (key : List Byte) (i n : Nat) : (keyPrefix key i n).length = n := by
  simp [keyPrefix_eq_map]

theorem keyPrefix_getD {key : List Byte} {n i : Nat} (hi : i < n) :
    (keyPrefix key 0 n).getD i zeroWord = wordAt key i := by
  rw [List.getD_eq_getElem _ _ (by simpa using hi)]
  simp [keyPrefix_eq_map]

/-- `ws` meets the recurrence of R133 at each of its indices from `nk` on. -/
def Scheduled (nk : Nat) (ws : List AesWord) : Prop :=
  ∀ i, nk ≤ i → i < ws.length → ws.getD i zeroWord =
    xorWord (ws.getD (i - nk) zeroWord) (scheduleTemp nk i (ws.getD (i - 1) zeroWord))

/-- The word that the recurrence puts after `ws`. -/
def nextWord (nk : Nat) (ws : List AesWord) : AesWord :=
  xorWord (ws.getD (ws.length - nk) zeroWord) (scheduleTemp nk ws.length (ws.getD (ws.length - 1) zeroWord))

theorem Scheduled.append_nextWord {nk : Nat} {ws : List AesWord} (h : Scheduled nk ws) (hnk : 0 < nk) :
    Scheduled nk (ws ++ [nextWord nk ws]) := by
  have hold {j : Nat} (hj : j < ws.length) :
      (ws ++ [nextWord nk ws]).getD j zeroWord = ws.getD j zeroWord :=
    List.getD_append _ _ _ _ hj
  intro i hi hlt
  rw [List.length_append, List.length_singleton] at hlt
  rw [hold (by omega : i - nk < _), hold (by omega : i - 1 < _)]
  rcases Nat.lt_or_ge i ws.length with hin | hend
  · rw [hold hin, h i hi hin]
  · obtain rfl : i = ws.length := by omega
    simp [nextWord]

/-- `expandFrom` holds its words newest first: one step of it appends `nextWord` to the words in index order. -/
theorem expandFrom_step {nk n : Nat} {ws : List AesWord} (hnk : 0 < nk) (hlen : nk ≤ ws.length) :
    expandFrom nk (n + 1) ws.length ws.reverse =
      expandFrom nk n (ws ++ [nextWord nk ws]).length (ws ++ [nextWord nk ws]).reverse := by
  have hback {j : Nat} (hj : j < ws.length) :
      ws.reverse.getD j zeroWord = ws.getD (ws.length - 1 - j) zeroWord := by
    rw [List.getD_reverse _ hj]
  have hindex : ws.length - 1 - (nk - 1) = ws.length - nk := by omega
  rw [expandFrom, hback (by omega), hback (by omega), hindex]
  simp [nextWord]

/-- The expansion extends a scheduled list by `n` words to a scheduled list. -/
theorem expandFrom_extends {nk : Nat} (n : Nat) {ws : List AesWord} (hnk : 0 < nk) (hlen : nk ≤ ws.length)
    (h : Scheduled nk ws) :
    Scheduled nk (expandFrom nk n ws.length ws.reverse).reverse ∧
      (expandFrom nk n ws.length ws.reverse).reverse.length = ws.length + n ∧
      ws <+: (expandFrom nk n ws.length ws.reverse).reverse := by
  induction n generalizing ws with
  | zero => simpa [expandFrom] using h
  | succ n ih =>
    have hlonger : nk ≤ (ws ++ [nextWord nk ws]).length := by simp; omega
    obtain ⟨hsched, hlength, hpre⟩ := ih hlonger (h.append_nextWord hnk)
    rw [expandFrom_step hnk hlen]
    refine ⟨hsched, ?_, List.IsPrefix.trans ⟨[nextWord nk ws], rfl⟩ hpre⟩
    rw [hlength, List.length_append, List.length_singleton]
    omega

theorem expandKey_extends {key : List Byte} (hkey : 0 < keyWords key) :
    Scheduled (keyWords key) (expandKey key) ∧ (expandKey key).length = 4 * (keyWords key + 7) ∧
      keyPrefix key 0 (keyWords key) <+: expandKey key := by
  have hlen := keyPrefix_length key 0 (keyWords key)
  have hstart : Scheduled (keyWords key) (keyPrefix key 0 (keyWords key)) :=
    fun i hlow hhigh => absurd hhigh (by omega)
  have hgrown := expandFrom_extends (4 * (roundCount key + 1) - keyWords key) hkey hlen.ge hstart
  rw [hlen] at hgrown
  obtain ⟨hsched, hlength, hpre⟩ := hgrown
  refine ⟨hsched, hlength.trans ?_, hpre⟩
  rw [roundCount]
  omega

/-- R135: the ten round constants an expansion uses. -/
theorem roundConst_eq_getD {j : Nat} (hlow : 1 ≤ j) (hhigh : j ≤ 10) :
    roundConst j = [0x01#8, 0x02#8, 0x04#8, 0x08#8, 0x10#8, 0x20#8, 0x40#8, 0x80#8, 0x1B#8,
      0x36#8].getD (j - 1) 0#8 := by
  interval_cases j <;> rfl

theorem xorWord_rcon (w : AesWord) (j : Nat) :
    xorWord w (rcon j) = AesWord.mk (w.a0 ^^^ roundConst j) w.a1 w.a2 w.a3 := by
  simp only [xorWord, rcon, BitVec.xor_zero]

theorem keyScheduleRule_expandKey {key : List Byte} (hkey : key.length = 16 ∨ key.length = 32) :
    KeyScheduleRule key (expandKey key) := by
  intro nk hnk
  replace hnk : nk = keyWords key := hnk
  have hfour : nk = 4 ∨ nk = 8 := by rw [hnk, keyWords]; omega
  obtain ⟨hsched, hlength, rest, hrest⟩ := expandKey_extends (key := key) (by omega)
  rw [← hnk] at hsched hlength hrest
  refine ⟨hlength, fun i hi => ?keyWord, fun i p hlow hhigh hp => ?recurrence⟩
  case keyWord =>
    rw [← hrest, List.getD_append _ _ _ _ (by simpa using hi), keyPrefix_getD hi]
    rfl
  case recurrence =>
    have hround : 1 ≤ i / nk := Nat.div_pos hlow (by omega)
    have hlast : i / nk ≤ 10 := by rcases hfour with rfl | rfl <;> omega
    rw [hsched i hlow (by omega), ← hp, scheduleTemp, xorWord_rcon, roundConst_eq_getD hround hlast]
    rfl

/-! ### The rule of the rounds (R137), and the algorithm as a whole -/

theorem roundsRule_cipher (key block : List Byte) :
    RoundsRule (expandKey key) (key.length / 4 + 6) block (cipher key block) :=
  ⟨fun r => encRounds (expandKey key) r (addRoundKey (roundKey (expandKey key) 0) (stateOfBytes block)),
    roundKey (expandKey key), fun _ => rfl, rfl, fun _ _ => rfl, rfl⟩

/-- Settles O40: the two inversions, the three rules, and the worked values by evaluation. -/
theorem decryptionInvertsEncryption : Obligations.DecryptionInvertsEncryption := by
  refine ⟨fun key block _ hblock => ⟨invCipher_cipher key hblock, cipher_invCipher key hblock⟩,
    roundTransformationsRule,
    fun key hkey => ⟨keyScheduleRule_expandKey hkey, fun block _ => roundsRule_cipher key block⟩, ?_⟩
  rintro k128 k256 plain rfl rfl rfl
  decide +kernel

end Sys2Proof.Machine
end

section
/-! The operations of the cipher unit (43_aes_cipher.md R130, R131, R139 to R147). Encryption and decryption are one
operation of the opcode and of the block function, so each fact about the pair is proved once. -/

namespace Sys2Proof.Machine

/-! ### The one-block operations (R143, R144) -/

/-- `AES.ENCB` and `AES.DECB` (`exec_aesEncb`, `exec_aesDecb`), of their opcode and their block function under a key. -/
def execBlock (op : Byte) (f : List Byte → List Byte → List Byte) (off : Index) (s : State) : Out :=
  keyOk op s <|
  need op off.toNat 16 s <|
  readW off.toNat 16 s fun block =>
  .next (s.putW off.toNat (f s.kBytes block))

theorem exec_aesEncb (off : Index) (s : State) : exec (.aesEncb off) s = execBlock 0x30#8 cipher off s := rfl

theorem exec_aesDecb (off : Index) (s : State) : exec (.aesDecb off) s = execBlock 0x31#8 invCipher off s := rfl

section Block
variable {op : Byte} {f : List Byte → List Byte → List Byte} {off : Index} {s : State}

theorem execBlock_badKey (hkey : s.klen.toNat ≠ 16 ∧ s.klen.toNat ≠ 32) :
    execBlock op f off s = .next (s.setStatus ErrCode.cipherLengthInvalid.code op) := keyOk_fail hkey

theorem execBlock_past (hkey : s.klen.toNat = 16 ∨ s.klen.toNat = 32) (hpast : s.wlen.toNat < off.toNat + 16) :
    execBlock op f off s = .next (s.setStatus ErrCode.bufferUnderrun.code op) :=
  (keyOk_pass hkey).trans (need_fail hpast)

theorem execBlock_replaces (hf : ∀ key block, (f key block).length = 16) (hs : s.Inv)
    (hkey : s.klen.toNat = 16 ∨ s.klen.toNat = 32) (hvalid : off.toNat + 16 ≤ s.wlen.toNat) :
    ∃ t, execBlock op f off s = .next t ∧ t = { s with w := t.w } ∧
      t.range off.toNat 16 = f s.kBytes (s.range off.toNat 16) ∧ StoresOnlyIn s t off.toNat 16 := by
  have hlen := hf s.kBytes (s.range off.toNat 16)
  have hback := Memory.readRange_writeRange_self hs.w_wf off.toNat (f s.kBytes (s.range off.toNat 16))
  rw [hlen] at hback
  refine ⟨s.putW off.toNat (f s.kBytes (s.range off.toNat 16)), ?_, s.putW_eq _ _, ?_, fun b hb => ?_⟩
  · rw [execBlock, keyOk_pass hkey, need_pass hvalid, hs.readW_valid hvalid]
  · exact (State.range_eq_readRange (s := s.putW _ _) hvalid).trans hback
  · exact Memory.read_writeRange_of_outside s.w _ b _ (by rwa [hlen])

end Block

/-- Settles O41: the two checks in their order, then the block put back where it was read. -/
theorem blockOperationsReplaceOneBlock : Obligations.BlockOperationsReplaceOneBlock := by
  intro off s hs
  rw [exec_aesEncb, exec_aesDecb]
  exact ⟨fun hkey => ⟨execBlock_badKey hkey, execBlock_badKey hkey⟩,
    fun hkey hpast => ⟨execBlock_past hkey hpast, execBlock_past hkey hpast⟩,
    fun hkey hvalid => ⟨execBlock_replaces cipher_length hs hkey hvalid,
      execBlock_replaces invCipher_length hs hkey hvalid⟩⟩

/-! ### The block loop -/

theorem Memory.read_eq_of_readRange_eq {m m' : Memory} {a n b : Nat} (h : m'.readRange a n = m.readRange a n)
    (hlow : a ≤ b) (hhigh : b < a + n) : m'.read b = m.read b := by
  obtain ⟨i, rfl⟩ := Nat.exists_eq_add_of_le hlow
  have hi : i < n := by omega
  have hbyte := congrArg (·[i]?) h
  simpa [List.getElem?_eq_getElem, Memory.readRange_getElem, hi] using hbyte

section BlockLoop
variable {f g : List Byte → List Byte} (hf : ∀ b, (f b).length = 16) {a len : Nat} {s : State}
include hf

theorem State.Inv.mapBlocksW_range (hs : s.Inv) (hvalid : a + len ≤ s.wlen.toNat) {j : Nat} (hj : j < len / 16) :
    (s.mapBlocksW f a len).range (a + 16 * j) 16 = f (s.range (a + 16 * j) 16) := by
  have hblock : a + 16 * j + 16 ≤ s.wlen.toNat := by omega
  rw [State.range_eq_readRange (s := s.mapBlocksW f a len) hblock, State.range_eq_readRange hblock]
  exact mapBlocks_block f hf a _ j hs.w_wf hj

theorem State.mapBlocksW_storesOnlyIn : StoresOnlyIn s (s.mapBlocksW f a len) a len :=
  fun b hb => mapBlocks_read_outside f hf a (len / 16) b s.w (by omega)

/-- A block loop undoes another when its block function undoes the other's: outside the blocks neither stores, and
an index inside lies in block `(b - a) / 16`. -/
theorem mapBlocks_mapBlocks (hg : ∀ b, (g b).length = 16) (hgf : ∀ b, b.length = 16 → g (f b) = b)
    (a n : Nat) {m : Memory} (hm : m.wf = true) : mapBlocks g a n (mapBlocks f a n m) = m := by
  have hm' := mapBlocks_wf f a n hm
  refine Memory.eq_of_read_eq (mapBlocks_wf g a n hm') hm fun b => ?_
  by_cases hb : b < a ∨ a + 16 * n ≤ b
  · rw [mapBlocks_read_outside g hg a n b _ hb, mapBlocks_read_outside f hf a n b _ hb]
  · have hj : (b - a) / 16 < n := by omega
    have hblock : (mapBlocks g a n (mapBlocks f a n m)).readRange (a + 16 * ((b - a) / 16)) 16 =
        m.readRange (a + 16 * ((b - a) / 16)) 16 := by
      rw [mapBlocks_block g hg a n _ hm' hj, mapBlocks_block f hf a n _ hm hj,
        hgf _ (Memory.readRange_length _ _ _)]
    exact Memory.read_eq_of_readRange_eq hblock (by omega) (by omega)

end BlockLoop

/-! ### The range operations (R145, R146) -/

/-- `AES.ENC` and `AES.DEC` (`exec_aesEnc`, `exec_aesDec`), of their opcode and their block function under a key. -/
def execBlocks (op : Byte) (f : List Byte → List Byte → List Byte) (off len : Index) (s : State) : Out :=
  keyOk op s <|
  wholeBlocks op len.toNat s <|
  need op off.toNat len.toNat s <|
  accessW off.toNat len.toNat s <|
  .next (s.mapBlocksW (f s.kBytes) off.toNat len.toNat)

theorem exec_aesEnc (off len : Index) (s : State) :
    exec (.aesEnc off len) s = execBlocks 0x32#8 cipher off len s := rfl

theorem exec_aesDec (off len : Index) (s : State) :
    exec (.aesDec off len) s = execBlocks 0x33#8 invCipher off len s := rfl

/-- The checks of key and length raise one error, so that it does not show which of them failed. -/
theorem keyOk_wholeBlocks_fail {op : Byte} {len : Nat} {s : State} {rest : Out}
    (h : (s.klen.toNat ≠ 16 ∧ s.klen.toNat ≠ 32) ∨ len % 16 ≠ 0) :
    keyOk op s (wholeBlocks op len s rest) = .next (s.setStatus ErrCode.cipherLengthInvalid.code op) := by
  by_cases hkey : s.klen.toNat = 16 ∨ s.klen.toNat = 32
  · rw [keyOk_pass hkey, wholeBlocks_fail (by omega)]
  · exact keyOk_fail (by omega)

section Blocks
variable {op op' : Byte} {f g : List Byte → List Byte → List Byte} {off len : Index} {s : State}

theorem execBlocks_badLength (h : (s.klen.toNat ≠ 16 ∧ s.klen.toNat ≠ 32) ∨ len.toNat % 16 ≠ 0) :
    execBlocks op f off len s = .next (s.setStatus ErrCode.cipherLengthInvalid.code op) :=
  keyOk_wholeBlocks_fail h

variable (hkey : s.klen.toNat = 16 ∨ s.klen.toNat = 32) (hblocks : len.toNat % 16 = 0)
include hkey hblocks

theorem execBlocks_past (hpast : s.wlen.toNat < off.toNat + len.toNat) :
    execBlocks op f off len s = .next (s.setStatus ErrCode.bufferUnderrun.code op) := by
  rw [execBlocks, keyOk_pass hkey, wholeBlocks_pass hblocks, need_fail hpast]

theorem execBlocks_valid (hs : s.Inv) (hvalid : off.toNat + len.toNat ≤ s.wlen.toNat) :
    execBlocks op f off len s = .next (s.mapBlocksW (f s.kBytes) off.toNat len.toNat) := by
  rw [execBlocks, keyOk_pass hkey, wholeBlocks_pass hblocks, need_pass hvalid,
    accessW_pass (hvalid.trans hs.wlen_le)]

theorem execBlocks_replaces (hf : ∀ key block, (f key block).length = 16) (hs : s.Inv)
    (hvalid : off.toNat + len.toNat ≤ s.wlen.toNat) :
    ∃ t, execBlocks op f off len s = .next t ∧ t = { s with w := t.w } ∧
      (∀ j, j < len.toNat / 16 →
        t.range (off.toNat + 16 * j) 16 = f s.kBytes (s.range (off.toNat + 16 * j) 16)) ∧
      StoresOnlyIn s t off.toNat len.toNat :=
  ⟨_, execBlocks_valid hkey hblocks hs hvalid, rfl, fun _ hj => hs.mapBlocksW_range (hf s.kBytes) hvalid hj,
    State.mapBlocksW_storesOnlyIn (hf s.kBytes)⟩

/-- The second operation sees the lengths and the key of the first state, and its loop undoes the first one's. -/
theorem execBlocks_execBlocks (hf : ∀ key block, (f key block).length = 16)
    (hg : ∀ key block, (g key block).length = 16)
    (hgf : ∀ key block, block.length = 16 → g key (f key block) = block)
    (hs : s.Inv) (hvalid : off.toNat + len.toNat ≤ s.wlen.toNat) :
    ∃ t, execBlocks op f off len s = .next t ∧ execBlocks op' g off len t = .next s := by
  have hundo : mapBlocks (g s.kBytes) off.toNat (len.toNat / 16)
      (mapBlocks (f s.kBytes) off.toNat (len.toNat / 16) s.w) = s.w :=
    mapBlocks_mapBlocks (hf s.kBytes) (hg s.kBytes) (hgf s.kBytes) _ _ hs.w_wf
  refine ⟨_, execBlocks_valid hkey hblocks hs hvalid, ?_⟩
  refine (execBlocks_valid (s := s.mapBlocksW _ _ _) hkey hblocks (hs.mapBlocksW (hf s.kBytes) hvalid) hvalid).trans ?_
  exact congrArg (fun m => Host.Outcome.next (s.setW m)) hundo

end Blocks

/-- Settles O42: the three checks in their order, then the block loop. -/
theorem rangeOperationsReplaceEachBlock : Obligations.RangeOperationsReplaceEachBlock := by
  intro off len s hs
  rw [exec_aesEnc, exec_aesDec]
  exact ⟨fun hbad => ⟨execBlocks_badLength hbad, execBlocks_badLength hbad⟩,
    fun hkey hblocks hpast => ⟨execBlocks_past hkey hblocks hpast, execBlocks_past hkey hblocks hpast⟩,
    fun hkey hblocks hvalid => ⟨execBlocks_replaces hkey hblocks cipher_length hs hvalid,
      execBlocks_replaces hkey hblocks invCipher_length hs hvalid⟩⟩

/-- Settles O43: the block functions undo each other, and so do the operations. -/
theorem rangeDecryptionRestoresTheState : Obligations.RangeDecryptionRestoresTheState := by
  intro off len s hs hkey hblocks hvalid
  simp only [exec_aesEnc, exec_aesDec]
  exact ⟨execBlocks_execBlocks hkey hblocks cipher_length invCipher_length (fun key _ => invCipher_cipher key)
      hs hvalid,
    execBlocks_execBlocks hkey hblocks invCipher_length cipher_length (fun key _ => cipher_invCipher key)
      hs hvalid⟩

/-! ### `AES.PAD` (R139) -/

theorem padLength_eq (n : Nat) : padLength n = 16 - n % 16 := rfl

theorem padLength_le (n : Nat) : padLength n ≤ 16 := Nat.sub_le 16 _

theorem padBytes_padLength_length (n : Nat) : (padBytes (padLength n)).length = padLength n :=
  padBytes_length (padLength_pos n)

/-- What `AES.PAD` leaves (`execAesPad_pass`): the pad of the bytes from `off` on appended. -/
def State.appendPad (s : State) (off : Nat) : State := s.appendW (padBytes (padLength (s.wlen.toNat - off)))

/-- The padding changes `W` and `WLEN` alone. -/
theorem State.appendPad_eq (s : State) (off : Nat) :
    s.appendPad off =
      { s with
        w := (s.appendPad off).w
        wlen := s.wlen + BitVec.ofNat 24 (padLength (s.wlen.toNat - off)) } := by
  rw [State.appendPad, State.appendW_eq, padBytes_padLength_length]

theorem execAesPad_pass {off : Index} {s : State} (hoff : off.toNat ≤ s.wlen.toNat)
    (hroom : s.wlen.toNat + padLength (s.wlen.toNat - off.toNat) ≤ s.wcap.toNat) :
    execAesPad off s = .next (s.appendPad off.toNat) :=
  (need_pass hoff).trans (room_pass hroom)

section Padded
variable {s : State} {off : Nat} (hroom : s.wlen.toNat + padLength (s.wlen.toNat - off) ≤ s.wcap.toNat)
include hroom

theorem State.appendPad_fits :
    s.wlen.toNat + (padBytes (padLength (s.wlen.toNat - off))).length ≤ s.wcap.toNat := by
  rwa [padBytes_padLength_length]

theorem State.appendPad_wlen_toNat :
    (s.appendPad off).wlen.toNat = s.wlen.toNat + padLength (s.wlen.toNat - off) := by
  rw [State.appendPad, State.appendW_wlen_toNat s _ (State.appendPad_fits hroom), padBytes_padLength_length]

theorem State.Inv.appendPad (hs : s.Inv) : (s.appendPad off).Inv := hs.appendW (State.appendPad_fits hroom)

end Padded

/-- Settles O44: the two checks in their order, then the append of the pad. -/
theorem padAppendsZerosAndTheCount : Obligations.PadAppendsZerosAndTheCount := by
  refine fun off s hs => ⟨fun hpast => need_fail hpast, ?_⟩
  rintro hoff k rfl
  rw [← padLength_eq]
  refine ⟨fun hfull => (need_pass hoff).trans (room_fail hfull), fun hroom => ?_⟩
  refine ⟨s.appendPad off.toNat, execAesPad_pass hoff hroom, s.appendPad_eq off.toNat,
    hs.appendW_appendsToW (State.appendPad_fits hroom), ?_⟩
  rw [State.appendPad_wlen_toNat hroom, padLength_eq]
  omega

/-! ### `AES.UNPAD` (R140) -/

/-- On data of at least one byte only the test of the last one is left of `AES.UNPAD`. -/
theorem execAesUnpad_nonempty {off : Index} {s : State} (hs : s.Inv) (hoff : off.toNat < s.wlen.toNat) :
    execAesUnpad off s =
      if s.wlen.toNat - off.toNat ≤ (s.w.read (s.wlen.toNat - 1)).toNat
      then .next (s.setStatus ErrCode.paddingInvalid.code 0x35#8)
      else .next (s.setWlen (BitVec.ofNat 24 (s.wlen.toNat - (s.w.read (s.wlen.toNat - 1)).toNat))) := by
  have hcap := hs.wlen_le
  rw [execAesUnpad, need_pass hoff.le]
  exact (if_neg (by omega)).trans (readW_pass (by omega))

theorem execAesUnpad_refuses {off : Index} {s : State} (hs : s.Inv) (hoff : off.toNat < s.wlen.toNat)
    (hcount : s.wlen.toNat - off.toNat ≤ (s.w.read (s.wlen.toNat - 1)).toNat) :
    execAesUnpad off s = .next (s.setStatus ErrCode.paddingInvalid.code 0x35#8) :=
  (execAesUnpad_nonempty hs hoff).trans (if_pos hcount)

theorem execAesUnpad_strips {off : Index} {s : State} (hs : s.Inv)
    (hcount : (s.w.read (s.wlen.toNat - 1)).toNat < s.wlen.toNat - off.toNat) :
    execAesUnpad off s =
      .next (s.setWlen (s.wlen - BitVec.ofNat 24 (s.w.read (s.wlen.toNat - 1)).toNat)) := by
  have hwlen : BitVec.ofNat 24 (s.wlen.toNat - (s.w.read (s.wlen.toNat - 1)).toNat) =
      s.wlen - BitVec.ofNat 24 (s.w.read (s.wlen.toNat - 1)).toNat := by
    bv_omega
  rw [execAesUnpad_nonempty hs (by omega), if_neg (by omega), hwlen]

/-- Settles O45: the checks in their order, then the new length. -/
theorem unpadStripsTheCountOfTheLastByte : Obligations.UnpadStripsTheCountOfTheLastByte := by
  intro off s hs
  change execAesUnpad off s = _
  split_ifs with hpast hempty hcount
  · exact need_fail hpast
  · exact (need_pass (by omega)).trans (if_pos (by omega))
  · exact execAesUnpad_refuses hs (by omega) hcount
  · exact execAesUnpad_strips hs (by omega)

/-! ### `AES.UNPAD` after `AES.PAD` (R147) -/

theorem Memory.read_last_writeRange_padBytes {m : Memory} (hm : m.wf = true) (a : Nat) {k : Nat} (hk : 1 ≤ k) :
    (m.writeRange a (padBytes k)).read (a + k - 1) = BitVec.ofNat 8 k := by
  have hin : k - 1 < (padBytes k).length := by rw [padBytes_length hk]; omega
  rw [Nat.add_sub_assoc hk, Memory.read_writeRange_inside hm a (padBytes k) (k - 1) hin]
  simp [padBytes]

/-- The last byte of a padded state is the length of its pad, which is at most 16 and fits a byte. -/
theorem State.Inv.appendPad_last {s : State} {off : Nat} (hs : s.Inv)
    (hroom : s.wlen.toNat + padLength (s.wlen.toNat - off) ≤ s.wcap.toNat) :
    ((s.appendPad off).w.read ((s.appendPad off).wlen.toNat - 1)).toNat = padLength (s.wlen.toNat - off) := by
  have hle := padLength_le (s.wlen.toNat - off)
  rw [State.appendPad_wlen_toNat hroom, State.appendPad, State.appendW_w,
    Memory.read_last_writeRange_padBytes hs.w_wf _ (padLength_pos _), BitVec.toNat_ofNat]
  omega

/-- With the length it had, a padded state has the valid bytes it had. -/
theorem State.appendPad_setWlen_wBytes (s : State) (off : Nat) :
    ((s.appendPad off).setWlen s.wlen).wBytes = s.wBytes :=
  Memory.readRange_writeRange_apart s.w s.wlen.toNat 0 s.wlen.toNat _ (by omega)

/-- Settles O46: the count in the last byte is the pad's length, which the data's length exceeds exactly when there
was data before the pad. -/
theorem unpadUndoesPadOfNonemptyData : Obligations.UnpadUndoesPadOfNonemptyData := by
  intro off s hs hoff hroom
  rw [← padLength_eq] at hroom
  have hpos := padLength_pos (s.wlen.toNat - off.toNat)
  have hwlen := State.appendPad_wlen_toNat hroom
  have hlast := hs.appendPad_last hroom
  have hpadded := hs.appendPad hroom
  refine ⟨s.appendPad off.toNat, execAesPad_pass hoff hroom, fun hdata => ?nonempty, fun hempty => ?empty⟩
  case nonempty =>
    have hback : (s.appendPad off.toNat).wlen - BitVec.ofNat 24 (padLength (s.wlen.toNat - off.toNat)) = s.wlen := by
      rw [State.appendPad_eq, BitVec.add_sub_cancel]
    refine ⟨(s.appendPad off.toNat).setWlen s.wlen, ?_, rfl, s.appendPad_setWlen_wBytes off.toNat⟩
    refine (execAesUnpad_strips hpadded (by omega)).trans ?_
    rw [hlast, hback]
  case empty => exact execAesUnpad_refuses hpadded (by omega) (by omega)

/-! ### The marker (R141, R142) -/

theorem plainFlag_eq_decide (m : Memory) (a : Nat) :
    plainFlag (m.readRange a 2) = decide (m.read a = 0x43#8 ∧ m.read (a + 1) = 0x47#8) :=
  Bool.eq_iff_iff.2 ((plainFlag_readRange m a).trans decide_eq_true_iff.symm)

/-- Settles O47: the range check decides between the test of the two bytes and the error. -/
theorem markerTestSetsPlain : Obligations.MarkerTestSetsPlain := by
  intro off s hs
  change execMrkTst off s = _
  split_ifs with hpast
  · exact need_fail hpast
  · have hcap := hs.wlen_le
    rw [execMrkTst, need_pass (by omega), readW_pass (by omega), plainFlag_eq_decide]
    rfl

section Conditional
variable {off len : Index} {s : State}

theorem execAesDecc_underrun (h : len.toNat < 2 ∨ s.wlen.toNat < off.toNat + len.toNat) :
    execAesDecc off len s = .next (s.setStatus ErrCode.bufferUnderrun.code 0x37#8) := by
  by_cases hshort : len.toNat < 2
  · exact if_pos hshort
  · exact (if_neg hshort).trans (need_fail (by omega))

variable (hs : s.Inv) (hlen : 2 ≤ len.toNat) (hvalid : off.toNat + len.toNat ≤ s.wlen.toNat)
include hs hlen hvalid

theorem execAesDecc_marked (hmark : s.w.read off.toNat = 0x43#8 ∧ s.w.read (off.toNat + 1) = 0x47#8) :
    execAesDecc off len s = .next (s.setPlain true) := by
  have hcap := hs.wlen_le
  rw [execAesDecc, if_neg (Nat.not_lt.2 hlen), need_pass hvalid, readW_pass (by omega),
    if_pos ((plainFlag_readRange _ _).2 hmark)]

/-- Without the marker the checks of key and length are left, and the block loop. -/
theorem execAesDecc_unmarked (hmark : ¬(s.w.read off.toNat = 0x43#8 ∧ s.w.read (off.toNat + 1) = 0x47#8)) :
    execAesDecc off len s =
      keyOk 0x37#8 s (wholeBlocks 0x37#8 len.toNat s
        (.next ((s.mapBlocksW (invCipher s.kBytes) off.toNat len.toNat).setPlain false))) := by
  have hcap := hs.wlen_le
  rw [execAesDecc, if_neg (Nat.not_lt.2 hlen), need_pass hvalid, readW_pass (by omega),
    if_neg (mt (plainFlag_readRange _ _).1 hmark), accessW_pass (hvalid.trans hcap)]

end Conditional

/-- Settles O48: the range's checks, then the marker, then the key and the length, then the block loop. -/
theorem conditionalDecryptionSkipsMarkedFrames : Obligations.ConditionalDecryptionSkipsMarkedFrames := by
  refine fun off len s hs => ⟨execAesDecc_underrun, fun hlen hvalid => ⟨execAesDecc_marked hs hlen hvalid,
    fun hmark => ⟨fun hbad => ?refused, fun hkey hblocks => ?decrypted⟩⟩⟩
  case refused => exact (execAesDecc_unmarked hs hlen hvalid hmark).trans (keyOk_wholeBlocks_fail hbad)
  case decrypted =>
    refine ⟨(s.mapBlocksW (invCipher s.kBytes) off.toNat len.toNat).setPlain false, ?_, rfl,
      fun _ hj => hs.mapBlocksW_range (invCipher_length _) hvalid hj,
      State.mapBlocksW_storesOnlyIn (invCipher_length _)⟩
    refine (execAesDecc_unmarked hs hlen hvalid hmark).trans ?_
    rw [keyOk_pass hkey, wholeBlocks_pass hblocks]

end Sys2Proof.Machine
end

section
/-! The marks of the unescaper (44_unescaper.md R161, R162): `find` is the least index of a mark, and `split` cuts a
sequence into the only pieces without a `SPLIT_MARK` that the mark joins to it again. -/

namespace Sys2Proof.Machine

/-! ### `find` (R161) -/

theorem findMark_cons_of_mark {m s : List Byte} {x : Byte} (h : (x :: s).take 3 = m) :
    findMark m (x :: s) = some 0 := if_pos h

theorem findMark_cons_of_ne {m s : List Byte} {x : Byte} (h : (x :: s).take 3 ≠ m) :
    findMark m (x :: s) = (findMark m s).map (· + 1) := by
  rw [findMark, if_neg h]
  cases findMark m s <;> rfl

theorem findMark_cons_eq_none_iff {m s : List Byte} {x : Byte} :
    findMark m (x :: s) = none ↔ (x :: s).take 3 ≠ m ∧ findMark m s = none := by
  by_cases h : (x :: s).take 3 = m
  · rw [findMark_cons_of_mark h]
    exact iff_of_false (Option.some_ne_none 0) fun hne => hne.1 h
  · rw [findMark_cons_of_ne h, Option.map_eq_none_iff, and_iff_right h]

section Find
variable {m : List Byte} (hm : m.length = 3)
include hm

theorem take_three_nil_ne : ([] : List Byte).take 3 ≠ m := by
  rintro rfl
  cases hm

/-- A mark stands only where its three bytes are within the sequence. -/
theorem add_three_le_of_take_drop_eq {b : List Byte} {i : Nat} (h : (b.drop i).take 3 = m) :
    i + 3 ≤ b.length := by
  rw [← h, List.length_take, List.length_drop] at hm
  omega

theorem findMark_eq_none_iff (b : List Byte) : findMark m b = none ↔ ∀ i, (b.drop i).take 3 ≠ m := by
  induction b with
  | nil => simpa [findMark] using take_three_nil_ne hm
  | cons x s ih =>
    rw [← Nat.and_forall_add_one, findMark_cons_eq_none_iff, ih]
    rfl

theorem findMark_eq_some_iff (b : List Byte) (i : Nat) :
    findMark m b = some i ↔ (b.drop i).take 3 = m ∧ ∀ j, j < i → (b.drop j).take 3 ≠ m := by
  induction b generalizing i with
  | nil =>
    rw [List.drop_nil]
    exact iff_of_false (Option.some_ne_none i).symm fun h => take_three_nil_ne hm h.1
  | cons x s ih =>
    by_cases hx : (x :: s).take 3 = m
    · rw [findMark_cons_of_mark hx]
      cases i with
      | zero => exact iff_of_true rfl ⟨hx, nofun⟩
      | succ i => exact iff_of_false nofun fun h => h.2 0 (Nat.succ_pos i) hx
    · rw [findMark_cons_of_ne hx]
      cases i with
      | zero => simpa using hx
      | succ i =>
        rw [Nat.forall_lt_succ_left, ← Option.map_some (f := (· + 1)),
          (Option.map_injective Nat.succ_injective).eq_iff, ih]
        exact and_congr_right fun _ => (and_iff_right hx).symm

/-- A sequence with a mark in it holds a mark. -/
theorem findMark_append_mark_ne_none (p s : List Byte) : findMark m (p ++ m ++ s) ≠ none := by
  rw [Ne, findMark_eq_none_iff hm]
  intro h
  refine h p.length ?_
  rw [List.append_assoc, List.drop_left, ← hm, List.take_left]

/-- A sequence that starts with a sequence that starts with a mark starts with the mark. -/
theorem take_three_eq_of_isPrefix {p s : List Byte} (hps : p <+: s) (hp : p.take 3 = m) : s.take 3 = m := by
  obtain ⟨t, rfl⟩ := hps
  have hlen : 3 ≤ p.length := by
    rw [← hp, List.length_take] at hm
    omega
  rw [List.take_append_of_le_length hlen, hp]

end Find

/-- Settles O49: a mark of three bytes that stands at an index is within the sequence there. -/
theorem findIsTheLeastMark : Obligations.FindIsTheLeastMark := by
  refine fun m b hm => ⟨fun i => ?some, ?none⟩
  case some =>
    rw [findMark_eq_some_iff hm]
    exact ⟨fun ⟨hi, hleast⟩ => ⟨add_three_le_of_take_drop_eq hm hi, hi, hleast⟩, And.right⟩
  case none =>
    rw [findMark_eq_none_iff hm]
    exact forall_congr' fun i => ⟨fun h _ => h, fun h hi => h (add_three_le_of_take_drop_eq hm hi) hi⟩

/-! ### `split` (R162) -/

theorem splitMarks_mark_append (s : List Byte) :
    splitMarks (Config.splitMark ++ s) = [] :: splitMarks s := if_pos rfl

/-- Where no mark stands the first byte goes to the first piece, also when fewer than three bytes are left. -/
theorem splitMarks_cons_of_ne {x : Byte} {s : List Byte} (h : (x :: s).take 3 ≠ Config.splitMark) :
    splitMarks (x :: s) = consPiece x (splitMarks s) := by
  match s with
  | [] | [_] => rfl
  | _ :: _ :: _ => exact if_neg h

theorem consPiece_ne_nil (x : Byte) (ps : List (List Byte)) : consPiece x ps ≠ [] := by
  cases ps <;> nofun

theorem splitMarks_ne_nil (s : List Byte) : splitMarks s ≠ [] := by
  unfold splitMarks
  split
  · split
    · nofun
    · exact consPiece_ne_nil _ _
  · nofun

theorem intercalate_consPiece {sep : List Byte} {ps : List (List Byte)} (x : Byte) (hps : ps ≠ []) :
    sep.intercalate (consPiece x ps) = x :: sep.intercalate ps := by
  match ps, hps with
  | [p], _ => simp [consPiece]
  | p :: q :: qs, _ => simp [consPiece, List.intercalate_cons_cons]

/-- The pieces joined by the mark are the sequence again. -/
theorem intercalate_splitMarks (s : List Byte) : Config.splitMark.intercalate (splitMarks s) = s := by
  induction s using splitMarks.induct with
  | case1 a b c s hmark ih =>
    rw [splitMarks, if_pos hmark, List.intercalate_cons_of_ne_nil (splitMarks_ne_nil s), ih, ← hmark]
    rfl
  | case2 a b c s hmark ih =>
    rw [splitMarks, if_neg hmark, intercalate_consPiece a (splitMarks_ne_nil _), ih]
  | case3 s hshort =>
    rw [splitMarks]
    · exact List.intercalate_singleton
    · exact hshort

theorem isPrefix_intercalate_cons (sep p : List Byte) (ps : List (List Byte)) :
    p <+: sep.intercalate (p :: ps) := by
  cases ps with
  | nil => rw [List.intercalate_singleton]
  | cons q qs =>
    rw [List.intercalate_cons_cons, List.append_assoc]
    exact List.prefix_append _ _

/-- The first piece starts the sequence, so that a mark in it at index 0 would have been cut. -/
theorem findMark_of_mem_splitMarks {s p : List Byte} (hp : p ∈ splitMarks s) :
    findMark Config.splitMark p = none := by
  induction s using splitMarks.induct generalizing p with
  | case1 a b c s hmark ih =>
    rw [splitMarks, if_pos hmark, List.mem_cons] at hp
    rcases hp with rfl | hp
    · rfl
    · exact ih hp
  | case2 a b c s hmark ih =>
    obtain ⟨f, fs, hsplit⟩ := List.exists_cons_of_ne_nil (splitMarks_ne_nil (b :: c :: s))
    rw [splitMarks, if_neg hmark, hsplit, consPiece, List.mem_cons] at hp
    rw [hsplit] at ih
    rcases hp with rfl | hp
    · have hpre : f <+: b :: c :: s := by
        rw [← intercalate_splitMarks (b :: c :: s), hsplit]
        exact isPrefix_intercalate_cons _ f fs
      refine findMark_cons_eq_none_iff.2 ⟨fun hf => hmark ?_, ih List.mem_cons_self⟩
      exact take_three_eq_of_isPrefix rfl (List.cons_prefix_cons.2 ⟨rfl, hpre⟩) hf
    · exact ih (List.mem_cons_of_mem f hp)
  | case3 s hshort =>
    have hlen : s.length < 3 := by
      match s, hshort with
      | [], _ | [_], _ | [_, _], _ => simp
      | a :: b :: c :: s, hshort => exact (hshort a b c s rfl).elim
    rw [splitMarks, List.mem_singleton] at hp
    · subst hp
      refine (findMark_eq_none_iff rfl p).2 fun i hi => ?_
      have := add_three_le_of_take_drop_eq rfl hi
      omega
    · exact hshort

/-- Settles O50: one piece is the whole sequence, and between two pieces there is a mark. -/
theorem splitCutsAtEveryMark : Obligations.SplitCutsAtEveryMark := by
  refine fun b => ⟨intercalate_splitMarks b, fun p => findMark_of_mem_splitMarks, ?_⟩
  have hjoin := intercalate_splitMarks b
  have hnone : ∀ p ∈ splitMarks b, findMark Config.splitMark p = none := fun p => findMark_of_mem_splitMarks
  have hne := splitMarks_ne_nil b
  generalize splitMarks b = ps at hjoin hnone hne ⊢
  subst hjoin
  rcases ps with _ | ⟨p, _ | ⟨q, ps⟩⟩
  · exact (hne rfl).elim
  · rw [List.intercalate_singleton]
    exact iff_of_true rfl (hnone p List.mem_cons_self)
  · rw [List.intercalate_cons_cons]
    exact iff_of_false nofun (findMark_append_mark_ne_none rfl _ _)

/-! ### The pieces of joined pieces (R162) -/

theorem splitMarks_of_findMark {p : List Byte} (hp : findMark Config.splitMark p = none) :
    splitMarks p = [p] := by
  induction p with
  | nil => rfl
  | cons x p ih =>
    obtain ⟨hx, htail⟩ := findMark_cons_eq_none_iff.1 hp
    rw [splitMarks_cons_of_ne hx, ih htail, consPiece]

/-- A mark behind bytes without one cannot begin inside them: it would have to overlap itself (R160). -/
theorem splitMarks_append_mark {p : List Byte} (hp : findMark Config.splitMark p = none) (s : List Byte) :
    splitMarks (p ++ Config.splitMark ++ s) = p :: splitMarks s := by
  induction p with
  | nil => exact splitMarks_mark_append s
  | cons x p ih =>
    obtain ⟨hx, htail⟩ := findMark_cons_eq_none_iff.1 hp
    have hx' : (x :: (p ++ Config.splitMark ++ s)).take 3 ≠ Config.splitMark := by
      match p, hx with
      | [], _ | [_], _ => simp [Config.splitMark]
      | _ :: _ :: _, hx => exact hx
    exact (splitMarks_cons_of_ne hx').trans (by rw [ih htail, consPiece])

theorem splitMarks_intercalate {p : List Byte} {ps : List (List Byte)}
    (h : ∀ q ∈ p :: ps, findMark Config.splitMark q = none) :
    splitMarks (Config.splitMark.intercalate (p :: ps)) = p :: ps := by
  induction ps generalizing p with
  | nil =>
    rw [List.intercalate_singleton]
    exact splitMarks_of_findMark (h p List.mem_cons_self)
  | cons q qs ih =>
    rw [List.intercalate_cons_cons, splitMarks_append_mark (h p List.mem_cons_self),
      ih fun r hr => h r (List.mem_cons_of_mem p hr)]

end Sys2Proof.Machine
end

section
/-! The substitution map and the function `unescape` (44_unescaper.md R163 to R165): what the three key bytes load
and a map substitutes, then `unescape` without a split, then fragment by fragment. -/

namespace Sys2Proof.Machine

/-! ### The map that three key bytes load (R163, R167) -/

/-- The three entries of the key bytes, each valid when its byte is not the sentinel (`buildMap_eq`). -/
def loadedMap (k0 k1 k2 : Byte) : SubstMap where
  e0 := { valid := decide (k0 ≠ 0x43#8), key := k0 }
  e1 := { valid := decide (k1 ≠ 0x43#8), key := k1 }
  e2 := { valid := decide (k2 ≠ 0x43#8), key := k2 }

theorem entryOfKey_eq (k : Byte) : entryOfKey k = { valid := decide (k ≠ 0x43#8), key := k } := by
  rw [entryOfKey, decide_not]
  rfl

theorem sameKey_iff (a b : SubstEntry) :
    sameKey a b = true ↔ a.valid = true ∧ b.valid = true ∧ a.key = b.key := by
  simp [sameKey, and_assoc]

/-- A map is no function exactly when two of its entries are valid and have one key. -/
theorem SubstMap.distinct_iff (m : SubstMap) :
    m.distinct = true ↔ ¬(sameKey m.e0 m.e1 = true ∨ sameKey m.e0 m.e2 = true ∨ sameKey m.e1 m.e2 = true) := by
  simp [SubstMap.distinct, and_assoc]

theorem loadedMap_distinct_iff (k0 k1 k2 : Byte) :
    (loadedMap k0 k1 k2).distinct = true ↔ ¬DuplicateKey k0 k1 k2 := by
  have hpair (a b : Byte) : (a ≠ 0x43#8 ∧ b ≠ 0x43#8 ∧ a = b) ↔ (a ≠ 0x43#8 ∧ a = b) :=
    ⟨fun ⟨ha, _, hab⟩ => ⟨ha, hab⟩, fun ⟨ha, hab⟩ => ⟨ha, hab ▸ ha, hab⟩⟩
  simp only [SubstMap.distinct_iff, sameKey_iff, loadedMap, decide_eq_true_iff, hpair]
  rw [DuplicateKey, and_or_left, or_assoc]

theorem buildMap_eq (k0 k1 k2 : Byte) :
    buildMap k0 k1 k2 =
      if DuplicateKey k0 k1 k2 then .error .malformedInput else .ok (loadedMap k0 k1 k2) := by
  have hload : SubstMap.mk (entryOfKey k0) (entryOfKey k1) (entryOfKey k2) = loadedMap k0 k1 k2 := by
    simp only [entryOfKey_eq, loadedMap]
  simp only [buildMap, hload, loadedMap_distinct_iff, ite_not]

/-! ### The substitution of one byte (R164, R26) -/

theorem SubstEntry.hits_iff (e : SubstEntry) (b : Byte) : e.hits b = true ↔ e.valid = true ∧ e.key = b := by
  simp [SubstEntry.hits]

theorem SubstMap.subst_eq (m : SubstMap) (b : Byte) :
    m.subst b =
      if m.e0.valid = true ∧ m.e0.key = b then 0x1A#8
      else if m.e1.valid = true ∧ m.e1.key = b then 0x1B#8
      else if m.e2.valid = true ∧ m.e2.key = b then 0x08#8
      else b := by
  simp only [SubstMap.subst, SubstEntry.hits_iff]
  rfl

theorem loadedMap_subst (k0 k1 k2 b : Byte) :
    (loadedMap k0 k1 k2).subst b =
      if k0 ≠ 0x43#8 ∧ b = k0 then 0x1A#8
      else if k1 ≠ 0x43#8 ∧ b = k1 then 0x1B#8
      else if k2 ≠ 0x43#8 ∧ b = k2 then 0x08#8
      else b := by
  simp only [SubstMap.subst_eq, loadedMap, decide_eq_true_iff, eq_comm (a := b)]

/-- Two entries of a map with distinct keys do not both hit one byte. -/
theorem sameKey_of_hits {a b : SubstEntry} {x : Byte} (ha : a.valid = true ∧ a.key = x)
    (hb : b.valid = true ∧ b.key = x) : sameKey a b = true :=
  (sameKey_iff a b).2 ⟨ha.1, hb.1, ha.2.trans hb.2.symm⟩

section Subst
variable {m : SubstMap} {b : Byte}

theorem SubstMap.subst_of_e0 (h : m.e0.valid = true ∧ m.e0.key = b) : m.subst b = 0x1A#8 := by
  rw [SubstMap.subst_eq, if_pos h]

theorem SubstMap.subst_of_e1 (hm : m.distinct = true) (h : m.e1.valid = true ∧ m.e1.key = b) :
    m.subst b = 0x1B#8 := by
  have h0 : ¬(m.e0.valid = true ∧ m.e0.key = b) := fun h0 =>
    m.distinct_iff.1 hm (.inl (sameKey_of_hits h0 h))
  rw [SubstMap.subst_eq, if_neg h0, if_pos h]

theorem SubstMap.subst_of_e2 (hm : m.distinct = true) (h : m.e2.valid = true ∧ m.e2.key = b) :
    m.subst b = 0x08#8 := by
  have h0 : ¬(m.e0.valid = true ∧ m.e0.key = b) := fun h0 =>
    m.distinct_iff.1 hm (.inr (.inl (sameKey_of_hits h0 h)))
  have h1 : ¬(m.e1.valid = true ∧ m.e1.key = b) := fun h1 =>
    m.distinct_iff.1 hm (.inr (.inr (sameKey_of_hits h1 h)))
  rw [SubstMap.subst_eq, if_neg h0, if_neg h1, if_pos h]

theorem SubstMap.subst_of_none (h : ∀ e ∈ [m.e0, m.e1, m.e2], ¬(e.valid = true ∧ e.key = b)) :
    m.subst b = b := by
  simp only [List.forall_mem_cons] at h
  obtain ⟨h0, h1, h2, -⟩ := h
  rw [SubstMap.subst_eq, if_neg h0, if_neg h1, if_neg h2]

end Subst

/-! ### The key of a fragment (R165) -/

section Key
variable {b pre key : List Byte}

theorem keyOfFragment_of_none (h : findMark Config.escapeMark b = none) :
    keyOfFragment b = .ok SubstMap.cleared := by
  rw [keyOfFragment, h]

variable (hb : b = pre ++ Config.escapeMark ++ key)
include hb

theorem drop_after_mark : b.drop (pre.length + 3) = key := by
  rw [hb]
  exact List.drop_left' List.length_append

variable (hfind : findMark Config.escapeMark b = some pre.length)
include hfind

theorem keyOfFragment_short (hkey : key.length < 3) : keyOfFragment b = .error .bufferUnderrun := by
  have hlen : b.length < pre.length + 6 := by
    simp only [hb, List.length_append, Config.escapeMark, List.length_cons, List.length_nil]
    omega
  simp only [keyOfFragment, hfind, if_pos hlen]

theorem keyOfFragment_full {k0 k1 k2 : Byte} {data : List Byte} (hkey : key = k0 :: k1 :: k2 :: data) :
    keyOfFragment b =
      if DuplicateKey k0 k1 k2 then .error .malformedInput else .ok (loadedMap k0 k1 k2) := by
  have hlen : ¬b.length < pre.length + 6 := by
    simp only [hb, hkey, List.length_append, Config.escapeMark, List.length_cons]
    omega
  simp only [keyOfFragment, hfind, if_neg hlen, drop_after_mark hb, hkey]
  exact buildMap_eq k0 k1 k2

end Key

/-! ### Step 1 (R165) -/

theorem dropDoubled_doubled (s : List Byte) : dropDoubled (0x27#8 :: 0x27#8 :: s) = 0x27#8 :: s := by
  rw [dropDoubled, if_pos ⟨rfl, rfl⟩]

theorem dropDoubled_of_ne {s : List Byte} (h : s.take 2 ≠ [0x27#8, 0x27#8]) : dropDoubled s = s := by
  match s, h with
  | [], _ | [_], _ => rfl
  | _ :: _ :: _, h => exact if_neg (by simpa using h)

/-- What step 1 leaves is one function of the buffer. -/
theorem afterStepOne_iff (raw b : List Byte) : AfterStepOne raw b ↔ dropDoubled raw = b := by
  constructor
  · rintro (⟨rfl, hne⟩ | ⟨rfl, hfirst⟩)
    · exact dropDoubled_of_ne hne
    · rw [← List.take_append_drop 1 b, hfirst]
      exact dropDoubled_doubled _
  · rintro rfl
    by_cases h : raw.take 2 = [0x27#8, 0x27#8]
    · obtain ⟨s, rfl⟩ : ∃ s, raw = 0x27#8 :: 0x27#8 :: s := by
        refine ⟨raw.drop 2, ?_⟩
        conv_lhs => rw [← List.take_append_drop 2 raw, h]
        rfl
      rw [dropDoubled_doubled]
      exact .inr ⟨rfl, rfl⟩
    · rw [dropDoubled_of_ne h]
      exact .inl ⟨rfl, h⟩

theorem unescape_congr {raw raw' : List Byte} (h : dropDoubled raw = dropDoubled raw') :
    unescape raw = unescape raw' := by
  simp only [unescape, h]

theorem unescape_of_unsplit {raw b : List Byte} (h : AfterStepOne raw b)
    (hnone : findMark Config.splitMark b = none) : unescape raw = unescapeUnsplit b := by
  simp only [unescape, (afterStepOne_iff raw b).1 h, splitMarks_of_findMark hnone]

theorem unescape_of_split {raw p f : List Byte} {fs : List (List Byte)}
    (h : AfterStepOne raw (Config.splitMark.intercalate (p :: f :: fs)))
    (hnone : ∀ q ∈ p :: f :: fs, findMark Config.splitMark q = none) :
    unescape raw = joinFragments p (f :: fs) := by
  simp only [unescape, (afterStepOne_iff raw _).1 h, splitMarks_intercalate hnone]

/-! ### Step 2: a buffer without a split (R165) -/

theorem unescapeUnsplit_of_none {b : List Byte} (h : findMark Config.escapeMark b = none) :
    unescapeUnsplit b = .ok b := by
  rw [unescapeUnsplit, h]

/-- A buffer without a split has its key where a fragment has it. -/
theorem unescapeUnsplit_of_some {b : List Byte} {i : Nat} (h : findMark Config.escapeMark b = some i) :
    unescapeUnsplit b = (keyOfFragment b).map fun m => applyMap m (b.drop (i + 6)) := by
  simp only [unescapeUnsplit, keyOfFragment, h]
  split
  · rfl
  · cases buildMapOf ((b.drop (i + 3)).take 3) <;> rfl

/-- With its three key bytes after the first `ESCAPE_MARK`, a buffer without a split is what follows them under the
map they load. -/
theorem unescapeUnsplit_full {b pre data : List Byte} {k0 k1 k2 : Byte}
    (hb : b = pre ++ Config.escapeMark ++ k0 :: k1 :: k2 :: data)
    (hfind : findMark Config.escapeMark b = some pre.length) :
    unescapeUnsplit b =
      if DuplicateKey k0 k1 k2 then .error .malformedInput else .ok (applyMap (loadedMap k0 k1 k2) data) := by
  have hdata : b.drop (pre.length + 6) = data := by
    rw [show pre.length + 6 = pre.length + 3 + 3 from rfl, ← List.drop_drop, drop_after_mark hb]
    rfl
  rw [unescapeUnsplit_of_some hfind, keyOfFragment_full hb hfind rfl, hdata, apply_ite (Except.map _)]
  rfl

/-- Settles O51: step 2 is the key of a fragment, then the substitution of the bytes after it; and step 1 leaves the
same of a buffer with its first `27` doubled and of the buffer itself. -/
theorem unsplitBuffersAreSubstitutedAfterTheKey : Obligations.UnsplitBuffersAreSubstitutedAfterTheKey := by
  refine ⟨fun raw b hraw hnone => ?stepTwo, fun raw => ⟨_, (afterStepOne_iff raw _).2 rfl⟩,
    fun b hb => unescape_congr ?stepOne⟩
  case stepTwo =>
    rw [unescape_of_unsplit hraw hnone]
    refine ⟨unescapeUnsplit_of_none, fun pre key hb hfind => ⟨fun hshort => ?short, ?full⟩⟩
    case short =>
      rw [unescapeUnsplit_of_some hfind, keyOfFragment_short hb hfind hshort]
      rfl
    case full =>
      rintro k0 k1 k2 data rfl
      rw [← funext (loadedMap_subst k0 k1 k2)]
      exact unescapeUnsplit_full hb hfind
  case stepOne =>
    have hsingle : (0x27#8 :: b).take 2 ≠ [0x27#8, 0x27#8] := fun h => hb (List.tail_eq_of_cons_eq h)
    rw [dropDoubled_doubled, dropDoubled_of_ne hsingle]

/-! ### Step 3: the fragments (R165) -/

theorem contentOfFragment_short {m : SubstMap} {f : List Byte} (h : FragmentShort f) :
    contentOfFragment m f = .error .bufferUnderrun := by
  unfold contentOfFragment
  split_ifs with h1 h2
  · rfl
  · rfl
  · exact absurd h (not_or.2 ⟨h1, h2⟩)

theorem contentOfFragment_full {m : SubstMap} {f : List Byte} (h : ¬FragmentShort f) :
    contentOfFragment m f = .ok (applyMap m ((f.drop 3).take (f.getD 2 0#8).toNat)) := by
  obtain ⟨h1, h2⟩ := not_or.1 h
  rw [contentOfFragment, if_neg h1, if_neg h2]

section Fragments
variable {prev f : List Byte} {fs : List (List Byte)}

theorem joinFragments_cons_of_gives {out : List Byte} (h : FragmentGives prev f out) :
    joinFragments prev (f :: fs) = (joinFragments f fs).map (out ++ ·) := by
  obtain ⟨m, hkey, hlong, rfl⟩ := h
  simp only [joinFragments, hkey, contentOfFragment_full hlong, applyMap, funext m.subst_eq]
  cases joinFragments f fs <;> rfl

theorem joinFragments_cons_of_fails {e : ErrCode} (h : FragmentFails prev f e) :
    joinFragments prev (f :: fs) = .error e := by
  rcases h with hkey | ⟨⟨m, hkey⟩, hshort, rfl⟩
  · simp only [joinFragments, hkey]
  · simp only [joinFragments, hkey, contentOfFragment_short hshort]

end Fragments

/-- Fragments that each give their output give all of them in turn. -/
theorem joinFragments_of_gives (fs : List (List Byte)) {prev : List Byte} {outs : List (List Byte)}
    (hlen : outs.length = fs.length)
    (h : ∀ j, j < fs.length → FragmentGives ((prev :: fs).getD j []) (fs.getD j []) (outs.getD j [])) :
    joinFragments prev fs = .ok outs.flatten := by
  induction fs generalizing prev outs with
  | nil =>
    rw [List.length_eq_zero_iff.1 hlen]
    rfl
  | cons f fs ih =>
    obtain ⟨out, outs, rfl⟩ := List.exists_cons_of_length_eq_add_one hlen
    rw [List.length_cons, Nat.forall_lt_succ_left] at h
    obtain ⟨hfirst, hrest⟩ := h
    rw [joinFragments_cons_of_gives (prev := prev) (f := f) hfirst, ih (Nat.succ.inj hlen) hrest]
    rfl

/-- The first fragment that fails fails the whole, however many give their output before it. -/
theorem joinFragments_of_fails (fs : List (List Byte)) {prev : List Byte} {j : Nat} {e : ErrCode}
    (hj : j < fs.length)
    (hbefore : ∀ i, i < j → ∃ out, FragmentGives ((prev :: fs).getD i []) (fs.getD i []) out)
    (h : FragmentFails ((prev :: fs).getD j []) (fs.getD j []) e) :
    joinFragments prev fs = .error e := by
  induction fs generalizing prev j with
  | nil => cases hj
  | cons f fs ih =>
    cases j with
    | zero => exact joinFragments_cons_of_fails h
    | succ j =>
      obtain ⟨⟨out, hfirst⟩, hrest⟩ := Nat.forall_lt_succ_left.1 hbefore
      rw [joinFragments_cons_of_gives (prev := prev) (f := f) hfirst, ih (Nat.lt_of_succ_lt_succ hj) hrest h]
      rfl

/-- Settles O52: the key of a fragment, then the fragments one by one. -/
theorem fragmentsAreJoinedUnderThePreviousKey : Obligations.FragmentsAreJoinedUnderThePreviousKey := by
  refine ⟨fun f => ⟨keyOfFragment_of_none, fun pre key hf hfind =>
    ⟨keyOfFragment_short hf hfind, fun k0 k1 k2 data => keyOfFragment_full hf hfind⟩⟩, ?_⟩
  intro raw h fs hraw hfs hnone
  obtain ⟨f, fs, rfl⟩ := List.exists_cons_of_ne_nil hfs
  rw [unescape_of_split hraw hnone]
  exact ⟨fun outs => joinFragments_of_gives (f :: fs), fun j e => joinFragments_of_fails (f :: fs)⟩

/-- Settles O53: no step of the algorithm adds a byte. -/
theorem unescapeNeverLengthens : Obligations.UnescapeNeverLengthens := fun _ _ => unescape_length_le

end Sys2Proof.Machine
end

section
/-! The operations of the unescaper on a legal state (44_unescaper.md R167 to R169): the range check, then the map
the key bytes load, the substitution of a range, or `unescape` of the valid bytes. -/

namespace Sys2Proof.Machine

/-! ### `UNE.MAP` (R167) -/

theorem buildMapOf_readRange (m : Memory) (a : Nat) :
    buildMapOf (m.readRange a 3) =
      if DuplicateKey (m.read a) (m.read (a + 1)) (m.read (a + 2)) then .error .malformedInput
      else .ok (loadedMap (m.read a) (m.read (a + 1)) (m.read (a + 2))) :=
  buildMap_eq _ _ _

/-- With three bytes at its offset only the test for equal keys is left of `UNE.MAP`. -/
theorem execUneMap_valid {off : Index} {s : State} (hs : s.Inv) (hvalid : off.toNat + 3 ≤ s.wlen.toNat) :
    execUneMap off s =
      if DuplicateKey (s.w.read off.toNat) (s.w.read (off.toNat + 1)) (s.w.read (off.toNat + 2))
      then .next (s.setStatus ErrCode.malformedInput.code 0x41#8)
      else .next (s.setMap
        (loadedMap (s.w.read off.toNat) (s.w.read (off.toNat + 1)) (s.w.read (off.toNat + 2)))) := by
  rw [execUneMap, need_pass hvalid, readW_pass (hvalid.trans hs.wlen_le), buildMapOf_readRange]
  split_ifs <;> rfl

/-- Settles O54: the range check, then the test for equal keys, then the map. -/
theorem uneMapLoadsThreeKeys : Obligations.UneMapLoadsThreeKeys := by
  rintro off s hs k0 k1 k2 rfl rfl rfl
  change execUneMap off s = _
  split_ifs with hpast hdup
  · exact need_fail hpast
  · exact (execUneMap_valid hs (Nat.not_lt.1 hpast)).trans (if_pos hdup)
  · exact (execUneMap_valid hs (Nat.not_lt.1 hpast)).trans (if_neg hdup)

/-! ### `UNE.SUB` (R168, R26) -/

theorem State.Inv.map_distinct {s : State} (hs : s.Inv) : s.smap.distinct = true := by
  obtain ⟨-, hmap, -⟩ := hs
  exact hmap

/-- What `UNE.SUB` leaves (`execUneSub_valid`): the bytes of the range put back under the map. -/
def State.substW (s : State) (off len : Nat) : State :=
  s.putW off (applyMap s.smap (s.w.readRange off len))

@[simp] theorem applyMap_length (m : SubstMap) (bytes : List Byte) :
    (applyMap m bytes).length = bytes.length := List.length_map _

theorem execUneSub_valid {off len : Index} {s : State} (hs : s.Inv)
    (hvalid : off.toNat + len.toNat ≤ s.wlen.toNat) :
    execUneSub off len s = .next (s.substW off.toNat len.toNat) := by
  rw [execUneSub, need_pass hvalid, readW_pass (hvalid.trans hs.wlen_le)]
  rfl

theorem State.substW_storesOnlyIn (s : State) (off len : Nat) : StoresOnlyIn s (s.substW off len) off len :=
  fun b hb => Memory.read_writeRange_of_outside s.w off b _ (by simpa using hb)

/-- Each byte of the range is substituted from what it was before the operation. -/
theorem State.Inv.substW_read {s : State} (hs : s.Inv) {off len a : Nat} (hlow : off ≤ a) (hhigh : a < off + len) :
    (s.substW off len).w.read a = s.smap.subst (s.w.read a) := by
  obtain ⟨i, rfl⟩ := Nat.exists_eq_add_of_le hlow
  have hi : i < (applyMap s.smap (s.w.readRange off len)).length := by
    rw [applyMap_length, Memory.readRange_length]
    omega
  refine (Memory.read_writeRange_inside hs.w_wf off _ i hi).trans ?_
  simp only [applyMap, List.getElem_map, Memory.readRange_getElem]

/-- Settles O55: the range check decides between the error and the substitution, where R26 leaves one valid entry at
most for a byte. -/
theorem uneSubSubstitutesItsRangeOnce : Obligations.UneSubSubstitutesItsRangeOnce := by
  refine fun off len s hs => ⟨fun hpast => need_fail hpast, fun hvalid => ?_⟩
  refine ⟨s.substW off.toNat len.toNat, execUneSub_valid hs hvalid, s.putW_eq _ _, s.substW_storesOnlyIn _ _,
    fun a hlow hhigh => ?_⟩
  rw [hs.substW_read hlow hhigh]
  exact ⟨SubstMap.subst_of_e0, SubstMap.subst_of_e1 hs.map_distinct, SubstMap.subst_of_e2 hs.map_distinct,
    SubstMap.subst_of_none⟩

/-! ### `UNE.RUN` (R169) -/

theorem execUneRun_of_ok {s : State} {r : List Byte} (hs : s.Inv) (h : unescape s.wBytes = .ok r) :
    execUneRun s = .next (s.replaceW r) := by
  rw [execUneRun, readW_pass ((Nat.zero_add _).trans_le hs.wlen_le), ← State.wBytes, h]

theorem execUneRun_of_error {s : State} {e : ErrCode} (hs : s.Inv) (h : unescape s.wBytes = .error e) :
    execUneRun s = .next (s.setStatus e.code 0x43#8) := by
  rw [execUneRun, readW_pass ((Nat.zero_add _).trans_le hs.wlen_le), ← State.wBytes, h]
  rfl

/-- Settles O56: the result is no longer than the valid bytes, so that `WLEN` holds its length. -/
theorem uneRunReplacesTheBuffer : Obligations.UneRunReplacesTheBuffer := by
  refine fun s hs => ⟨fun r hr => ?replaced, fun e he => ⟨unescape_error he, execUneRun_of_error hs he⟩⟩
  case replaced =>
    have hlen : r.length < 2 ^ 24 := (unescape_length_le hr).trans_lt (s.wBytes_length ▸ s.wlen.isLt)
    exact ⟨s.replaceW r, execUneRun_of_ok hs hr, s.replaceW_eq r, s.replaceW_wBytes r hs.w_wf hlen,
      fun b hb => Memory.read_writeRange_of_outside s.w 0 b r hb⟩

end Sys2Proof.Machine
end

section
/-! The bit-field unpacker (45_unpacker.md R180 to R187): what bytes in either byte order are as an exact number, the
pack as the number `T * 4096 + H`, then the operations on a legal state, and from these that `UNP.TH` and `PCK.TH`
undo each other. -/

namespace Sys2Proof.Machine

/-! ### The number of a byte sequence (30_encoding.md R73) -/

theorem bigEndianNat_concat (bytes : List Byte) (b : Byte) :
    bigEndianNat (bytes ++ [b]) = bigEndianNat bytes * 256 + b.toNat :=
  List.foldl_concat _ _ _ _

theorem bigEndianNat_lt (bytes : List Byte) : bigEndianNat bytes < 2 ^ (8 * bytes.length) := by
  induction bytes using List.reverseRecOn with
  | nil => exact Nat.one_pos
  | append_singleton bytes b ih =>
    have hpow : 2 ^ (8 * (bytes.length + 1)) = 2 ^ (8 * bytes.length) * 256 := Nat.pow_add 2 _ 8
    rw [bigEndianNat_concat, List.length_append, List.length_singleton, hpow]
    omega

theorem assemble_lt (e : ByteOrder) (bytes : List Byte) : assemble e bytes < 2 ^ (8 * bytes.length) := by
  cases e with
  | big => exact bigEndianNat_lt bytes
  | little => exact bytes.length_reverse ▸ bigEndianNat_lt bytes.reverse

@[simp] theorem assemble_big_three (a b c : Byte) :
    assemble .big [a, b, c] = a.toNat * 65536 + b.toNat * 256 + c.toNat := by
  simp only [assemble, bigEndianNat, List.foldl_cons, List.foldl_nil]
  omega

@[simp] theorem assemble_little_three (a b c : Byte) :
    assemble .little [a, b, c] = c.toNat * 65536 + b.toNat * 256 + a.toNat :=
  assemble_big_three c b a

/-- The last byte of a big-endian field is its lowest digit. -/
theorem fieldValue_big_succ (s : State) (off n : Nat) :
    fieldValue s .big off (n + 1) = fieldValue s .big off n * 256 + (s.w.read (off + n)).toNat := by
  have hdigit : ∀ i ∈ List.range n, (s.w.read (off + i)).toNat * 256 ^ (n + 1 - 1 - i) =
      (s.w.read (off + i)).toNat * 256 ^ (n - 1 - i) * 256 := by
    intro i hi
    have hlt := List.mem_range.1 hi
    rw [Nat.mul_assoc, ← Nat.pow_succ, show n + 1 - 1 - i = n - 1 - i + 1 by omega]
  simp only [fieldValue, List.range_succ, List.map_append, List.sum_append, List.map_congr_left hdigit,
    List.sum_map_mul_right]
  simp

/-- The first byte of a little-endian field is its lowest digit. -/
theorem fieldValue_little_succ (s : State) (off n : Nat) :
    fieldValue s .little off (n + 1) = fieldValue s .little (off + 1) n * 256 + (s.w.read off).toNat := by
  have hdigit : ∀ i, (s.w.read (off + (i + 1))).toNat * 256 ^ (i + 1) =
      (s.w.read (off + 1 + i)).toNat * 256 ^ i * 256 := by
    intro i
    rw [Nat.mul_assoc, ← Nat.pow_succ, Nat.add_right_comm, Nat.add_assoc]
  simp only [fieldValue, List.range_succ_eq_map, List.map_cons, List.map_map, Function.comp_def,
    Nat.succ_eq_add_one, hdigit, List.sum_cons, List.sum_map_mul_right]
  simp [Nat.add_comm]

/-- The number assembled from a range is the sum of its digits. -/
theorem assemble_readRange (s : State) (e : ByteOrder) (off n : Nat) :
    assemble e (s.w.readRange off n) = fieldValue s e off n := by
  cases e with
  | big =>
    induction n with
    | zero => rfl
    | succ n ih =>
      rw [fieldValue_big_succ, ← ih, Memory.readRange_add]
      exact bigEndianNat_concat _ _
  | little =>
    induction n generalizing off with
    | zero => rfl
    | succ n ih =>
      rw [fieldValue_little_succ, ← ih, Memory.readRange, assemble, List.reverse_cons]
      exact bigEndianNat_concat _ _

theorem fieldValue_lt (s : State) (e : ByteOrder) (off n : Nat) : fieldValue s e off n < 2 ^ (8 * n) := by
  have hlt := assemble_lt e (s.w.readRange off n)
  rwa [assemble_readRange, Memory.readRange_length] at hlt

/-! ### The pack (R180, R181) -/

theorem packT_eq (raw : Index) : packT raw = BitVec.ofNat 12 (raw.toNat / 4096) :=
  BitVec.eq_of_toNat_eq (by rw [packT, BitVec.extractLsb'_toNat, Nat.shiftRight_eq_div_pow, BitVec.toNat_ofNat])

theorem packH_eq (raw : Index) : packH raw = BitVec.ofNat 12 (raw.toNat % 4096) := by
  apply BitVec.eq_of_toNat_eq
  simp only [packH, BitVec.extractLsb'_toNat, BitVec.toNat_ofNat, Nat.shiftRight_zero]
  omega

/-- The two fields are the pack, as a number. -/
theorem packT_packH_toNat (raw : Index) : (packT raw).toNat * 4096 + (packH raw).toNat = raw.toNat := by
  rw [packT_eq, packH_eq, BitVec.toNat_ofNat, BitVec.toNat_ofNat]
  omega

/-- A pack with the number `T * 4096 + H` has the fields `T` and `H`. -/
theorem packT_packH_of_toNat {raw : Index} {t h : Raw12} (hraw : raw.toNat = t.toNat * 4096 + h.toNat) :
    packT raw = t ∧ packH raw = h := by
  simp only [packT_eq, packH_eq, BitVec.toNat_eq, BitVec.toNat_ofNat]
  omega

theorem packRaw_toNat (e : ByteOrder) {bytes : List Byte} (hlen : bytes.length = 3) :
    (packRaw e bytes).toNat = assemble e bytes := by
  have hlt := assemble_lt e bytes
  rw [hlen] at hlt
  exact Nat.mod_eq_of_lt hlt

/-- The three bytes of a pack, as a number. -/
theorem assemble_packBytes (e : ByteOrder) (t h : Raw12) :
    assemble e (packBytes e t h) = t.toNat * 4096 + h.toNat := by
  have hraw : (t ++ h : Index).toNat = t.toNat * 4096 + h.toNat := append_toNat_eq_add t h
  cases e <;>
  · simp only [packBytes, assemble_big_three, assemble_little_three, BitVec.extractLsb'_toNat,
      Nat.shiftRight_eq_div_pow, hraw]
    omega

/-- Three bytes are determined by their number. -/
theorem eq_of_assemble_eq {e : ByteOrder} {bytes bytes' : List Byte} (hlen : bytes.length = 3)
    (hlen' : bytes'.length = 3) (h : assemble e bytes = assemble e bytes') : bytes = bytes' := by
  obtain ⟨a, b, c, rfl⟩ := List.length_eq_three.1 hlen
  obtain ⟨a', b', c', rfl⟩ := List.length_eq_three.1 hlen'
  simp only [List.cons.injEq, and_true, BitVec.toNat_eq]
  cases e with
  | big => rw [assemble_big_three, assemble_big_three] at h; omega
  | little => rw [assemble_little_three, assemble_little_three] at h; omega

/-- The bytes of a pack are the three whose number is `T * 4096 + H`. -/
theorem packBytes_eq_of_assemble {e : ByteOrder} {t h : Raw12} {bytes : List Byte} (hlen : bytes.length = 3)
    (hvalue : assemble e bytes = t.toNat * 4096 + h.toNat) : packBytes e t h = bytes :=
  eq_of_assemble_eq (packBytes_length e t h) hlen ((assemble_packBytes e t h).trans hvalue.symm)

/-! ### `UNP.TH` (R182) -/

/-- What `UNP.TH` leaves (`execUnpTh_valid`): the two fields of the pack at `off` in `TR` and `HR`. -/
def State.unpackTH (s : State) (e : ByteOrder) (off : Nat) : State :=
  s.setTH (packT (packRaw e (s.w.readRange off 3))) (packH (packRaw e (s.w.readRange off 3)))

theorem execUnpTh_valid {e : ByteOrder} {off : Index} {s : State} (hs : s.Inv)
    (hvalid : off.toNat + 3 ≤ s.wlen.toNat) : execUnpTh e off s = .next (s.unpackTH e off.toNat) := by
  rw [execUnpTh, need_pass hvalid, readW_pass (hvalid.trans hs.wlen_le)]
  rfl

/-- The fields of `UNP.TH` in exact numbers. -/
theorem State.unpackTH_eq (s : State) (e : ByteOrder) (off : Nat) :
    s.unpackTH e off =
      { s with
        tr := BitVec.ofNat 12 (fieldValue s e off 3 / 4096)
        hr := BitVec.ofNat 12 (fieldValue s e off 3 % 4096) } := by
  have hraw : (packRaw e (s.w.readRange off 3)).toNat = fieldValue s e off 3 :=
    (packRaw_toNat e (Memory.readRange_length _ _ _)).trans (assemble_readRange s e off 3)
  rw [State.unpackTH, packT_eq, packH_eq, hraw]
  rfl

theorem State.unpackTH_tx10 (s : State) (e : ByteOrder) (off : Nat) :
    (s.unpackTH e off).tx10 = ((fieldValue s e off 3 / 4096 : Nat) : Int) - 500 := by
  have hlt := fieldValue_lt s e off 3
  simp only [State.unpackTH_eq, State.tx10, BitVec.toNat_ofNat, Config.tOffsetX10]
  omega

theorem State.unpackTH_hx10 (s : State) (e : ByteOrder) (off : Nat) :
    (s.unpackTH e off).hx10 = fieldValue s e off 3 % 4096 := by
  simp only [State.unpackTH_eq, State.hx10, BitVec.toNat_ofNat]
  omega

/-- Settles O57: the range check decides between the error and the two fields, whose views are exact since the pack
has 24 bits. -/
theorem unpThSplitsThePack : Obligations.UnpThSplitsThePack := by
  refine fun e off s hs => ⟨fun hpast => need_fail hpast, ?_⟩
  rintro hvalid raw rfl
  exact ⟨s.unpackTH e off.toNat, execUnpTh_valid hs hvalid, s.unpackTH_eq e _, s.unpackTH_tx10 e _,
    s.unpackTH_hx10 e _⟩

/-! ### `PCK.TH` (R183) -/

theorem execPckTh_pass {e : ByteOrder} {t h : Raw12} {s : State} (hroom : s.wlen.toNat + 3 ≤ s.wcap.toNat) :
    execPckTh e t h s = .next (s.appendW (packBytes e t h)) := room_pass hroom

/-- The room for a pack, as the append of its bytes asks for it. -/
theorem packBytes_fits {s : State} (hroom : s.wlen.toNat + 3 ≤ s.wcap.toNat) (e : ByteOrder) (t h : Raw12) :
    s.wlen.toNat + (packBytes e t h).length ≤ s.wcap.toNat := by
  rwa [packBytes_length]

/-- Settles O58: the room check, then the append of the three bytes with the number of the pack. -/
theorem pckThAppendsThePack : Obligations.PckThAppendsThePack := by
  refine fun e t h s hs => ⟨fun hfull => room_fail hfull, fun hroom b0 b1 b2 hdigits => ?_⟩
  refine ⟨_, execPckTh_pass hroom, ?frame, ?bytes⟩
  case frame => rw [State.appendW_eq, packBytes_length]
  case bytes =>
    have hpack := hs.appendW_appendsToW (packBytes_fits hroom e t h)
    cases e with
    | big =>
      have hbytes : packBytes .big t h = [b0, b1, b2] :=
        packBytes_eq_of_assemble rfl ((assemble_big_three b0 b1 b2).trans hdigits)
      rwa [hbytes] at hpack ⊢
    | little =>
      have hbytes : packBytes .little t h = [b2, b1, b0] :=
        packBytes_eq_of_assemble rfl ((assemble_little_three b2 b1 b0).trans hdigits)
      rwa [hbytes] at hpack ⊢

/-! ### The round trips (R183, R184) -/

/-- The fields of the bytes of a pack are the fields it was made of. -/
theorem packT_packH_packBytes (e : ByteOrder) (t h : Raw12) :
    packT (packRaw e (packBytes e t h)) = t ∧ packH (packRaw e (packBytes e t h)) = h :=
  packT_packH_of_toNat ((packRaw_toNat e (packBytes_length e t h)).trans (assemble_packBytes e t h))

/-- The bytes of the fields of three bytes are these bytes. -/
theorem packBytes_packT_packH (e : ByteOrder) {bytes : List Byte} (hlen : bytes.length = 3) :
    packBytes e (packT (packRaw e bytes)) (packH (packRaw e bytes)) = bytes :=
  packBytes_eq_of_assemble hlen (by rw [packT_packH_toNat, packRaw_toNat e hlen])

/-- `UNP.TH` at the bytes that `PCK.TH` appended reads its operands. -/
theorem execUnpTh_after_pckTh {s : State} (hs : s.Inv) (hroom : s.wlen.toNat + 3 ≤ s.wcap.toNat) (e : ByteOrder)
    (t h : Raw12) :
    execUnpTh e s.wlen (s.appendW (packBytes e t h)) = .next ((s.appendW (packBytes e t h)).setTH t h) := by
  have hfits := packBytes_fits hroom e t h
  have hwlen := s.appendW_wlen_toNat _ hfits
  rw [packBytes_length] at hwlen
  have hread : (s.appendW (packBytes e t h)).w.readRange s.wlen.toNat 3 = packBytes e t h :=
    packBytes_length e t h ▸ Memory.readRange_writeRange_self hs.w_wf s.wlen.toNat (packBytes e t h)
  obtain ⟨ht, hh⟩ := packT_packH_packBytes e t h
  rw [execUnpTh_valid (hs.appendW hfits) hwlen.ge, State.unpackTH, hread, ht, hh]

/-- A number fits 12 bits as the field whose number it is. -/
theorem raw12_eq_some_iff (n : Int) (x : Raw12) : raw12 n = some x ↔ (x.toNat : Int) = n := by
  simp only [raw12, Option.ite_none_right_eq_some, Option.some.injEq, BitVec.toNat_eq, BitVec.toNat_ofNat]
  omega

theorem raw12_eq_none_iff (n : Int) : raw12 n = none ↔ ¬(0 ≤ n ∧ n < 4096) :=
  ite_eq_right_iff.trans (by simp)

/-- A reading has its command when both fields exist. -/
theorem packReading_eq_map₂ (e : ByteOrder) (t h : Int) :
    packReading e t h = Option.map₂ (.pckTh e) (rawOfTenths t) (rawOfPercentTenths h) := by
  rw [packReading]
  cases rawOfTenths t <;> cases rawOfPercentTenths h <;> rfl

theorem packReading_eq_none_iff (e : ByteOrder) (t h : Int) :
    packReading e t h = none ↔ ¬(-500 ≤ t ∧ t ≤ 3595 ∧ 0 ≤ h ∧ h ≤ 4095) := by
  rw [packReading_eq_map₂, Option.map₂_eq_none_iff, rawOfTenths, rawOfPercentTenths, raw12_eq_none_iff,
    raw12_eq_none_iff, Config.tOffsetX10]
  omega

/-- The command of a reading holds the two fields whose numbers the reading gives. -/
theorem packReading_eq_some_iff (e : ByteOrder) (t h : Int) (i : Instr) :
    packReading e t h = some i ↔
      ∃ x y : Raw12, (x.toNat : Int) = t + 500 ∧ (y.toNat : Int) = h ∧ .pckTh e x y = i := by
  simp only [packReading_eq_map₂, Option.map₂_eq_some_iff, Option.mem_def, rawOfTenths, rawOfPercentTenths,
    raw12_eq_some_iff, Config.tOffsetX10]

/-- Settles O59: the two packings are inverse, so the views read what the two fields of the command hold. -/
theorem unpThUndoesPckTh : Obligations.UnpThUndoesPckTh := by
  refine ⟨fun e t h s hs hroom => ⟨_, execPckTh_pass hroom, execUnpTh_after_pckTh hs hroom e t h⟩,
    fun e b0 b1 b2 => packBytes_packT_packH e rfl,
    fun e t h => ⟨packReading_eq_none_iff e t h, fun i s hi hs hroom => ?_⟩⟩
  obtain ⟨x, y, hx, hy, rfl⟩ := (packReading_eq_some_iff e t h i).1 hi
  refine ⟨_, _, execPckTh_pass hroom, execUnpTh_after_pckTh hs hroom e x y, ?_, hy⟩
  rw [State.tx10, State.setTH_tr, hx, Config.tOffsetX10, Int.add_sub_cancel]

/-! ### `FLD.U` and `FLD.S` (R186, R187) -/

theorem fieldUnsigned_toNat (e : ByteOrder) {bytes : List Byte} (hlen : bytes.length ≤ 4) :
    (fieldUnsigned e bytes).toNat = assemble e bytes := by
  rw [fieldUnsigned, BitVec.toNat_setWidth_of_le (by omega), BitVec.toNat_ofNat,
    Nat.mod_eq_of_lt (assemble_lt e bytes)]

theorem fieldSigned_toInt (e : ByteOrder) {bytes : List Byte} (hpos : 1 ≤ bytes.length) (hlen : bytes.length ≤ 4) :
    (fieldSigned e bytes).toInt =
      if assemble e bytes < 2 ^ (8 * bytes.length - 1) then (assemble e bytes : Int)
      else assemble e bytes - 2 ^ (8 * bytes.length) := by
  have hhalf : 2 * assemble e bytes < 2 ^ (8 * bytes.length) ↔ assemble e bytes < 2 ^ (8 * bytes.length - 1) := by
    rw [← Nat.two_pow_pred_mul_two (by omega)]
    omega
  rw [fieldSigned, BitVec.toInt_signExtend_of_le (by omega), BitVec.toInt_eq_toNat_cond, BitVec.toNat_ofNat,
    Nat.mod_eq_of_lt (assemble_lt e bytes)]
  simp only [hhalf, Nat.cast_pow, Nat.cast_ofNat]

section Field
variable {op : Byte} {off n : Index} {s : State} {rest : List Byte → Out}

/-- The opening of both operations on a range past the valid bytes. -/
theorem fieldRead_past (hwidth : legalWidth n = true) (hpast : s.wlen.toNat < off.toNat + n.toNat) :
    widthOk op n s (need op off.toNat n.toNat s (readW off.toNat n.toNat s rest)) =
      .next (s.setStatus ErrCode.bufferUnderrun.code op) :=
  (widthOk_pass hwidth).trans (need_fail hpast)

/-- The opening of both operations on valid bytes of a legal state. -/
theorem fieldRead_valid (hs : s.Inv) (hwidth : legalWidth n = true) (hvalid : off.toNat + n.toNat ≤ s.wlen.toNat) :
    widthOk op n s (need op off.toNat n.toNat s (readW off.toNat n.toNat s rest)) =
      rest (s.w.readRange off.toNat n.toNat) := by
  rw [widthOk_pass hwidth, need_pass hvalid, readW_pass (hvalid.trans hs.wlen_le)]

end Field

/-- Settles O60: at a legal width the range check decides between the error and the field. -/
theorem fieldsAreReadWithTheirSign : Obligations.FieldsAreReadWithTheirSign := by
  intro e off n s hs hpos hle
  have hwidth : legalWidth n = true := (legalWidth_iff n).2 ⟨hpos, hle⟩
  have hlen := Memory.readRange_length s.w off.toNat n.toNat
  refine ⟨fun hpast => ?past, ?field⟩
  case past => exact ⟨fieldRead_past hwidth hpast, fieldRead_past hwidth hpast⟩
  case field =>
    rintro hvalid v rfl
    refine ⟨⟨_, fieldRead_valid hs hwidth hvalid, ?unsigned⟩, _, fieldRead_valid hs hwidth hvalid, ?signed⟩
    case unsigned => rw [fieldUnsigned_toNat e (hlen.trans_le hle), assemble_readRange]
    case signed => rw [fieldSigned_toInt e (hpos.trans_eq hlen.symm) (hlen.trans_le hle), assemble_readRange, hlen]

end Sys2Proof.Machine
end

section
/-! The dispatch and the error state (60_exceptions.md R221 to R224, R234): one equation for each line of the dispatch,
and for each operation the errors with which it can end. -/

namespace Sys2Proof.Machine

/-! ### The lines of the dispatch (R224) -/

section Dispatch
variable {s : State} {cmd : CmdWord}

theorem runCommand_rst_of_pending (hpending : s.err ≠ 0#8) : runCommand rstWord s = .next s.resetRegs :=
  (if_pos hpending).trans (if_pos rfl)

theorem runCommand_stClr_of_pending (hpending : s.err ≠ 0#8) : runCommand stClrWord s = .next s.clearStatus :=
  (if_pos hpending).trans <| (if_neg (by decide)).trans (if_pos rfl)

/-- While an error is pending every word but the two clearing ones is ignored. -/
theorem runCommand_of_blocked (hpending : s.err ≠ 0#8) (hrst : cmd ≠ rstWord) (hclr : cmd ≠ stClrWord) :
    runCommand cmd s = .next s :=
  (if_pos hpending).trans <| (if_neg hrst).trans (if_neg hclr)

theorem step_of_blocked {rest : List CmdWord} (hcmds : s.cmds = cmd :: rest) (hpending : s.err ≠ 0#8)
    (hrst : cmd ≠ rstWord) (hclr : cmd ≠ stClrWord) : step s = .next (s.setCmds rest) :=
  (step_cons hcmds).trans (runCommand_of_blocked (s := s.setCmds rest) hpending hrst hclr)

theorem runCommand_of_illegal (herr : s.err = 0#8) (hillegal : ∀ i, decode cmd ≠ .ok i) :
    runCommand cmd s = .next (s.setStatus ErrCode.illegalCommand.code (opField cmd)) := by
  rw [runCommand, if_neg (not_not.2 herr)]
  cases hdecode : decode cmd with
  | error e => rfl
  | ok i => exact absurd hdecode (hillegal i)

theorem runCommand_of_decode {i : Instr} (herr : s.err = 0#8) (hdecode : decode cmd = .ok i) :
    runCommand cmd s = exec i s := by
  rw [runCommand, if_neg (not_not.2 herr), hdecode]

end Dispatch

/-- The top byte of a word as a number (30_encoding.md R70). -/
theorem opField_eq_ofNat (w : CmdWord) : opField w = BitVec.ofNat 8 (w.toNat / 2 ^ 56) := by
  rw [← Nat.shiftRight_eq_div_pow]
  rfl

/-! ### The errors of an operation (R222, R223) -/

/-- If the outcome of an operation begun in `s` is a next state, then either it is `s` with one of the errors `l` taken
under the opcode `op`, or both status registers are as in `s`. -/
def RaisesOnly (l : List ErrCode) (op : Byte) (s : State) (o : Out) : Prop :=
  ∀ t : State, o = .next t → (∃ e ∈ l, t = s.setStatus e.code op) ∨ (t.err = s.err ∧ t.eop = s.eop)

section RaiseRules
variable {l : List ErrCode} {op : Byte} {s : State} {rest : Out}

theorem RaisesOnly.next {t : State} (herr : t.err = s.err) (heop : t.eop = s.eop) : RaisesOnly l op s (.next t) :=
  fun _ heq => Host.Outcome.next.inj heq ▸ .inr ⟨herr, heop⟩

theorem raise_raisesOnly {e : ErrCode} (he : e ∈ l) : RaisesOnly l op s (raise e op s) :=
  fun _ heq => .inl ⟨e, he, (Host.Outcome.next.inj heq).symm⟩

theorem fault_raisesOnly (r : Fault) : RaisesOnly l op s (.fault r) :=
  fun _ heq => nomatch heq

theorem ite_raisesOnly {c : Prop} [Decidable c] {o o' : Out} (h : RaisesOnly l op s o) (h' : RaisesOnly l op s o') :
    RaisesOnly l op s (if c then o else o') := by
  split
  · exact h
  · exact h'

/-- A check takes its error or leaves the rest of the operation. -/
theorem raiseIf_raisesOnly {c : Prop} [Decidable c] {e : ErrCode} (h : RaisesOnly l op s rest)
    (he : e ∈ l := by simp [errorsOf]) : RaisesOnly l op s (if c then raise e op s else rest) :=
  ite_raisesOnly (raise_raisesOnly he) h

theorem need_raisesOnly {a n : Nat} (h : RaisesOnly l op s rest)
    (he : .bufferUnderrun ∈ l := by simp [errorsOf]) : RaisesOnly l op s (need op a n s rest) :=
  raiseIf_raisesOnly h he

theorem room_raisesOnly {n : Nat} (h : RaisesOnly l op s rest)
    (he : .bufferOverflow ∈ l := by simp [errorsOf]) : RaisesOnly l op s (room op n s rest) :=
  raiseIf_raisesOnly h he

theorem keyOk_raisesOnly (h : RaisesOnly l op s rest)
    (he : .cipherLengthInvalid ∈ l := by simp [errorsOf]) : RaisesOnly l op s (keyOk op s rest) :=
  raiseIf_raisesOnly h he

theorem wholeBlocks_raisesOnly {len : Nat} (h : RaisesOnly l op s rest)
    (he : .cipherLengthInvalid ∈ l := by simp [errorsOf]) : RaisesOnly l op s (wholeBlocks op len s rest) :=
  raiseIf_raisesOnly h he

theorem accessW_raisesOnly {a n : Nat} (h : RaisesOnly l op s rest) : RaisesOnly l op s (accessW a n s rest) :=
  ite_raisesOnly (fault_raisesOnly _) h

theorem readW_raisesOnly {a n : Nat} {rest : List Byte → Out} (h : ∀ bytes, RaisesOnly l op s (rest bytes)) :
    RaisesOnly l op s (readW a n s rest) :=
  accessW_raisesOnly (h _)

/-- The opening of most operations: the range is checked, then read. -/
theorem needRead_raisesOnly {a n : Nat} {rest : List Byte → Out} (h : ∀ bytes, RaisesOnly l op s (rest bytes))
    (he : .bufferUnderrun ∈ l := by simp [errorsOf]) : RaisesOnly l op s (need op a n s (readW a n s rest)) :=
  need_raisesOnly (readW_raisesOnly h) he

/-- At a legal width the width check raises nothing: the decoder has made it (log entry 7). -/
theorem widthOk_raisesOnly {n : Index} (hn : legalWidth n = true) (h : RaisesOnly l op s rest) :
    RaisesOnly l op s (widthOk op n s rest) := by
  rwa [widthOk_pass hn]

end RaiseRules

/-! The operations with a choice of their own, then all of them. -/

theorem execKeyPush_raisesOnly (imm : Byte) (s : State) :
    RaisesOnly [.bufferOverflow] 0x07#8 s (execKeyPush imm s) :=
  raiseIf_raisesOnly <| ite_raisesOnly (fault_raisesOnly _) <| .next rfl rfl

theorem execSumChk_raisesOnly (off len : Index) (s : State) :
    RaisesOnly [.bufferUnderrun, .checksumMismatch] 0x13#8 s (execSumChk off len s) :=
  raiseIf_raisesOnly <| need_raisesOnly <| readW_raisesOnly fun _ => readW_raisesOnly fun _ =>
    raiseIf_raisesOnly <| .next rfl rfl

/-- Both one-block operations (43_aes_cipher.md R143, R144). -/
theorem execBlock_raisesOnly (op : Byte) (f : List Byte → List Byte → List Byte) (off : Index) (s : State) :
    RaisesOnly [.cipherLengthInvalid, .bufferUnderrun] op s (execBlock op f off s) :=
  keyOk_raisesOnly <| needRead_raisesOnly fun _ => .next rfl rfl

/-- Both range operations (43_aes_cipher.md R145, R146). -/
theorem execBlocks_raisesOnly (op : Byte) (f : List Byte → List Byte → List Byte) (off len : Index) (s : State) :
    RaisesOnly [.cipherLengthInvalid, .bufferUnderrun] op s (execBlocks op f off len s) :=
  keyOk_raisesOnly <| wholeBlocks_raisesOnly <| need_raisesOnly <| accessW_raisesOnly <| .next rfl rfl

theorem execAesUnpad_raisesOnly (off : Index) (s : State) :
    RaisesOnly [.bufferUnderrun, .paddingInvalid] 0x35#8 s (execAesUnpad off s) :=
  need_raisesOnly <| raiseIf_raisesOnly <| readW_raisesOnly fun _ => raiseIf_raisesOnly <| .next rfl rfl

theorem execAesDecc_raisesOnly (off len : Index) (s : State) :
    RaisesOnly [.bufferUnderrun, .cipherLengthInvalid] 0x37#8 s (execAesDecc off len s) :=
  raiseIf_raisesOnly <| need_raisesOnly <| readW_raisesOnly fun _ => ite_raisesOnly (.next rfl rfl) <|
    keyOk_raisesOnly <| wholeBlocks_raisesOnly <| accessW_raisesOnly <| .next rfl rfl

/-- The map is refused only for two valid keys of one value (44_unescaper.md R163). -/
theorem execUneMap_raisesOnly (off : Index) (s : State) :
    RaisesOnly [.bufferUnderrun, .malformedInput] 0x41#8 s (execUneMap off s) := by
  refine needRead_raisesOnly fun key => ?_
  split
  · next e herr => exact raise_raisesOnly (by simp [buildMap_error herr])
  · exact .next rfl rfl

theorem execUneRun_raisesOnly (s : State) :
    RaisesOnly [.bufferUnderrun, .malformedInput] 0x43#8 s (execUneRun s) := by
  refine readW_raisesOnly fun bytes => ?_
  split
  · next e herr => exact raise_raisesOnly (List.mem_pair.2 (unescape_error herr))
  · exact .next rfl rfl

/-- R222: a well-formed operation other than the two clearing ones raises only what its row lists, under its own
opcode, and else leaves the status registers as they were. -/
theorem exec_raisesOnly {i : Instr} (hi : i.WellFormed) (hrst : i ≠ .rst) (hclr : i ≠ .stClr) (s : State) :
    RaisesOnly (errorsOf i) (opcodeOf i) s (exec i s) := by
  cases i with
  | rst => exact absurd rfl hrst
  | stClr => exact absurd rfl hclr
  | nop | bufClr | keyClr | sumClr | sumByte imm | crcInit | crcByte imm | uneClr => exact .next rfl rfl
  | bufPush imm => exact room_raisesOnly <| .next rfl rfl
  | keyPush imm => exact execKeyPush_raisesOnly imm s
  | sumRng off len | crcRng off len | uneSub off len => exact needRead_raisesOnly fun _ => .next rfl rfl
  | sumChk off len => exact execSumChk_raisesOnly off len s
  | crcChk off len => exact needRead_raisesOnly fun _ => raiseIf_raisesOnly <| .next rfl rfl
  | sumApp off | crcApp off =>
    exact need_raisesOnly <| room_raisesOnly <| readW_raisesOnly fun _ => .next rfl rfl
  | aesEncb off | aesDecb off => exact execBlock_raisesOnly _ _ off s
  | aesEnc off len | aesDec off len => exact execBlocks_raisesOnly _ _ off len s
  | aesPad off => exact need_raisesOnly <| room_raisesOnly <| .next rfl rfl
  | aesUnpad off => exact execAesUnpad_raisesOnly off s
  | mrkTst off | unpTh e off => exact needRead_raisesOnly fun _ => .next rfl rfl
  | aesDecc off len => exact execAesDecc_raisesOnly off len s
  | uneMap off => exact execUneMap_raisesOnly off s
  | uneRun => exact execUneRun_raisesOnly s
  | pckTh e t h => exact room_raisesOnly <| .next rfl rfl
  | fldU e off n | fldS e off n =>
    exact widthOk_raisesOnly hi <| needRead_raisesOnly fun _ => .next rfl rfl

/-- Only a field width is ever ill-formed, and the width check comes first (45_unpacker.md R186). -/
theorem exec_of_not_wellFormed {i : Instr} (hi : ¬i.WellFormed) (s : State) :
    exec i s = .next (s.setStatus ErrCode.illegalCommand.code (opcodeOf i)) := by
  cases i with
  | fldU e off n | fldS e off n => exact widthOk_fail (Bool.eq_false_of_not_eq_true hi)
  | _ => exact absurd rfl hi

section Raised
variable {i : Instr} {s t : State}

/-- An error that a well-formed operation leaves was raised by it: it is one of its row, and nothing else changed.
The clearing operations leave none. -/
theorem raised_of_wellFormed (hi : i.WellFormed) (herr : s.err = 0#8) (hexec : exec i s = .next t)
    (hraised : t.err ≠ 0#8) : ∃ e ∈ errorsOf i, t = s.setStatus e.code (opcodeOf i) := by
  by_cases hrst : i = .rst
  · obtain rfl := hrst
    cases hexec
    exact absurd s.resetRegs_err hraised
  by_cases hclr : i = .stClr
  · obtain rfl := hclr
    cases hexec
    exact absurd s.clearStatus_err hraised
  obtain hlisted | ⟨hkept, -⟩ := exec_raisesOnly hi hrst hclr s t hexec
  · exact hlisted
  · exact absurd (hkept.trans herr) hraised

/-- Every error is raised in the same way, that of an ill-formed instruction too. -/
theorem raised_of_exec (herr : s.err = 0#8) (hexec : exec i s = .next t) (hraised : t.err ≠ 0#8) :
    ∃ e : ErrCode, t = s.setStatus e.code (opcodeOf i) := by
  by_cases hi : i.WellFormed
  · obtain ⟨e, -, ht⟩ := raised_of_wellFormed hi herr hexec hraised
    exact ⟨e, ht⟩
  · rw [exec_of_not_wellFormed hi] at hexec
    exact ⟨.illegalCommand, (Host.Outcome.next.inj hexec).symm⟩

end Raised

/-! ### The statements -/

/-- Settles O7, by induction on the list: the first word is ignored, and the rest are run from the same state. -/
theorem blockedSequencesChangeNothing : Obligations.BlockedSequencesChangeNothing := by
  intro l s hpending hwords
  induction l with
  | nil => rfl
  | cons w l ih =>
    obtain ⟨⟨hrst, hclr⟩, hrest⟩ := List.forall_mem_cons.1 hwords
    have hstep : Sys2Proof.core.step ({ s with cmds := w :: l } : State) = .next ({ s with cmds := l } : State) :=
      step_of_blocked (s := { s with cmds := w :: l }) rfl hpending hrst hclr
    exact (run_succ_of_step hstep l.length).trans (ih hrest)

/-- Settles O8: an operation's raise carries its opcode, which is the top byte of its word; an illegal word's raise
carries its own. -/
theorem aRaiseChangesOnlyErrAndEop : Obligations.ARaiseChangesOnlyErrAndEop := by
  refine ⟨fun i s t herr hexec hraised => ?operation, fun cmd s herr hillegal => runCommand_of_illegal herr hillegal,
    rfl, rfl, rfl, rfl, rfl, rfl, rfl, rfl⟩
  case operation =>
    obtain ⟨hop, -⟩ := Laws.EncodedFields.of_packFields i
    obtain ⟨e, ht⟩ := raised_of_exec herr hexec hraised
    exact ⟨e, ht.trans (congrArg (s.setStatus e.code) hop.symm)⟩

/-- Settles O9: an error left was raised from the row of the operation; without one, no raise wrote `EOP`. -/
theorem operationsRaiseOnlyTheirListedErrors : Obligations.OperationsRaiseOnlyTheirListedErrors := by
  intro i s t hi herr hexec
  refine ⟨fun hraised => ?_, fun hnone hrst hclr => ?_⟩
  · obtain ⟨e, he, rfl⟩ := raised_of_wellFormed hi herr hexec hraised
    exact ⟨e, he, rfl⟩
  · obtain ⟨e, -, rfl⟩ | ⟨-, heop⟩ := exec_raisesOnly hi hrst hclr s t hexec
    · exact absurd hnone e.code_ne_zero
    · exact heop

/-- Settles O5: a step is the dispatch of the first word, whose last line is `exec`. -/
theorem stepRunsTheDecodedCommand : Obligations.StepRunsTheDecodedCommand := by
  refine ⟨fun s cmd rest i hcmds herr hdecode => ?_, fun s => step_nil⟩
  obtain ⟨hwf, -⟩ := encodeRebuildsEveryLegalWord cmd i hdecode
  exact ⟨hwf, (step_cons hcmds).trans (runCommand_of_decode (s := s.setCmds rest) herr hdecode)⟩

/-- Settles O6: line by line, the dispatch of the first word in the state without it. -/
theorem dispatchFollowsItsOrder : Obligations.DispatchFollowsItsOrder := by
  intro s cmd rest hcmds
  rw [step_cons hcmds]
  refine ⟨fun hpending => ⟨?rst, ?stClr, runCommand_of_blocked (s := s.setCmds rest) hpending⟩,
    fun herr => ⟨fun hillegal => ?illegal, fun i => runCommand_of_decode (s := s.setCmds rest) herr⟩⟩
  case rst =>
    rintro rfl
    exact runCommand_rst_of_pending (s := s.setCmds rest) hpending
  case stClr =>
    rintro rfl
    exact runCommand_stClr_of_pending (s := s.setCmds rest) hpending
  case illegal =>
    rw [← opField_eq_ofNat]
    exact runCommand_of_illegal (s := s.setCmds rest) herr hillegal

end Sys2Proof.Machine
end

section
/-! The example words of the encoding (30_encoding.md section 7): a legal word is the encoding of its instruction, and
an illegal one fails the lookup of its opcode, the test of its unused fields or the test of its width. -/

namespace Sys2Proof.Machine

/-! ### Legal words (R74) -/

/-- The two round trips as one statement: a word is the command `i` when it is the encoding of a well-formed `i`. -/
theorem decode_eq_ok_iff_encode {w : CmdWord} {i : Instr} : decode w = .ok i ↔ i.WellFormed ∧ encode i = w := by
  refine ⟨encodeRebuildsEveryLegalWord w i, ?_⟩
  rintro ⟨hwf, rfl⟩
  exact decodeReadsBackEveryEncoding i hwf

/-! ### Illegal words (R75) -/

section Illegal
variable {w : CmdWord} {f : Format}

theorem decode_of_formatOf_none (hop : formatOf (opField w) = none) : decode w = .error .unassignedOpcode := by
  rw [decode, hop]

theorem decode_of_formatOf_some (hop : formatOf (opField w) = some f) :
    decode w = fillFormat f (mField w) (lenField w) (offField w) := by
  rw [decode, hop]

/-- A set bit in a field that the format marks 0 is refused as such, before any width is looked at. -/
theorem fillFormat_of_unused_ne_zero {m : Byte} {len off : Index}
    (hunused : ¬ (m &&& zeroM f = 0#8 ∧ len &&& zeroLen f = 0#24 ∧ off &&& zeroOff f = 0#24)) :
    fillFormat f m len off = .error .unusedFieldNotZero := by
  have hnone (i : Instr) : fillFormat f m len off ≠ .ok i := fun h =>
    hunused (exists_fills_iff.mp ⟨i, fills_of_fillFormat h⟩).1
  cases f with
  | z | imm | o | r => exact if_neg fun hok => hnone _ (if_pos hok)
  | mo mk | mp mk =>
    cases he : orderOfM m with
    | none => simp only [fillFormat, he]
    | some e =>
      simp only [fillFormat, he] at hnone ⊢
      exact if_neg fun hok => hnone _ (if_pos hok)
  | mr mk =>
    have horder : orderOfM m = none := by
      rw [← Option.not_isSome_iff_eq_none, orderOfM_isSome_iff]
      exact fun hm => hunused ⟨hm, BitVec.and_zero, BitVec.and_zero⟩
    simp only [fillFormat, horder]

theorem fillFormat_mr_of_illegal_width {mk : ByteOrder → Index → Index → Instr} (e : ByteOrder) {len : Index}
    (off : Index) (hwidth : legalWidth len = false) :
    fillFormat (.mr mk) (mOfOrder e) len off = .error .widthNotLegal := by
  simp [fillFormat, orderOfM_mOfOrder, hwidth]

end Illegal

/-- Settles O19: the legal words are encodings, and each illegal one meets the check of R75 that it fails. -/
theorem exampleWordsDecodeAsListed : Obligations.ExampleWordsDecodeAsListed := by
  simp only [Obligations.ExampleWordsDecodeAsListed, decode_eq_ok_iff_encode]
  refine ⟨⟨rfl, rfl⟩, ⟨rfl, rfl⟩, ⟨rfl, rfl⟩, ⟨rfl, rfl⟩, ⟨rfl, rfl⟩, ⟨rfl, rfl⟩, ⟨rfl, rfl⟩, ?opcode, ?unused, ?width⟩
  case opcode => exact decode_of_formatOf_none rfl
  case unused => exact (decode_of_formatOf_some rfl).trans (fillFormat_of_unused_ne_zero (by decide))
  case width => exact (decode_of_formatOf_some rfl).trans (fillFormat_mr_of_illegal_width .big _ rfl)

end Sys2Proof.Machine
end
